-- ==== Sys2Proof/Word.lean ====
section
/-! DEFINITION. The words of the Morningstar engine: bit-vector values with their width (00_scope.md R10, R11;
10_state.md R21), and the types of the command word's fields (30_encoding.md R92). -/

namespace Sys2Proof

/-- A vector register number, 0 to 15: "all 16 values name a register" (R95). -/
abbrev VReg := Fin 16

/-- The command word CW (R90). -/
abbrev CmdWord := BitVec 32

/-- The data word DW (R90). -/
abbrev DataWord := BitVec 64

/-- The 7-bit immediates `imm` and `imm2`, unsigned (R92, R95). -/
abbrev Imm := BitVec 7

/-- The 5-bit field `n`: a round count or a subkey index (R92). -/
abbrev Count := BitVec 5

/-- `BV(w, v)`: a logical bit string of `w` bits held in the backing integer `v` (R11). Two values are equal
exactly when width and backing integer are. -/
structure BV where
  /-- the width -/
  w : Nat
  /-- the backing integer -/
  v : Nat
deriving DecidableEq, Repr

/-- The invariant of R21: `1 ≤ w ≤ 64` and `v < 2^w`. -/
abbrev BV.Fits (x : BV) : Prop := 1 ≤ x.w ∧ x.w ≤ 64 ∧ x.v < 2 ^ x.w

/-- The bit at position `p`, 1-indexed from the most significant: bit index `w - p` of the backing integer
(R10). Read for `1 ≤ p ≤ w`. -/
def BV.at (x : BV) (p : Nat) : Bool := x.v.testBit (x.w - p)

end Sys2Proof
end

