-- ==== Sys2Proof/Syntax.lean ====
section
/-! DEFINITION. The 27 commands (30_encoding.md R97), one constructor each, with the operands of their format
(R93) in the order destinations, sources, immediates (R101). `BV.NEW` carries its data word: DW is an operand
of that command only (R90, R96; log entry 4). -/

namespace Sys2Proof

/-- A command. -/
inductive Instr where
  /-- `BV.NEW Vd, w ; value` (R131) -/
  | bvNew (rd : VReg) (w : Imm) (value : DataWord)
  /-- `BV.READ Va` (R132) -/
  | bvRead (ra : VReg)
  /-- `BV.GET Vd, Va, pos` (R133) -/
  | bvGet (rd ra : VReg) (pos : Imm)
  /-- `BV.SET Vd, Va, pos, b` (R134) -/
  | bvSet (rd ra : VReg) (pos : Imm) (b : BitVec 1)
  /-- `BV.RANGE Vd, Va, from, to` (R135): `first` is `imm`, `last` is `imm2` -/
  | bvRange (rd ra : VReg) (first last : Imm)
  /-- `BV.SPLIT Vd, Ve, Va, mid` (R136) -/
  | bvSplit (rd re ra : VReg) (mid : Imm)
  /-- `BV.CONCAT Vd, Va, Vb` (R137) -/
  | bvConcat (rd ra rb : VReg)
  /-- `BV.ROTL Vd, Va, n` (R138) -/
  | bvRotl (rd ra : VReg) (n : Imm)
  /-- `BV.PERM Vd, Va, tid` (R139) -/
  | bvPerm (rd ra : VReg) (tid : Imm)
  /-- `BV.DOT Vd, Va, Vb` (R140) -/
  | bvDot (rd ra rb : VReg)
  /-- `BV.XOR Vd, Va, Vb` (R141) -/
  | bvXor (rd ra rb : VReg)
  /-- `TBL.CLR` (R151) -/
  | tblClr
  /-- `TBL.PUSH e` (R152) -/
  | tblPush (e : Imm)
  /-- `KS.LOAD Va` (R161) -/
  | ksLoad (ra : VReg)
  /-- `KS.STEP` (R162) -/
  | ksStep
  /-- `KS.DERIVE Va, n` (R163) -/
  | ksDerive (ra : VReg) (n : Count)
  /-- `KS.GETK Vd, i` (R164) -/
  | ksGetk (rd : VReg) (i : Count)
  /-- `KS.GETCD Vd` (R165) -/
  | ksGetcd (rd : VReg)
  /-- `RF.SBOX Vd, Va` (R185) -/
  | rfSbox (rd ra : VReg)
  /-- `RF.F Vd, Va, Vb` (R186) -/
  | rfF (rd ra rb : VReg)
  /-- `RF.SB Vd, Va, j` (R184) -/
  | rfSb (rd ra : VReg) (j : Imm)
  /-- `C.INIT Va` (R202) -/
  | cInit (ra : VReg)
  /-- `C.ROUND` (R203) -/
  | cRound
  /-- `C.FINAL Vd` (R204) -/
  | cFinal (rd : VReg)
  /-- `C.ENCK Vd, Va, n` (R205) -/
  | cEnck (rd ra : VReg) (n : Count)
  /-- `C.ENCRYPT Vd, Va, Vb, n` (R206) -/
  | cEncrypt (rd ra rb : VReg) (n : Count)
  /-- `C.GETLR Vd, Ve` (R208) -/
  | cGetlr (rd re : VReg)
deriving DecidableEq, Repr

end Sys2Proof
end

