-- ==== Sys2Proof/WellFormed.lean ====
section
/-! DEFINITION. Which terms of `Instr` are commands: the three field checks of 30_encoding.md R99 (c). Every
other field holds exactly the values its bits can carry (R95), by its type. -/

namespace Sys2Proof

/-- `BV.PERM` names a table 0 to 6, `RF.SB` a box 1 to 8, and the two destinations of `BV.SPLIT` and of
`C.GETLR` differ (R99 c). -/
def Instr.wellFormed : Instr → Bool
  | .bvPerm _ _ tid => tid.toNat ≤ 6
  | .rfSb _ _ j => 1 ≤ j.toNat && j.toNat ≤ 8
  | .bvSplit rd re _ _ => rd != re
  | .cGetlr rd re => rd != re
  | .bvNew .. | .bvRead .. | .bvGet .. | .bvSet .. | .bvRange .. | .bvConcat .. | .bvRotl .. | .bvDot ..
  | .bvXor .. | .tblClr | .tblPush .. | .ksLoad .. | .ksStep | .ksDerive .. | .ksGetk .. | .ksGetcd ..
  | .rfSbox .. | .rfF .. | .cInit .. | .cRound | .cFinal .. | .cEnck .. | .cEncrypt .. => true

/-- The reserved opcodes as R99 (a) lists them: "0x00 to 0x0F, 0x1B to 0x1F, 0x22 to 0x2F, 0x35 to 0x3F, 0x43 to
0x4F, 0x56 to 0xFF". -/
def reservedOpcode (op : Nat) : Bool :=
  op ≤ 0x0F || (0x1B ≤ op && op ≤ 0x1F) || (0x22 ≤ op && op ≤ 0x2F) || (0x35 ≤ op && op ≤ 0x3F)
    || (0x43 ≤ op && op ≤ 0x4F) || 0x56 ≤ op

/-- The must-be-zero bits below the opcode, for an opcode that is not reserved: the mask column of R97 without its
opcode bits. -/
def zeroBits (op : Nat) : CmdWord :=
  match op with
  | 0x10 => 0x000FFF80
  | 0x11 | 0x30 | 0x50 => 0x00F0FFFF
  | 0x12 | 0x17 | 0x18 | 0x42 => 0x0000FF80
  | 0x13 => 0x0000FF00
  | 0x14 => 0x0000C000
  | 0x15 => 0x00000F80
  | 0x16 | 0x19 | 0x1A | 0x41 => 0x00000FFF
  | 0x20 | 0x31 | 0x51 => 0x00FFFFFF
  | 0x21 => 0x00FFFF80
  | 0x32 => 0x00F0FFE0
  | 0x33 => 0x000FFFE0
  | 0x34 | 0x52 => 0x000FFFFF
  | 0x40 => 0x0000FFFF
  | 0x53 => 0x0000FFE0
  | 0x54 => 0x00000FE0
  | 0x55 => 0x000F0FFF
  | _ => 0

/-- A field check of R99 (c) fails: read off the word's bits, by opcode. -/
def failsFieldCheck (cw : CmdWord) : Bool :=
  let imm := (cw.extractLsb' 0 7).toNat
  let sameDest := cw.extractLsb' 20 4 == cw.extractLsb' 12 4
  match (cw.extractLsb' 24 8).toNat with
  | 0x18 => decide (imm > 6)
  | 0x42 => imm == 0 || decide (imm > 8)
  | 0x15 | 0x55 => sameDest
  | _ => false

/-- "CW is illegal when any of these holds" (R99), written from R97 and R99 without the decoder. -/
def illegalWord (cw : CmdWord) : Bool :=
  let op := (cw.extractLsb' 24 8).toNat
  reservedOpcode op || cw &&& zeroBits op != 0 || failsFieldCheck cw

end Sys2Proof
end

