-- ==== Sys2Proof/Decode.lean ====
section
/-! DEFINITION. Decoding and encoding of the command word (30_encoding.md R90 to R99). Decoding is total,
reads no state (R98) and rejects by name; the opcode table reads as the manual's (R97) with the sixteen
formats beside it (R93). The encoder places each operand in its field and leaves every other bit zero (R101). -/

namespace Sys2Proof

/-- The fields of a command word with the data word beside it (R92). A format uses some of them. -/
structure Fields where
  rd : VReg
  ra : VReg
  /-- bits 15:12, read as `rb` -/
  rb : VReg
  /-- bits 15:12, read as `re` -/
  re : VReg
  imm : Imm
  imm2 : Imm
  b : BitVec 1
  n : Count
  dw : DataWord
deriving DecidableEq, Repr

/-- The four bits from bit index `lo` up, as a register number (R92). -/
def regField (cw : CmdWord) (lo : Nat) : VReg := (cw.extractLsb' lo 4).toFin

/-- `CW[31:24]` (R91). -/
def opField (cw : CmdWord) : BitVec 8 := cw.extractLsb' 24 8

/-- Every field of R92 at its bit indices. -/
def fieldsOf (cw : CmdWord) (dw : DataWord) : Fields where
  rd := regField cw 20
  ra := regField cw 16
  rb := regField cw 12
  re := regField cw 12
  imm := cw.extractLsb' 0 7
  imm2 := cw.extractLsb' 7 7
  b := cw.extractLsb' 7 1
  n := cw.extractLsb' 0 5
  dw := dw

/-- The sixteen formats (R93). -/
inductive Format where
  | fN | fW | fA | fD | fU | fI | fB | fJ | fS | fR | fM | fAN | fDN | fUN | fE | fDD
deriving DecidableEq, Repr

/-- The bits below the opcode that a format marks `0` (R93). -/
def Format.mustBeZero : Format → CmdWord
  | .fN => 0x00FFFFFF
  | .fW => 0x000FFF80
  | .fA => 0x00F0FFFF
  | .fD => 0x000FFFFF
  | .fU => 0x0000FFFF
  | .fI => 0x0000FF80
  | .fB => 0x0000FF00
  | .fJ => 0x0000C000
  | .fS => 0x00000F80
  | .fR => 0x00000FFF
  | .fM => 0x00FFFF80
  | .fAN => 0x00F0FFE0
  | .fDN => 0x000FFFE0
  | .fUN => 0x0000FFE0
  | .fE => 0x00000FE0
  | .fDD => 0x000F0FFF

/-- One row of the opcode map: its format, its match and mask words, and the command its fields make (R97). -/
structure OpRow where
  fmt : Format
  mtch : CmdWord
  mask : CmdWord
  build : Fields → Instr

/-- The BV rows of R97. -/
def bvRows : List OpRow :=
  [ ⟨.fW, 0x10000000, 0xFF0FFF80, fun f => .bvNew f.rd f.imm f.dw⟩,
    ⟨.fA, 0x11000000, 0xFFF0FFFF, fun f => .bvRead f.ra⟩,
    ⟨.fI, 0x12000000, 0xFF00FF80, fun f => .bvGet f.rd f.ra f.imm⟩,
    ⟨.fB, 0x13000000, 0xFF00FF00, fun f => .bvSet f.rd f.ra f.imm f.b⟩,
    ⟨.fJ, 0x14000000, 0xFF00C000, fun f => .bvRange f.rd f.ra f.imm f.imm2⟩,
    ⟨.fS, 0x15000000, 0xFF000F80, fun f => .bvSplit f.rd f.re f.ra f.imm⟩,
    ⟨.fR, 0x16000000, 0xFF000FFF, fun f => .bvConcat f.rd f.ra f.rb⟩,
    ⟨.fI, 0x17000000, 0xFF00FF80, fun f => .bvRotl f.rd f.ra f.imm⟩,
    ⟨.fI, 0x18000000, 0xFF00FF80, fun f => .bvPerm f.rd f.ra f.imm⟩,
    ⟨.fR, 0x19000000, 0xFF000FFF, fun f => .bvDot f.rd f.ra f.rb⟩,
    ⟨.fR, 0x1A000000, 0xFF000FFF, fun f => .bvXor f.rd f.ra f.rb⟩ ]

/-- The TBL and KS rows of R97. -/
def tblKsRows : List OpRow :=
  [ ⟨.fN, 0x20000000, 0xFFFFFFFF, fun _ => .tblClr⟩,
    ⟨.fM, 0x21000000, 0xFFFFFF80, fun f => .tblPush f.imm⟩,
    ⟨.fA, 0x30000000, 0xFFF0FFFF, fun f => .ksLoad f.ra⟩,
    ⟨.fN, 0x31000000, 0xFFFFFFFF, fun _ => .ksStep⟩,
    ⟨.fAN, 0x32000000, 0xFFF0FFE0, fun f => .ksDerive f.ra f.n⟩,
    ⟨.fDN, 0x33000000, 0xFF0FFFE0, fun f => .ksGetk f.rd f.n⟩,
    ⟨.fD, 0x34000000, 0xFF0FFFFF, fun f => .ksGetcd f.rd⟩ ]

/-- The RF and C rows of R97. -/
def rfCRows : List OpRow :=
  [ ⟨.fU, 0x40000000, 0xFF00FFFF, fun f => .rfSbox f.rd f.ra⟩,
    ⟨.fR, 0x41000000, 0xFF000FFF, fun f => .rfF f.rd f.ra f.rb⟩,
    ⟨.fI, 0x42000000, 0xFF00FF80, fun f => .rfSb f.rd f.ra f.imm⟩,
    ⟨.fA, 0x50000000, 0xFFF0FFFF, fun f => .cInit f.ra⟩,
    ⟨.fN, 0x51000000, 0xFFFFFFFF, fun _ => .cRound⟩,
    ⟨.fD, 0x52000000, 0xFF0FFFFF, fun f => .cFinal f.rd⟩,
    ⟨.fUN, 0x53000000, 0xFF00FFE0, fun f => .cEnck f.rd f.ra f.n⟩,
    ⟨.fE, 0x54000000, 0xFF000FE0, fun f => .cEncrypt f.rd f.ra f.rb f.n⟩,
    ⟨.fDD, 0x55000000, 0xFF0F0FFF, fun f => .cGetlr f.rd f.re⟩ ]

/-- The opcode map of R97: 27 rows. -/
def opcodeTable : List OpRow := bvRows ++ tblKsRows ++ rfCRows

/-- Why a word is illegal, one name per ground of R99. -/
inductive DecodeError where
  /-- R99 (a): the opcode is none of the 27 -/
  | reservedOpcode
  /-- R99 (b): a bit the format marks `0` is 1 -/
  | mustBeZeroBit
  /-- R99 (c): `BV.PERM` with `imm` above 6 -/
  | noSuchTable
  /-- R99 (c): `RF.SB` with `imm` 0 or above 8 -/
  | noSuchBox
  /-- R99 (c): `BV.SPLIT` or `C.GETLR` with `rd = re` -/
  | sameDestination
deriving DecidableEq, Repr

/-- The field checks of R99 (c). -/
def checkFields : Instr → Except DecodeError Instr
  | .bvPerm rd ra tid => if tid.toNat > 6 then .error .noSuchTable else .ok (.bvPerm rd ra tid)
  | .rfSb rd ra j => if j.toNat = 0 ∨ j.toNat > 8 then .error .noSuchBox else .ok (.rfSb rd ra j)
  | .bvSplit rd re ra mid => if rd = re then .error .sameDestination else .ok (.bvSplit rd re ra mid)
  | .cGetlr rd re => if rd = re then .error .sameDestination else .ok (.cGetlr rd re)
  | i => .ok i

/-- The row whose opcode is `op`, if any (R91, R98). -/
def rowOf (op : BitVec 8) : Option OpRow := opcodeTable.find? fun row => opField row.mtch == op

/-- Decoding of a command (CW, DW), by the algorithm of R98: the opcode's row, its mask, the fields, the field
checks. DW reaches the command as an operand and takes no part in legality. -/
def decode (cw : CmdWord) (dw : DataWord) : Except DecodeError Instr :=
  match rowOf (opField cw) with
  | none => .error .reservedOpcode
  | some row =>
    if cw &&& row.mask = row.mtch then checkFields (row.build (fieldsOf cw dw)) else .error .mustBeZeroBit

/-- A register number as its four bits. -/
def regBits (r : VReg) : BitVec 4 := BitVec.ofFin r

/-- The command word of a command (R92, R93, R97, R101), most significant field first. -/
def encodeWord : Instr → CmdWord
  | .bvNew rd w _ => 0x10#8 ++ regBits rd ++ 0#4 ++ 0#9 ++ w
  | .bvRead ra => 0x11#8 ++ 0#4 ++ regBits ra ++ 0#16
  | .bvGet rd ra pos => 0x12#8 ++ regBits rd ++ regBits ra ++ 0#9 ++ pos
  | .bvSet rd ra pos b => 0x13#8 ++ regBits rd ++ regBits ra ++ 0#8 ++ b ++ pos
  | .bvRange rd ra first last => 0x14#8 ++ regBits rd ++ regBits ra ++ 0#2 ++ last ++ first
  | .bvSplit rd re ra mid => 0x15#8 ++ regBits rd ++ regBits ra ++ regBits re ++ 0#5 ++ mid
  | .bvConcat rd ra rb => 0x16#8 ++ regBits rd ++ regBits ra ++ regBits rb ++ 0#12
  | .bvRotl rd ra n => 0x17#8 ++ regBits rd ++ regBits ra ++ 0#9 ++ n
  | .bvPerm rd ra tid => 0x18#8 ++ regBits rd ++ regBits ra ++ 0#9 ++ tid
  | .bvDot rd ra rb => 0x19#8 ++ regBits rd ++ regBits ra ++ regBits rb ++ 0#12
  | .bvXor rd ra rb => 0x1A#8 ++ regBits rd ++ regBits ra ++ regBits rb ++ 0#12
  | .tblClr => 0x20#8 ++ 0#24
  | .tblPush e => 0x21#8 ++ 0#17 ++ e
  | .ksLoad ra => 0x30#8 ++ 0#4 ++ regBits ra ++ 0#16
  | .ksStep => 0x31#8 ++ 0#24
  | .ksDerive ra n => 0x32#8 ++ 0#4 ++ regBits ra ++ 0#11 ++ n
  | .ksGetk rd i => 0x33#8 ++ regBits rd ++ 0#4 ++ 0#11 ++ i
  | .ksGetcd rd => 0x34#8 ++ regBits rd ++ 0#20
  | .rfSbox rd ra => 0x40#8 ++ regBits rd ++ regBits ra ++ 0#16
  | .rfF rd ra rb => 0x41#8 ++ regBits rd ++ regBits ra ++ regBits rb ++ 0#12
  | .rfSb rd ra j => 0x42#8 ++ regBits rd ++ regBits ra ++ 0#9 ++ j
  | .cInit ra => 0x50#8 ++ 0#4 ++ regBits ra ++ 0#16
  | .cRound => 0x51#8 ++ 0#24
  | .cFinal rd => 0x52#8 ++ regBits rd ++ 0#20
  | .cEnck rd ra n => 0x53#8 ++ regBits rd ++ regBits ra ++ 0#11 ++ n
  | .cEncrypt rd ra rb n => 0x54#8 ++ regBits rd ++ regBits ra ++ regBits rb ++ 0#7 ++ n
  | .cGetlr rd re => 0x55#8 ++ regBits rd ++ 0#4 ++ regBits re ++ 0#12

/-- The data word of a command: the value of `BV.NEW`, and 0 for every other command, as the spec's listings
write it (R96, R101; log entry 4). -/
def encodeData : Instr → DataWord
  | .bvNew _ _ value => value
  | .bvRead .. | .bvGet .. | .bvSet .. | .bvRange .. | .bvSplit .. | .bvConcat .. | .bvRotl .. | .bvPerm ..
  | .bvDot .. | .bvXor .. | .tblClr | .tblPush .. | .ksLoad .. | .ksStep | .ksDerive .. | .ksGetk ..
  | .ksGetcd .. | .rfSbox .. | .rfF .. | .rfSb .. | .cInit .. | .cRound | .cFinal .. | .cEnck ..
  | .cEncrypt .. | .cGetlr .. => 0

/-- The pair (CW, DW) of a command (R90). -/
def encode (i : Instr) : CmdWord × DataWord := (encodeWord i, encodeData i)

/-- The command word in bits 31:0 of an instruction numbered as the opcode table numbers it, with every bit
above `nbits` zero (log entry 3). -/
def tableCmdWord (nbits w : Nat) : CmdWord := BitVec.ofNat 32 (w % 2 ^ nbits)

/-- The data word in bits 95:32 of such an instruction: 0 for a row of the table, whose 32 bits are CW. -/
def tableDataWord (nbits w : Nat) : DataWord := BitVec.ofNat 64 ((w % 2 ^ nbits) >>> 32)

/-- What the decoder reads from an instruction whose bits are `w`. -/
def decodeTableWord (nbits w : Nat) : Option Instr :=
  (decode (tableCmdWord nbits w) (tableDataWord nbits w)).toOption

end Sys2Proof
end

