-- ==== Sys2Proof/Config.lean ====
section
/-! DEFINITION. The implementation parameters of the Morningstar engine (00_scope.md R7, R8). Every one is
fixed by the spec; the model takes none as an argument, and no value of the machine is left open (R274), so
no opaque constant stands here. The one open parameter, CMD_LATENCY, is used by no rule and is not modelled
(log entry 11). -/

namespace Sys2Proof.Config

/-- WMAX: the widest bit vector, the width of the backing integer (R7). -/
@[simp] abbrev maxWidth : Nat := 64

/-- BLOCK and KEYW: the width of a plaintext, a ciphertext and a master key (R7). -/
@[simp] abbrev blockWidth : Nat := 64

/-- CDW / 2: the width of each half of the key schedule register (R7). -/
@[simp] abbrev keyHalfWidth : Nat := 28

/-- SUBKEYW: the width of a round subkey and of the expanded half (R7). -/
@[simp] abbrev subkeyWidth : Nat := 48

/-- HALFW: the width of a cipher half (R7). -/
@[simp] abbrev halfWidth : Nat := 32

/-- The width of the chunk one substitution table takes (R7, R181). -/
@[simp] abbrev chunkWidth : Nat := 6

/-- MAXROUNDS = SCHEDLEN: the most rounds and the most subkeys (R7, R8, D30). -/
@[simp] abbrev maxRounds : Nat := 16

/-- The most entries the user table holds (R8, D10). -/
@[simp] abbrev maxTable : Nat := 64

end Sys2Proof.Config
end

