-- ==== Sys2Proof/Machine/State.lean ====
section
/-! DEFINITION. The architectural state (10_state.md R20), its reset values (R38), the fault causes
(60_exceptions.md R231) and the outcomes of a step. -/

namespace Sys2Proof.Machine

/-- The ten fault causes (R231). A cause is latched in FCAUSE by its code; it is a next state of the machine,
not a stop (log entry 1). -/
inductive Cause where
  /-- code 1: a value does not fit the width asked for, or the width is not 1 to 64 -/
  | widthViolation
  /-- code 2: a position is outside 1 to the width of the vector it indexes -/
  | indexOutOfRange
  /-- code 3: `range` with from ≥ to, to > width, or from ≤ 0 -/
  | rangeViolation
  /-- code 4: `concat` with combined width above 64 -/
  | concatOverflow
  /-- code 5: `split` with mid < 1 or mid ≥ width -/
  | splitViolation
  /-- code 6: an operand has not the width the operation requires -/
  | widthMismatch
  /-- code 7: a read of a register, CD, L, R or K[i] that holds no value -/
  | emptyRegister
  /-- code 8: the command word is not a legal encoding -/
  | illegalCommand
  /-- code 9: a round count or subkey index outside what the 16-entry schedule allows -/
  | roundCountViolation
  /-- code 10: `TBL.PUSH` on a full user table -/
  | tableOverflow
deriving DecidableEq, Repr

/-- Reasons for a step to stop the machine: NONE. A contract violation latches the fault record and is a next
state (R233), and "no combination of legal commands has an unpredictable or undefined result" (R274), so the
type has no constructor (log entry 17). -/
inductive Fault where
deriving DecidableEq, Repr

/-- Reasons to refuse an instruction. -/
inductive Refusal where
  /-- Raised by an arm of `exec` for an instruction without a meaning: no arm of this model does. Safe: a
  refusal proves nothing about the hardware. -/
  | notModelled (mnemonic : String)
deriving DecidableEq, Repr

/-- What the host does to MSE: "a list whose elements are either a command (CW, DW) or a RESET" (R14, R270). -/
inductive HostEvent where
  /-- the host presents the command (CW, DW) -/
  | command (cw : CmdWord) (dw : DataWord)
  /-- the host asserts RESET -/
  | reset
deriving DecidableEq, Repr

/-- The state of MSE, one field per element of R20, and the host events not yet accepted. -/
structure State where
  /-- V[0..15]: `none` is Empty (R22, R23) -/
  v : Vector (Option BV) 16
  /-- CD, the key schedule register C‖D: `none` is Empty (R32) -/
  cd : Option BV
  /-- K[1..KN], the subkeys in order; KN is its length (R33, log entry 6) -/
  k : List BV
  /-- L, the left half (R34) -/
  l : Option BV
  /-- R, the right half (R34) -/
  r : Option BV
  /-- RN, the rounds applied since the last `C.INIT` (R30, R34) -/
  rn : Nat
  /-- UT[1..UTLEN], the user table; UTLEN is its length (R35, log entry 6) -/
  ut : List Imm
  /-- OUTV, the value port (R31) -/
  outV : BitVec 64
  /-- OUTW, the width port (R31) -/
  outW : BitVec 7
  /-- FAULT: a command has faulted since reset (R29) -/
  fault : Bool
  /-- FCAUSE, the cause code (R29, R231) -/
  fcause : BitVec 4
  /-- FCMD, the command word that faulted (R29) -/
  fcmd : CmdWord
  /-- The model's own field: what the host still does, first event first (R14, R270, log entry 2). -/
  input : List HostEvent
deriving DecidableEq, Repr

/-- The state after RESET (R38), with nothing presented yet (log entry 3). -/
def State.reset : State where
  v := Vector.replicate 16 none
  cd := none
  k := []
  l := none
  r := none
  rn := 0
  ut := []
  outV := 0
  outW := 0
  fault := false
  fcause := 0
  fcmd := 0
  input := []

/-- KN, the number of subkeys held (R30, R33). -/
def State.kn (s : State) : Nat := s.k.length

/-- UTLEN, the number of entries of the user table (R30, R35). -/
def State.utlen (s : State) : Nat := s.ut.length

/-- The outcome of a command. -/
abbrev Result := Host.Outcome State Fault Refusal

end Sys2Proof.Machine
end

