-- ==== Sys2Proof/Machine/BitVector.lean ====
section
/-! DEFINITION. The ten pure functions of the bit-vector unit (40_bitvector.md R120 to R130). Each returns a
value or raises one named cause; the checks stand in the order the rule lists them. All arithmetic is on
natural numbers, so no shift is bounded to 64 bits (00_scope.md R12). -/

namespace Sys2Proof.Machine

/-- A value, or the cause a pure function or a check raises (R120). -/
abbrev Checked (α : Type) := Except Cause α

/-- `mask(w)` (R12). -/
def mask (w : Nat) : Nat := 2 ^ w - 1

/-- `construct(value, width)` (R121). -/
def construct (value width : Nat) : Checked BV :=
  if width < 1 ∨ width > Config.maxWidth then .error .widthViolation
  else if value ≥ 2 ^ width then .error .widthViolation
  else .ok ⟨width, value⟩

/-- The bit at position `pos` as the integer 0 or 1, where `1 ≤ pos ≤ x.w`: the body of `get` (R10, R122). -/
def bitOf (x : BV) (pos : Nat) : Nat := (x.v >>> (x.w - pos)) &&& 1

/-- `get(x, pos)` (R122). -/
def getBit (x : BV) (pos : Nat) : Checked Nat :=
  if pos < 1 ∨ pos > x.w then .error .indexOutOfRange else .ok (bitOf x pos)

/-- `set(x, pos, b)` (R123). -/
def setBit (x : BV) (pos b : Nat) : Checked BV :=
  if pos < 1 ∨ pos > x.w then .error .indexOutOfRange
  else
    let m := 1 <<< (x.w - pos)
    .ok ⟨x.w, x.v - bitOf x pos * m + b * m⟩

/-- `range(x, from, to)` (R124). A one-bit range does not exist: `from ≥ to` fails (93 U11). -/
def range (x : BV) (first last : Nat) : Checked BV :=
  if first ≥ last then .error .rangeViolation
  else if last > x.w then .error .rangeViolation
  else if first = 0 then .error .rangeViolation
  else
    let n := last - first + 1
    .ok ⟨n, (x.v >>> (x.w - last)) &&& mask n⟩

/-- `split(x, mid)`: the high `mid` positions and the rest (R125, conflict C5). -/
def split (x : BV) (mid : Nat) : Checked (BV × BV) :=
  if mid < 1 ∨ mid ≥ x.w then .error .splitViolation
  else .ok (⟨mid, x.v >>> (x.w - mid)⟩, ⟨x.w - mid, x.v &&& mask (x.w - mid)⟩)

/-- `concat(a, b)`, `a` in the high positions (R126). -/
def concat (a b : BV) : Checked BV :=
  if a.w + b.w > Config.maxWidth then .error .concatOverflow else .ok ⟨a.w + b.w, (a.v <<< b.w) ||| b.v⟩

/-- `rotl(x, n)`, within the vector's own width; the amount is reduced modulo it (R127). Never raises. -/
def rotl (x : BV) (n : Nat) : BV :=
  let k := n % x.w
  ⟨x.w, ((x.v <<< k) ||| (x.v >>> (x.w - k))) &&& mask x.w⟩

/-- The sum of R128, entry by entry: the bit of entry i of M goes to bit index M - i. The bound check of each
entry is `get`'s, in order (93 U2). -/
def gather (x : BV) : List Nat → Checked Nat
  | [] => .ok 0
  | p :: t => do
    let b ← getBit x p
    let rest ← gather x t
    .ok ((b <<< t.length) + rest)

/-- `permute(x, t)`: position i of the result is position `t[i]` of `x` (R128, 20_memory.md R53). -/
def permute (x : BV) (t : List Nat) : Checked BV :=
  if t.length < 1 ∨ t.length > Config.maxWidth then .error .widthViolation
  else do
    let v ← gather x t
    .ok ⟨t.length, v⟩

/-- The 1 bits among the lowest `k` bits of `n`. -/
def onesBelow : Nat → Nat → Nat
  | 0, _ => 0
  | k + 1, n => n % 2 + onesBelow k (n / 2)

/-- `popcount(n)`: the number of 1 bits (R12). -/
def popcount (n : Nat) : Nat := onesBelow (n.log2 + 1) n

/-- `dot(a, b)`: parity of the bitwise and, 0 or 1 (R129). -/
def dot (a b : BV) : Checked Nat :=
  if a.w ≠ b.w then .error .widthMismatch else .ok (popcount (a.v &&& b.v) % 2)

/-- `xor(a, b)` (R130). -/
def xorBV (a b : BV) : Checked BV :=
  if a.w ≠ b.w then .error .widthMismatch else .ok ⟨a.w, a.v ^^^ b.v⟩

end Sys2Proof.Machine
end

