-- ==== Sys2Proof/Machine/Flags.lean ====
section
/-! DEFINITION. The status of the machine. MSE has no condition flags (10_state.md R28): the only status bit is
FAULT. Here stand the codes FCAUSE takes (60_exceptions.md R231) and the output ports as the host sees them, each
at its width (10_state.md R29, R30, R31; 20_memory.md R71). -/

namespace Sys2Proof.Machine

/-- The code latched in FCAUSE (R231); 0 is no fault, and 11 to 15 are never latched. -/
def Cause.code : Cause → BitVec 4
  | .widthViolation => 1
  | .indexOutOfRange => 2
  | .rangeViolation => 3
  | .concatOverflow => 4
  | .splitViolation => 5
  | .widthMismatch => 6
  | .emptyRegister => 7
  | .illegalCommand => 8
  | .roundCountViolation => 9
  | .tableOverflow => 10

/-- The output ports, always driven (10_state.md section 5). -/
structure Ports where
  outV : BitVec 64
  outW : BitVec 7
  fault : BitVec 1
  fcause : BitVec 4
  fcmd : BitVec 32
  kn : BitVec 5
  rn : BitVec 5
  utlen : BitVec 7
deriving DecidableEq, Repr

/-- What the host observes; observing has no side effect (R29 to R31, 20_memory.md R73). -/
def State.ports (s : State) : Ports where
  outV := s.outV
  outW := s.outW
  fault := BitVec.ofBool s.fault
  fcause := s.fcause
  fcmd := s.fcmd
  kn := BitVec.ofNat 5 s.kn
  rn := BitVec.ofNat 5 s.rn
  utlen := BitVec.ofNat 7 s.utlen

/-- The eight bytes of a 64-bit value where a host stores it as bytes: byte 0 holds positions 1 to 8 (R71). No
command moves a byte. -/
def bytesOf (value : DataWord) : List (BitVec 8) :=
  (List.range 8).map fun i => value.extractLsb' (8 * (7 - i)) 8

end Sys2Proof.Machine
end

