-- ==== Sys2Proof/Machine/Ops.lean ====
section
/-! DEFINITION. The shared operations: writing a register, taking a fault (60_exceptions.md R233), the way out
of one (R238), and how a command ends (00_scope.md R13). -/

namespace Sys2Proof.Machine

/-- `V[i] <- x`: width and value both replaced (10_state.md R24). -/
def State.writeV (s : State) (i : VReg) (x : BV) : State := { s with v := s.v.set i.val (some x) i.isLt }

/-- FAULT ENTRY: `FAULT <- 1; FCAUSE <- code of c; FCMD <- CW`, and nothing else (R233). -/
def State.takeFault (s : State) (c : Cause) (cw : CmdWord) : State :=
  { s with fault := true, fcause := c.code, fcmd := cw }

/-- THE RETURN FROM A FAULT: RESET is the only one (R238). Every element takes its reset value (R38, R270); the
host's further events are not MSE's to discard. -/
def State.resetByHost (s : State) : State := { State.reset with input := s.input }

/-- `raise c` unless `p` (R12). -/
def require (p : Prop) [Decidable p] (c : Cause) : Checked Unit := if p then .ok () else .error c

/-- How the command `i` ends in `s`: complete, with what its rule writes, or with the fault latched and nothing
of its own written (R13, R233). FCMD takes the command's own word (log entry 5). -/
def conclude (i : Instr) (s : State) (result : Checked State) : Result :=
  match result with
  | .ok t => .next t
  | .error c => .next (s.takeFault c (encodeWord i))

/-- `n` times `f`, in order, ending at the first cause raised: the loops of the macro commands (R212). -/
def repeatTimes (f : State → Checked State) : Nat → State → Checked State
  | 0, s => .ok s
  | n + 1, s => do
    let t ← f s
    repeatTimes f n t

end Sys2Proof.Machine
end

