-- ==== Sys2Proof/Machine/Tables.lean ====
section
/-! DEFINITION. The constant tables of 20_memory.md: the six permutation tables, the shift schedule and the
eight substitution tables (R51 to R69). They are constants of the step function, not state (R20, R51, R271).
UNVERIFIED: the spec gives their contents from general knowledge, not from its source (log entry 7). -/

namespace Sys2Proof.Machine

/-- Table IP, id 0: the initial permutation; entry i is the source position of output position i (R54). -/
def tableIP : List Nat :=
  [58, 50, 42, 34, 26, 18, 10, 2] ++
  [60, 52, 44, 36, 28, 20, 12, 4] ++
  [62, 54, 46, 38, 30, 22, 14, 6] ++
  [64, 56, 48, 40, 32, 24, 16, 8] ++
  [57, 49, 41, 33, 25, 17, 9, 1] ++
  [59, 51, 43, 35, 27, 19, 11, 3] ++
  [61, 53, 45, 37, 29, 21, 13, 5] ++
  [63, 55, 47, 39, 31, 23, 15, 7]

/-- Table FP, id 1: the final permutation, the inverse of IP (R55). -/
def tableFP : List Nat :=
  [40, 8, 48, 16, 56, 24, 64, 32] ++
  [39, 7, 47, 15, 55, 23, 63, 31] ++
  [38, 6, 46, 14, 54, 22, 62, 30] ++
  [37, 5, 45, 13, 53, 21, 61, 29] ++
  [36, 4, 44, 12, 52, 20, 60, 28] ++
  [35, 3, 43, 11, 51, 19, 59, 27] ++
  [34, 2, 42, 10, 50, 18, 58, 26] ++
  [33, 1, 41, 9, 49, 17, 57, 25]

/-- Table E, id 2: the expansion of 32 positions to 48 (R56). -/
def tableE : List Nat :=
  [32, 1, 2, 3, 4, 5] ++
  [4, 5, 6, 7, 8, 9] ++
  [8, 9, 10, 11, 12, 13] ++
  [12, 13, 14, 15, 16, 17] ++
  [16, 17, 18, 19, 20, 21] ++
  [20, 21, 22, 23, 24, 25] ++
  [24, 25, 26, 27, 28, 29] ++
  [28, 29, 30, 31, 32, 1]

/-- Table P, id 3: the round permutation (R57). -/
def tableP : List Nat :=
  [16, 7, 20, 21, 29, 12, 28, 17] ++
  [1, 15, 23, 26, 5, 18, 31, 10] ++
  [2, 8, 24, 14, 32, 27, 3, 9] ++
  [19, 13, 30, 6, 22, 11, 4, 25]

/-- Table PC1, id 4: 56 of the 64 key positions (R58). -/
def tablePC1 : List Nat :=
  [57, 49, 41, 33, 25, 17, 9] ++
  [1, 58, 50, 42, 34, 26, 18] ++
  [10, 2, 59, 51, 43, 35, 27] ++
  [19, 11, 3, 60, 52, 44, 36] ++
  [63, 55, 47, 39, 31, 23, 15] ++
  [7, 62, 54, 46, 38, 30, 22] ++
  [14, 6, 61, 53, 45, 37, 29] ++
  [21, 13, 5, 28, 20, 12, 4]

/-- Table PC2, id 5: 48 of the 56 positions of C‖D (R59). -/
def tablePC2 : List Nat :=
  [14, 17, 11, 24, 1, 5] ++
  [3, 28, 15, 6, 21, 10] ++
  [23, 19, 12, 4, 26, 8] ++
  [16, 7, 27, 20, 13, 2] ++
  [41, 52, 31, 37, 47, 55] ++
  [30, 40, 51, 45, 33, 48] ++
  [44, 49, 39, 56, 34, 53] ++
  [46, 42, 50, 36, 29, 32]

/-- The shift schedule, 16 entries (R60, conflict C1). -/
def shiftSchedule : List Nat :=
  [1, 1, 2, 2, 2, 2, 2, 2] ++
  [1, 2, 2, 2, 2, 2, 2, 1]

/-- `Shift(i)`, the rotation of round i, for i from 1 to 16 (R60). No rule reads it outside that range; there
it reads 0 (log entry 8). -/
def shift (i : Nat) : Nat := if i = 0 then 0 else shiftSchedule.getD (i - 1) 0

/-- Substitution table S1, rows 0 to 3 (R62). -/
def sboxS1 : List (List Nat) :=
  [[14, 4, 13, 1, 2, 15, 11, 8, 3, 10, 6, 12, 5, 9, 0, 7],
   [0, 15, 7, 4, 14, 2, 13, 1, 10, 6, 12, 11, 9, 5, 3, 8],
   [4, 1, 14, 8, 13, 6, 2, 11, 15, 12, 9, 7, 3, 10, 5, 0],
   [15, 12, 8, 2, 4, 9, 1, 7, 5, 11, 3, 14, 10, 0, 6, 13]]

/-- Substitution table S2, rows 0 to 3 (R63). -/
def sboxS2 : List (List Nat) :=
  [[15, 1, 8, 14, 6, 11, 3, 4, 9, 7, 2, 13, 12, 0, 5, 10],
   [3, 13, 4, 7, 15, 2, 8, 14, 12, 0, 1, 10, 6, 9, 11, 5],
   [0, 14, 7, 11, 10, 4, 13, 1, 5, 8, 12, 6, 9, 3, 2, 15],
   [13, 8, 10, 1, 3, 15, 4, 2, 11, 6, 7, 12, 0, 5, 14, 9]]

/-- Substitution table S3, rows 0 to 3 (R64). -/
def sboxS3 : List (List Nat) :=
  [[10, 0, 9, 14, 6, 3, 15, 5, 1, 13, 12, 7, 11, 4, 2, 8],
   [13, 7, 0, 9, 3, 4, 6, 10, 2, 8, 5, 14, 12, 11, 15, 1],
   [13, 6, 4, 9, 8, 15, 3, 0, 11, 1, 2, 12, 5, 10, 14, 7],
   [1, 10, 13, 0, 6, 9, 8, 7, 4, 15, 14, 3, 11, 5, 2, 12]]

/-- Substitution table S4, rows 0 to 3 (R65). -/
def sboxS4 : List (List Nat) :=
  [[7, 13, 14, 3, 0, 6, 9, 10, 1, 2, 8, 5, 11, 12, 4, 15],
   [13, 8, 11, 5, 6, 15, 0, 3, 4, 7, 2, 12, 1, 10, 14, 9],
   [10, 6, 9, 0, 12, 11, 7, 13, 15, 1, 3, 14, 5, 2, 8, 4],
   [3, 15, 0, 6, 10, 1, 13, 8, 9, 4, 5, 11, 12, 7, 2, 14]]

/-- Substitution table S5, rows 0 to 3 (R66). -/
def sboxS5 : List (List Nat) :=
  [[2, 12, 4, 1, 7, 10, 11, 6, 8, 5, 3, 15, 13, 0, 14, 9],
   [14, 11, 2, 12, 4, 7, 13, 1, 5, 0, 15, 10, 3, 9, 8, 6],
   [4, 2, 1, 11, 10, 13, 7, 8, 15, 9, 12, 5, 6, 3, 0, 14],
   [11, 8, 12, 7, 1, 14, 2, 13, 6, 15, 0, 9, 10, 4, 5, 3]]

/-- Substitution table S6, rows 0 to 3 (R67). -/
def sboxS6 : List (List Nat) :=
  [[12, 1, 10, 15, 9, 2, 6, 8, 0, 13, 3, 4, 14, 7, 5, 11],
   [10, 15, 4, 2, 7, 12, 9, 5, 6, 1, 13, 14, 0, 11, 3, 8],
   [9, 14, 15, 5, 2, 8, 12, 3, 7, 0, 4, 10, 1, 13, 11, 6],
   [4, 3, 2, 12, 9, 5, 15, 10, 11, 14, 1, 7, 6, 0, 8, 13]]

/-- Substitution table S7, rows 0 to 3 (R68). -/
def sboxS7 : List (List Nat) :=
  [[4, 11, 2, 14, 15, 0, 8, 13, 3, 12, 9, 7, 5, 10, 6, 1],
   [13, 0, 11, 7, 4, 9, 1, 10, 14, 3, 5, 12, 2, 15, 8, 6],
   [1, 4, 11, 13, 12, 3, 7, 14, 10, 15, 6, 8, 0, 5, 9, 2],
   [6, 11, 13, 8, 1, 4, 10, 7, 9, 5, 0, 15, 14, 2, 3, 12]]

/-- Substitution table S8, rows 0 to 3 (R69). -/
def sboxS8 : List (List Nat) :=
  [[13, 2, 8, 4, 6, 15, 11, 1, 10, 9, 3, 14, 5, 0, 12, 7],
   [1, 15, 13, 8, 10, 3, 7, 4, 12, 5, 6, 11, 0, 14, 9, 2],
   [7, 11, 4, 1, 9, 12, 14, 2, 0, 6, 10, 13, 15, 3, 5, 8],
   [2, 1, 14, 7, 4, 10, 8, 13, 15, 12, 9, 0, 3, 5, 6, 11]]

/-- The eight substitution tables in order (R61). -/
def sboxTables : List (List (List Nat)) := [sboxS1, sboxS2, sboxS3, sboxS4, sboxS5, sboxS6, sboxS7, sboxS8]

/-- `Sbox(j, row, col)` for box 1 to 8, row 0 to 3, column 0 to 15 (R61). No rule reads it outside that range;
there it reads 0 (log entry 8). -/
def sbox (j row col : Nat) : Nat :=
  if j = 0 then 0 else ((sboxTables.getD (j - 1) []).getD row []).getD col 0

/-! ### The facts the source states of the tables (R70)

"a model should prove of its transcription as a guard against a mistyped entry": each clause is a check of the tables
above, by letter, and `tableFacts` is all of them. Laws/Tables.lean proves the checks pass, and what (a) means for
every value. -/

/-- Applying table `s`, then table `t`, puts every position back: entry i of `t` names a position that `s` fills from
position i (R55, R70 a). -/
def restores (s t : List Nat) : Bool :=
  (List.range t.length).all fun i => s.getD (t.getD i 0 - 1) 0 == i + 1

/-- `t` is a map from `n` positions to `m`: `m` entries, each a position 1 to `n` (R53). -/
def mapsPositions (n m : Nat) (t : List Nat) : Bool := t.length == m && t.all fun p => 1 ≤ p && p ≤ n

/-- `t` is a bijection of `n` positions: every position 1 to `n` is an entry, and there are `n` entries (R70 a, b). -/
def isBijection (n : Nat) (t : List Nat) : Bool :=
  mapsPositions n n t && (List.range n).all fun i => t.contains (i + 1)

/-- `t` uses no source position twice (R70 d, e; R58, R59). -/
def selectsOnce (t : List Nat) : Bool := decide t.Nodup

/-- (a) "IP and IP⁻¹ are 64→64 bijections and are exact inverses of each other", in both orders. -/
def inverseTablesFact : Bool :=
  isBijection 64 tableIP && isBijection 64 tableFP && restores tableIP tableFP && restores tableFP tableIP

/-- (b) P is a "32→32 bijection". -/
def roundPermutationFact : Bool := isBijection 32 tableP

/-- (c) E maps 32 to 48 "with repeated source bits". -/
def expansionFact : Bool := mapsPositions 32 48 tableE && !selectsOnce tableE

/-- (d) PC1 maps 64 to 56 "dropping 8 parity-position bits": every position but the multiples of 8. -/
def keyPermutationFact : Bool :=
  mapsPositions 64 56 tablePC1 && selectsOnce tablePC1 && tablePC1.all fun p => p % 8 != 0

/-- (e) PC2 maps 56 to 48 "with selection". -/
def subkeySelectionFact : Bool := mapsPositions 56 48 tablePC2 && selectsOnce tablePC2

/-- (f) every shift amount of the 16 rounds is "1 or 2". -/
def shiftFact : Bool := (List.range 16).all fun i => shift (i + 1) == 1 || shift (i + 1) == 2

/-- (g) every entry of the 8 × 4 × 16 substitution tables "is a 4-bit value". -/
def substitutionFact : Bool :=
  (List.range 8).all fun j => (List.range 4).all fun row => (List.range 16).all fun col => sbox (j + 1) row col < 16

/-- R70 (a) to (g). The checks cannot tell the two readings of `permute` apart, "the known-answer vectors can"
(R70): the reading is `permute`'s (R128), and the vectors are among the tests and the statements. -/
def tableFacts : Bool :=
  inverseTablesFact && roundPermutationFact && expansionFact && keyPermutationFact && subkeySelectionFact && shiftFact
    && substitutionFact

end Sys2Proof.Machine
end

