-- ==== Sys2Proof/Machine/Operands.lean ====
section
/-! DEFINITION. Every operand form: source registers, the implicit state CD, L, R and K[i], the tables a table
id names, and the width an operand must have (00_scope.md R12; 20_memory.md R50, R52; 92 D29). -/

namespace Sys2Proof.Machine

/-- An element that may be Empty, read: Empty raises `EmptyRegister` (10_state.md R23). -/
def present (x : Option BV) : Checked BV :=
  match x with
  | some y => .ok y
  | none => .error .emptyRegister

/-- `V[i]` (R12, R23). -/
def State.readV (s : State) (i : VReg) : Checked BV := present (s.v.get i)

/-- `CD` (R12, R32). -/
def State.readCD (s : State) : Checked BV := present s.cd

/-- `L, R`, which are read together (R12, R34). -/
def State.readLR (s : State) : Checked (BV × BV) := do
  let l ← present s.l
  let r ← present s.r
  .ok (l, r)

/-- `K[i]`, i from 1: with i > KN it holds nothing (R12, R33). -/
def subkey (k : List BV) (i : Nat) : Checked BV := if i = 0 then .error .emptyRegister else present k[i - 1]?

/-- `Tbl(tid)` (20_memory.md R52): ids 0 to 5 the constant tables, 6 the user table, and an id above 6 is
`IllegalCommand`. -/
def State.table (s : State) (tid : Imm) : Checked (List Nat) :=
  match tid.toNat with
  | 0 => .ok tableIP
  | 1 => .ok tableFP
  | 2 => .ok tableE
  | 3 => .ok tableP
  | 4 => .ok tablePC1
  | 5 => .ok tablePC2
  | 6 => .ok (s.ut.map BitVec.toNat)
  | _ => .error .illegalCommand

/-- The operand's width must be `w` (92 D29). -/
def hasWidth (x : BV) (w : Nat) : Checked Unit := require (x.w = w) .widthMismatch

end Sys2Proof.Machine
end

