-- ==== Sys2Proof/Machine/BvCommands.lean ====
section
/-! DEFINITION. The eleven BV commands (40_bitvector.md R131 to R141). Sources are read before anything is
written, in the order `ra`, then `rb` (60_exceptions.md R235). -/

namespace Sys2Proof.Machine

/-- `BV.NEW Vd, w ; value` (R131). -/
def execBvNew (rd : VReg) (w : Imm) (value : DataWord) (s : State) : Result :=
  conclude (.bvNew rd w value) s do
    let x ← construct value.toNat w.toNat
    .ok (s.writeV rd x)

/-- `BV.READ Va` (R132). -/
def execBvRead (ra : VReg) (s : State) : Result :=
  conclude (.bvRead ra) s do
    let x ← s.readV ra
    .ok { s with outV := BitVec.ofNat 64 x.v, outW := BitVec.ofNat 7 x.w }

/-- `BV.GET Vd, Va, pos` (R133). -/
def execBvGet (rd ra : VReg) (pos : Imm) (s : State) : Result :=
  conclude (.bvGet rd ra pos) s do
    let x ← s.readV ra
    let b ← getBit x pos.toNat
    .ok (s.writeV rd ⟨1, b⟩)

/-- `BV.SET Vd, Va, pos, b` (R134). -/
def execBvSet (rd ra : VReg) (pos : Imm) (b : BitVec 1) (s : State) : Result :=
  conclude (.bvSet rd ra pos b) s do
    let x ← s.readV ra
    let y ← setBit x pos.toNat b.toNat
    .ok (s.writeV rd y)

/-- `BV.RANGE Vd, Va, from, to` (R135). -/
def execBvRange (rd ra : VReg) (first last : Imm) (s : State) : Result :=
  conclude (.bvRange rd ra first last) s do
    let x ← s.readV ra
    let y ← range x first.toNat last.toNat
    .ok (s.writeV rd y)

/-- `BV.SPLIT Vd, Ve, Va, mid` (R136). `rd = re` is `IllegalCommand` before anything is read (R235, log entry 9). -/
def execBvSplit (rd re ra : VReg) (mid : Imm) (s : State) : Result :=
  conclude (.bvSplit rd re ra mid) s do
    require (rd ≠ re) .illegalCommand
    let x ← s.readV ra
    let (hi, lo) ← split x mid.toNat
    .ok ((s.writeV rd hi).writeV re lo)

/-- `BV.CONCAT Vd, Va, Vb` (R137). -/
def execBvConcat (rd ra rb : VReg) (s : State) : Result :=
  conclude (.bvConcat rd ra rb) s do
    let a ← s.readV ra
    let b ← s.readV rb
    let y ← concat a b
    .ok (s.writeV rd y)

/-- `BV.ROTL Vd, Va, n` (R138). -/
def execBvRotl (rd ra : VReg) (n : Imm) (s : State) : Result :=
  conclude (.bvRotl rd ra n) s do
    let x ← s.readV ra
    .ok (s.writeV rd (rotl x n.toNat))

/-- `BV.PERM Vd, Va, tid` (R139). An id above 6 is `IllegalCommand` before the source is read (R235). -/
def execBvPerm (rd ra : VReg) (tid : Imm) (s : State) : Result :=
  conclude (.bvPerm rd ra tid) s do
    let t ← s.table tid
    let x ← s.readV ra
    let y ← permute x t
    .ok (s.writeV rd y)

/-- `BV.DOT Vd, Va, Vb` (R140). -/
def execBvDot (rd ra rb : VReg) (s : State) : Result :=
  conclude (.bvDot rd ra rb) s do
    let a ← s.readV ra
    let b ← s.readV rb
    let d ← dot a b
    .ok (s.writeV rd ⟨1, d⟩)

/-- `BV.XOR Vd, Va, Vb` (R141). -/
def execBvXor (rd ra rb : VReg) (s : State) : Result :=
  conclude (.bvXor rd ra rb) s do
    let a ← s.readV ra
    let b ← s.readV rb
    let y ← xorBV a b
    .ok (s.writeV rd y)

end Sys2Proof.Machine
end

