-- ==== Sys2Proof/Machine/KeySchedule.lean ====
section
/-! DEFINITION. The key schedule (42_keyschedule.md): its pure functions (R160) and the KS commands (R161 to
R165). The subkey is taken after the round's rotation, the halves rotate independently, and each shift is
cumulative on the evolving register (R160). -/

namespace Sys2Proof.Machine

/-- `ks_load(key)`: the PC1 stage (R160). -/
def ksLoad (key : BV) : Checked BV := permute key tablePC1

/-- `ks_next(cd, i)`: the register after round i's rotation, and the subkey of round i (R160). -/
def ksNext (cd : BV) (i : Nat) : Checked (BV × BV) := do
  let (c, d) ← split cd Config.keyHalfWidth
  let cd' ← concat (rotl c (shift i)) (rotl d (shift i))
  let k ← permute cd' tablePC2
  .ok (cd', k)

/-- `n` iterations of `derive` from round i on, the subkeys in order (R160). -/
def deriveFrom : Nat → Nat → BV → Checked (List BV)
  | 0, _, _ => .ok []
  | n + 1, i, cd => do
    let (cd', k) ← ksNext cd i
    let rest ← deriveFrom n (i + 1) cd'
    .ok (k :: rest)

/-- `derive(key, n)`: the subkeys of rounds 1 to n (R160). -/
def derive (key : BV) (n : Nat) : Checked (List BV) := do
  let cd ← ksLoad key
  deriveFrom n 1 cd

/-- `CD <- ks_load(key); KN <- 0` (R161). -/
def State.loadKey (s : State) (key : BV) : Checked State := do
  let cd ← ksLoad key
  .ok { s with cd := some cd, k := [] }

/-- `i = KN + 1; (CD, K[i]) <- ks_next(CD, i); KN <- i` (R162). -/
def State.scheduleStep (s : State) : Checked State := do
  let cd ← s.readCD
  let (cd', k) ← ksNext cd (s.kn + 1)
  .ok { s with cd := some cd', k := s.k ++ [k] }

/-- The body of `KS.DERIVE`, step 1 of `C.ENCRYPT` (R163, R206). -/
def State.deriveKeys (s : State) (key : BV) (n : Nat) : Checked State := do
  let t ← s.loadKey key
  repeatTimes State.scheduleStep n t

/-- `KS.LOAD Va` (R161). -/
def execKsLoad (ra : VReg) (s : State) : Result :=
  conclude (.ksLoad ra) s do
    let key ← s.readV ra
    hasWidth key Config.blockWidth
    s.loadKey key

/-- `KS.STEP` (R162). -/
def execKsStep (s : State) : Result :=
  conclude .ksStep s do
    let _ ← s.readCD
    require (s.kn < Config.maxRounds) .roundCountViolation
    s.scheduleStep

/-- `KS.DERIVE Va, n` (R163). -/
def execKsDerive (ra : VReg) (n : Count) (s : State) : Result :=
  conclude (.ksDerive ra n) s do
    let key ← s.readV ra
    hasWidth key Config.blockWidth
    require (n.toNat ≤ Config.maxRounds) .roundCountViolation
    s.deriveKeys key n.toNat

/-- `KS.GETK Vd, i` (R164): the index's range is checked before KN. -/
def execKsGetk (rd : VReg) (i : Count) (s : State) : Result :=
  conclude (.ksGetk rd i) s do
    require (1 ≤ i.toNat ∧ i.toNat ≤ Config.maxRounds) .roundCountViolation
    let x ← subkey s.k i.toNat
    .ok (s.writeV rd x)

/-- `KS.GETCD Vd` (R165). -/
def execKsGetcd (rd : VReg) (s : State) : Result :=
  conclude (.ksGetcd rd) s do
    let x ← s.readCD
    .ok (s.writeV rd x)

end Sys2Proof.Machine
end

