-- ==== Sys2Proof/Machine/RoundFunction.lean ====
section
/-! DEFINITION. The substitution network and the round function (43_roundfunction.md): the pure functions
(R181 to R183) and the RF commands (R184 to R186). -/

namespace Sys2Proof.Machine

/-- `sbox6(c, j)`: row = 2 × first bit + last bit, column = the middle four (R181). -/
def sbox6 (c : BV) (j : Nat) : Checked BV := do
  let first ← getBit c 1
  let last ← getBit c 6
  let col ← range c 2 5
  .ok ⟨4, sbox j (2 * first + last) col.v⟩

/-- Chunk j of a 48-bit value, positions 6(j-1)+1 to 6j, through table j (R182). -/
def sboxChunk (x : BV) (j : Nat) : Checked BV := do
  let c ← range x (6 * (j - 1) + 1) (6 * j)
  sbox6 c j

/-- The outputs of the last `n + 1` chunks, concatenated in order (R182). -/
def sboxLast (x : BV) : Nat → Checked BV
  | 0 => sboxChunk x 8
  | n + 1 => do
    let o ← sboxChunk x (7 - n)
    let rest ← sboxLast x n
    concat o rest

/-- `sbox48(x)`: the eight chunks, o_1 in the most significant positions (R182). -/
def sbox48 (x : BV) : Checked BV := sboxLast x 7

/-- `f(r, k)`: expansion, key mixing, substitution, round permutation (R183). -/
def roundF (r k : BV) : Checked BV := do
  let e ← permute r tableE
  let m ← xorBV e k
  let t ← sbox48 m
  permute t tableP

/-- `RF.SBOX Vd, Va` (R185). -/
def execRfSbox (rd ra : VReg) (s : State) : Result :=
  conclude (.rfSbox rd ra) s do
    let x ← s.readV ra
    hasWidth x Config.subkeyWidth
    let y ← sbox48 x
    .ok (s.writeV rd y)

/-- `RF.F Vd, Va, Vb` (R186). -/
def execRfF (rd ra rb : VReg) (s : State) : Result :=
  conclude (.rfF rd ra rb) s do
    let r ← s.readV ra
    let k ← s.readV rb
    hasWidth r Config.halfWidth
    hasWidth k Config.subkeyWidth
    let y ← roundF r k
    .ok (s.writeV rd y)

/-- `RF.SB Vd, Va, j` (R184). -/
def execRfSb (rd ra : VReg) (j : Imm) (s : State) : Result :=
  conclude (.rfSb rd ra j) s do
    require (1 ≤ j.toNat ∧ j.toNat ≤ 8) .illegalCommand
    let c ← s.readV ra
    hasWidth c Config.chunkWidth
    let y ← sbox6 c j.toNat
    .ok (s.writeV rd y)

end Sys2Proof.Machine
end

