-- ==== Sys2Proof/Machine/Cipher.lean ====
section
/-! DEFINITION. The cipher pipeline (44_cipher.md): the pure functions (R200) and the C commands (R202 to R206,
R208). The swap happens in every round; `c_final` undoes the last by taking the halves right first (R201). -/

namespace Sys2Proof.Machine

/-- `c_init(p)` (R200). -/
def cInit (p : BV) : Checked (BV × BV) := do
  let y ← permute p tableIP
  split y Config.halfWidth

/-- `c_round(l, r, k)`: new left = old right, new right = old left xor f (R200, R201). -/
def cRound (l r k : BV) : Checked (BV × BV) := do
  let m ← roundF r k
  let r' ← xorBV l m
  .ok (r, r')

/-- `c_final(l, r)`: right first (R200). -/
def cFinal (l r : BV) : Checked BV := do
  let y ← concat r l
  permute y tableFP

/-- `n` rounds from round i on, round i with subkey i (R200, R201). -/
def roundsFrom (ks : List BV) : Nat → Nat → BV × BV → Checked (BV × BV)
  | 0, _, lr => .ok lr
  | n + 1, i, lr => do
    let k ← subkey ks i
    let lr' ← cRound lr.1 lr.2 k
    roundsFrom ks n (i + 1) lr'

/-- `enck(p, ks, n)` (R200). -/
def enck (p : BV) (ks : List BV) (n : Nat) : Checked BV := do
  let lr ← cInit p
  let (l, r) ← roundsFrom ks n 1 lr
  cFinal l r

/-- `encrypt(p, key, n)` (R200). -/
def encrypt (p key : BV) (n : Nat) : Checked BV := do
  let ks ← derive key n
  enck p ks n

/-- `(L, R) <- c_init(p); RN <- 0` (R202). -/
def State.initHalves (s : State) (p : BV) : Checked State := do
  let (l, r) ← cInit p
  .ok { s with l := some l, r := some r, rn := 0 }

/-- `i = RN + 1; (L, R) <- c_round(L, R, K[i]); RN <- i` (R203). -/
def State.roundStep (s : State) : Checked State := do
  let (l, r) ← s.readLR
  let k ← subkey s.k (s.rn + 1)
  let (l', r') ← cRound l r k
  .ok { s with l := some l', r := some r', rn := s.rn + 1 }

/-- `V[rd] <- c_final(L, R)` (R204). -/
def State.finalInto (s : State) (rd : VReg) : Checked State := do
  let (l, r) ← s.readLR
  let y ← cFinal l r
  .ok (s.writeV rd y)

/-- The body of `C.ENCK`, steps 2 to 5 of `C.ENCRYPT` (R205, R206). -/
def State.encryptStored (s : State) (rd : VReg) (p : BV) (n : Nat) : Checked State := do
  let t ← s.initHalves p
  let u ← repeatTimes State.roundStep n t
  u.finalInto rd

/-- `C.INIT Va` (R202). -/
def execCInit (ra : VReg) (s : State) : Result :=
  conclude (.cInit ra) s do
    let p ← s.readV ra
    hasWidth p Config.blockWidth
    s.initHalves p

/-- `C.ROUND` (R203). -/
def execCRound (s : State) : Result :=
  conclude .cRound s do
    let _ ← s.readLR
    require (s.rn < Config.maxRounds) .roundCountViolation
    require (s.rn + 1 ≤ s.kn) .emptyRegister
    s.roundStep

/-- `C.FINAL Vd` (R204): L, R and RN stay. -/
def execCFinal (rd : VReg) (s : State) : Result :=
  conclude (.cFinal rd) s (s.finalInto rd)

/-- `C.ENCK Vd, Va, n` (R205). -/
def execCEnck (rd ra : VReg) (n : Count) (s : State) : Result :=
  conclude (.cEnck rd ra n) s do
    let p ← s.readV ra
    hasWidth p Config.blockWidth
    require (n.toNat ≤ Config.maxRounds) .roundCountViolation
    require (n.toNat ≤ s.kn) .emptyRegister
    s.encryptStored rd p n.toNat

/-- `C.ENCRYPT Vd, Va, Vb, n` (R206). -/
def execCEncrypt (rd ra rb : VReg) (n : Count) (s : State) : Result :=
  conclude (.cEncrypt rd ra rb n) s do
    let p ← s.readV ra
    let key ← s.readV rb
    hasWidth p Config.blockWidth
    hasWidth key Config.blockWidth
    require (n.toNat ≤ Config.maxRounds) .roundCountViolation
    let t ← s.deriveKeys key n.toNat
    t.encryptStored rd p n.toNat

/-- `C.GETLR Vd, Ve` (R208). `rd = re` is `IllegalCommand` before anything is read (R235, log entry 9). -/
def execCGetlr (rd re : VReg) (s : State) : Result :=
  conclude (.cGetlr rd re) s do
    require (rd ≠ re) .illegalCommand
    let (l, r) ← s.readLR
    .ok ((s.writeV rd l).writeV re r)

end Sys2Proof.Machine
end

