-- ==== Sys2Proof/Machine/TblCommands.lean ====
section
/-! DEFINITION. The two commands that write the user table (41_tables.md R150 to R152). -/

namespace Sys2Proof.Machine

/-- `TBL.CLR` (R151): the only command that can never fault (60_exceptions.md R232). -/
def execTblClr (s : State) : Result :=
  conclude .tblClr s (.ok { s with ut := [] })

/-- `TBL.PUSH e` (R152): the entry is stored unchecked, after the others. -/
def execTblPush (e : Imm) (s : State) : Result :=
  conclude (.tblPush e) s do
    require (s.utlen < Config.maxTable) .tableOverflow
    .ok { s with ut := s.ut ++ [e] }

end Sys2Proof.Machine
end

