-- ==== Sys2Proof/Machine/Dispatch.lean ====
section
/-! DEFINITION. One arm per command: the meaning of each (30_encoding.md R97). -/

namespace Sys2Proof.Machine

-- The command unit, given a decoded command (R14). It is presented with one while FAULT = 0 (R234, log entry 10).
def exec (i : Instr) (s : State) : Host.Outcome State Fault Refusal :=
  match i with
  | .bvNew rd w value => Sys2Proof.Machine.execBvNew rd w value s
  | .bvRead ra => Sys2Proof.Machine.execBvRead ra s
  | .bvGet rd ra pos => Sys2Proof.Machine.execBvGet rd ra pos s
  | .bvSet rd ra pos b => Sys2Proof.Machine.execBvSet rd ra pos b s
  | .bvRange rd ra first last => Sys2Proof.Machine.execBvRange rd ra first last s
  | .bvSplit rd re ra mid => Sys2Proof.Machine.execBvSplit rd re ra mid s
  | .bvConcat rd ra rb => Sys2Proof.Machine.execBvConcat rd ra rb s
  | .bvRotl rd ra n => Sys2Proof.Machine.execBvRotl rd ra n s
  | .bvPerm rd ra tid => Sys2Proof.Machine.execBvPerm rd ra tid s
  | .bvDot rd ra rb => Sys2Proof.Machine.execBvDot rd ra rb s
  | .bvXor rd ra rb => Sys2Proof.Machine.execBvXor rd ra rb s
  | .tblClr => Sys2Proof.Machine.execTblClr s
  | .tblPush e => Sys2Proof.Machine.execTblPush e s
  | .ksLoad ra => Sys2Proof.Machine.execKsLoad ra s
  | .ksStep => Sys2Proof.Machine.execKsStep s
  | .ksDerive ra n => Sys2Proof.Machine.execKsDerive ra n s
  | .ksGetk rd idx => Sys2Proof.Machine.execKsGetk rd idx s
  | .ksGetcd rd => Sys2Proof.Machine.execKsGetcd rd s
  | .rfSbox rd ra => Sys2Proof.Machine.execRfSbox rd ra s
  | .rfF rd ra rb => Sys2Proof.Machine.execRfF rd ra rb s
  | .rfSb rd ra j => Sys2Proof.Machine.execRfSb rd ra j s
  | .cInit ra => Sys2Proof.Machine.execCInit ra s
  | .cRound => Sys2Proof.Machine.execCRound s
  | .cFinal rd => Sys2Proof.Machine.execCFinal rd s
  | .cEnck rd ra n => Sys2Proof.Machine.execCEnck rd ra n s
  | .cEncrypt rd ra rb n => Sys2Proof.Machine.execCEncrypt rd ra rb n s
  | .cGetlr rd re => Sys2Proof.Machine.execCGetlr rd re s

end Sys2Proof.Machine
end

