-- ==== Sys2Proof/Machine/Present.lean ====
section
/-! DEFINITION. What MSE does with the next thing the host does (00_scope.md R14, 70_reset_and_hazards.md R270):
accept a command, in the order of checks of 60_exceptions.md R235, or RESET. -/

namespace Sys2Proof.Machine

/-- A command (CW, DW) presented to MSE. 1. While FAULT = 1 it is ignored and its step is the identity (R234).
2. An illegal word raises `IllegalCommand` (R98, R99). Then the command runs, with the checks of its rule (R235). -/
def acceptCommand (cw : CmdWord) (dw : DataWord) (s : State) : Result :=
  if s.fault then .next s
  else
    match decode cw dw with
    | .ok i => exec i s
    | .error _ => .next (s.takeFault .illegalCommand cw)

/-- One event of the host. RESET takes effect between commands, in any state (R270). -/
def acceptEvent (e : HostEvent) (s : State) : Result :=
  match e with
  | .command cw dw => acceptCommand cw dw s
  | .reset => .next s.resetByHost

/-- The next event in order, taken off the list and accepted (R76). With none presented, MSE "holds its state
unchanged for any length of time" (R247, log entry 2). -/
def acceptNext (s : State) : Result :=
  match s.input with
  | [] => .next s
  | e :: rest => acceptEvent e { s with input := rest }

end Sys2Proof.Machine
end

