-- ==== Sys2Proof/Machine/Step.lean ====
section
/-! DEFINITION. One step of the machine: the next event of the host (00_scope.md R14). -/

namespace Sys2Proof.Machine

/-- One step. -/
def step (s : State) : Host.Outcome State Fault Refusal := acceptNext s

/-- `s` with the command whose bits are `w` presented next, before whatever the host still does; its data word is
bits 95:32 (log entry 3). -/
def State.withFetchWord (s : State) (nbits w : Nat) : State :=
  { s with input := .command (tableCmdWord nbits w) (tableDataWord nbits w) :: s.input }

end Sys2Proof.Machine
end

