-- ==== Sys2Proof/Machine/Assembler.lean ====
section
/-! DEFINITION. The assembler lines of 30_encoding.md R101 and the two pseudo-instructions of R102, as the token
lists a line is read into (log entry 12). Operands stand in the order destinations, sources, immediates. -/

namespace Sys2Proof.Machine

/-- The mnemonics of R97 and the two pseudo-instructions of R102. -/
inductive Mnemonic where
  | bvNew | bvRead | bvGet | bvSet | bvRange | bvSplit | bvConcat | bvRotl | bvPerm | bvDot | bvXor
  | tblClr | tblPush | ksLoad | ksStep | ksDerive | ksGetk | ksGetcd | rfSbox | rfF | rfSb
  | cInit | cRound | cFinal | cEnck | cEncrypt | cGetlr | cDes | bvExpand
deriving DecidableEq, Repr

/-- The table names `BV.PERM` accepts (R101); `IPINV` is accepted for `FP`. -/
inductive TableName where
  | IP | FP | IPINV | E | P | PC1 | PC2 | USER
deriving DecidableEq, Repr

/-- The table id a name stands for (R52, R101). -/
def TableName.id : TableName → Nat
  | .IP => 0
  | .FP => 1
  | .IPINV => 1
  | .E => 2
  | .P => 3
  | .PC1 => 4
  | .PC2 => 5
  | .USER => 6

/-- An operand: `V0` to `V15`, a number, or a table's name (R101). -/
inductive Arg where
  | reg (r : VReg)
  | num (n : Nat)
  | table (t : TableName)
deriving DecidableEq, Repr

/-- A line: a mnemonic with its operands and, after a semicolon, the data word; or a raw `.word` (R101). -/
inductive AsmLine where
  | op (m : Mnemonic) (args : List Arg) (data : Option DataWord)
  | word (cw : CmdWord)
deriving DecidableEq, Repr

/-- A number placed in a 7-bit field, if it fits. -/
def toImm (n : Nat) : Option Imm := if n < 128 then some (BitVec.ofNat 7 n) else none

/-- A number placed in the 5-bit field, if it fits. -/
def toCount (n : Nat) : Option Count := if n < 32 then some (BitVec.ofNat 5 n) else none

/-- A number placed in the field `b`, if it fits. -/
def toBit (n : Nat) : Option (BitVec 1) := if n < 2 then some (BitVec.ofNat 1 n) else none

/-- The command a mnemonic and its operands stand for (R97, R101), and the expansions `C.DES Vd, Va, Vb` =
`C.ENCRYPT Vd, Va, Vb, 16` and `BV.EXPAND Vd, Va` = `BV.PERM Vd, Va, E` (R102). A data word is written for
`BV.NEW` only, and reads as 0 where it is left out (log entry 12). -/
def assembleOp : Mnemonic → List Arg → Option DataWord → Option Instr
  | .bvNew, [.reg d, .num w], data => do some (.bvNew d (← toImm w) (data.getD 0))
  | .bvRead, [.reg a], none => some (.bvRead a)
  | .bvGet, [.reg d, .reg a, .num p], none => do some (.bvGet d a (← toImm p))
  | .bvSet, [.reg d, .reg a, .num p, .num b], none => do some (.bvSet d a (← toImm p) (← toBit b))
  | .bvRange, [.reg d, .reg a, .num f, .num t], none => do some (.bvRange d a (← toImm f) (← toImm t))
  | .bvSplit, [.reg d, .reg e, .reg a, .num m], none => do some (.bvSplit d e a (← toImm m))
  | .bvConcat, [.reg d, .reg a, .reg b], none => some (.bvConcat d a b)
  | .bvRotl, [.reg d, .reg a, .num n], none => do some (.bvRotl d a (← toImm n))
  | .bvPerm, [.reg d, .reg a, .num t], none => do some (.bvPerm d a (← toImm t))
  | .bvPerm, [.reg d, .reg a, .table t], none => do some (.bvPerm d a (← toImm t.id))
  | .bvDot, [.reg d, .reg a, .reg b], none => some (.bvDot d a b)
  | .bvXor, [.reg d, .reg a, .reg b], none => some (.bvXor d a b)
  | .tblClr, [], none => some .tblClr
  | .tblPush, [.num e], none => do some (.tblPush (← toImm e))
  | .ksLoad, [.reg a], none => some (.ksLoad a)
  | .ksStep, [], none => some .ksStep
  | .ksDerive, [.reg a, .num n], none => do some (.ksDerive a (← toCount n))
  | .ksGetk, [.reg d, .num i], none => do some (.ksGetk d (← toCount i))
  | .ksGetcd, [.reg d], none => some (.ksGetcd d)
  | .rfSbox, [.reg d, .reg a], none => some (.rfSbox d a)
  | .rfF, [.reg d, .reg a, .reg b], none => some (.rfF d a b)
  | .rfSb, [.reg d, .reg a, .num j], none => do some (.rfSb d a (← toImm j))
  | .cInit, [.reg a], none => some (.cInit a)
  | .cRound, [], none => some .cRound
  | .cFinal, [.reg d], none => some (.cFinal d)
  | .cEnck, [.reg d, .reg a, .num n], none => do some (.cEnck d a (← toCount n))
  | .cEncrypt, [.reg d, .reg a, .reg b, .num n], none => do some (.cEncrypt d a b (← toCount n))
  | .cGetlr, [.reg d, .reg e], none => some (.cGetlr d e)
  | .cDes, [.reg d, .reg a, .reg b], none => some (.cEncrypt d a b 16)
  | .bvExpand, [.reg d, .reg a], none => some (.bvPerm d a 2)
  | _, _, _ => none

/-- The pair (CW, DW) of a line (R101). "A command word that no mnemonic produces (an illegal word in a test) is
written raw, … with DW 0": an ill-formed command has no mnemonic line. -/
def assemble : AsmLine → Option (CmdWord × DataWord)
  | .op m args data => ((assembleOp m args data).filter Instr.wellFormed).map encode
  | .word cw => some (cw, 0)

/-- The line a command is listed as (R101). -/
def listing : Instr → AsmLine
  | .bvNew rd w value => .op .bvNew [.reg rd, .num w.toNat] (some value)
  | .bvRead ra => .op .bvRead [.reg ra] none
  | .bvGet rd ra pos => .op .bvGet [.reg rd, .reg ra, .num pos.toNat] none
  | .bvSet rd ra pos b => .op .bvSet [.reg rd, .reg ra, .num pos.toNat, .num b.toNat] none
  | .bvRange rd ra first last => .op .bvRange [.reg rd, .reg ra, .num first.toNat, .num last.toNat] none
  | .bvSplit rd re ra mid => .op .bvSplit [.reg rd, .reg re, .reg ra, .num mid.toNat] none
  | .bvConcat rd ra rb => .op .bvConcat [.reg rd, .reg ra, .reg rb] none
  | .bvRotl rd ra n => .op .bvRotl [.reg rd, .reg ra, .num n.toNat] none
  | .bvPerm rd ra tid => .op .bvPerm [.reg rd, .reg ra, .num tid.toNat] none
  | .bvDot rd ra rb => .op .bvDot [.reg rd, .reg ra, .reg rb] none
  | .bvXor rd ra rb => .op .bvXor [.reg rd, .reg ra, .reg rb] none
  | .tblClr => .op .tblClr [] none
  | .tblPush e => .op .tblPush [.num e.toNat] none
  | .ksLoad ra => .op .ksLoad [.reg ra] none
  | .ksStep => .op .ksStep [] none
  | .ksDerive ra n => .op .ksDerive [.reg ra, .num n.toNat] none
  | .ksGetk rd i => .op .ksGetk [.reg rd, .num i.toNat] none
  | .ksGetcd rd => .op .ksGetcd [.reg rd] none
  | .rfSbox rd ra => .op .rfSbox [.reg rd, .reg ra] none
  | .rfF rd ra rb => .op .rfF [.reg rd, .reg ra, .reg rb] none
  | .rfSb rd ra j => .op .rfSb [.reg rd, .reg ra, .num j.toNat] none
  | .cInit ra => .op .cInit [.reg ra] none
  | .cRound => .op .cRound [] none
  | .cFinal rd => .op .cFinal [.reg rd] none
  | .cEnck rd ra n => .op .cEnck [.reg rd, .reg ra, .num n.toNat] none
  | .cEncrypt rd ra rb n => .op .cEncrypt [.reg rd, .reg ra, .reg rb, .num n.toNat] none
  | .cGetlr rd re => .op .cGetlr [.reg rd, .reg re] none

end Sys2Proof.Machine
end

