-- ==== Sys2Proof/Safety.lean ====
section
/-! DEFINITION. What the spec promises of states, steps and runs, in the terms the statements use: the invariants
of 10_state.md R39, who writes what (R20), which command can raise which cause (60_exceptions.md R232), and what a
successful run is (R234). -/

namespace Sys2Proof.Machine

/-- The invariants of R39, (a) to (g). -/
structure State.Inv (s : State) : Prop where
  /-- (a) every register that is not Empty holds a value that fits its width -/
  regs : ∀ i : VReg, ∀ x ∈ s.v.get i, x.Fits
  /-- (b) CD is Empty or has width 56 -/
  cdWidth : ∀ x ∈ s.cd, x.Fits ∧ x.w = 56
  /-- (c) at most 16 subkeys -/
  knBound : s.kn ≤ 16
  /-- (c) each of width 48 -/
  subkeys : ∀ x ∈ s.k, x.Fits ∧ x.w = 48
  /-- (c) KN > 0 implies CD not Empty -/
  knCd : 0 < s.kn → s.cd.isSome
  /-- (d) L and R are both Empty or both not -/
  halves : s.l.isSome = s.r.isSome
  /-- (d) and then of width 32 -/
  lWidth : ∀ x ∈ s.l, x.Fits ∧ x.w = 32
  /-- (d) and then of width 32 -/
  rWidth : ∀ x ∈ s.r, x.Fits ∧ x.w = 32
  /-- (d) 0 ≤ RN ≤ 16 -/
  rnBound : s.rn ≤ 16
  /-- (d) RN > 0 implies L, R not Empty -/
  rnHalves : 0 < s.rn → s.l.isSome
  /-- (e) at most 64 entries in the user table; each is 0 to 127 by its type -/
  utBound : s.utlen ≤ 64
  /-- (f) the output ports are 0, or hold a value that fits its width -/
  out : (s.outW = 0 ∧ s.outV = 0) ∨ BV.Fits ⟨s.outW.toNat, s.outV.toNat⟩
  /-- (g) no fault and an empty record, or a fault with a cause 1 to 10 -/
  faultRecord : (s.fault = false ∧ s.fcause = 0 ∧ s.fcmd = 0) ∨
    (s.fault = true ∧ 1 ≤ s.fcause.toNat ∧ s.fcause.toNat ≤ 10)

/-- "every claim about a run's results takes `FAULT = 0` at the end as a premise" (R234). -/
def State.Successful (s : State) : Prop := s.fault = false

/-- `V[i]` holds the value `x`, as R21 says values are. -/
abbrev State.Holds (s : State) (i : VReg) (x : BV) : Prop := s.v.get i = some x ∧ x.Fits

/-- `L` and `R` hold the halves `l` and `r`, of width 32 (R34). -/
abbrev State.HoldsHalves (s : State) (l r : BV) : Prop :=
  s.l = some l ∧ s.r = some r ∧ (l.Fits ∧ l.w = 32) ∧ (r.Fits ∧ r.w = 32)

/-- The command `i` raises `c` in `s`: the next state is `s` with the fault record and nothing else (R233). -/
def Traps (i : Instr) (s : State) (c : Cause) : Prop :=
  exec i s = .next { s with fault := true, fcause := c.code, fcmd := encodeWord i }

/-- The commands of a list one after the other, each on the state the one before left (R76). -/
def execAll : List Instr → State → Result
  | [], s => .next s
  | i :: rest, s =>
    match exec i s with
    | .next t => execAll rest t
    | .fault e => .fault e
    | .refused e => .refused e

/-! ### What the spec's prose says of a value, position by position

Each of these fixes one value: its width and its bit at every position (00_scope.md R10, 10_state.md R21). They are
written without the functions of the model. -/

/-- The bits at the listed positions read as a number, the first most significant (R10, R181). -/
def numberAt (x : BV) (positions : List Nat) : Nat := positions.foldl (fun n p => 2 * n + (x.at p).toNat) 0

/-- "position i of the result is position t[i] of x" (R128, R53). -/
structure PermutedBy (x : BV) (t : List Nat) (y : BV) : Prop where
  fits : y.Fits
  width : y.w = t.length
  bits : ∀ i, 1 ≤ i → i ≤ t.length → y.at i = x.at (t.getD (i - 1) 0)

/-- `y = a ⊕ b` (R130). -/
structure XorOf (a b y : BV) : Prop where
  fits : y.Fits
  width : y.w = a.w
  bits : ∀ q, 1 ≤ q → q ≤ a.w → y.at q = (a.at q ^^ b.at q)

/-- `y = hi ‖ lo`: "Positions 1 to a.w of the result are a, positions a.w + 1 to a.w + b.w are b" (R126). -/
structure JoinOf (hi lo y : BV) : Prop where
  fits : y.Fits
  width : y.w = hi.w + lo.w
  high : ∀ q, 1 ≤ q → q ≤ hi.w → y.at q = hi.at q
  low : ∀ q, 1 ≤ q → q ≤ lo.w → y.at (hi.w + q) = lo.at q

/-- `hi` and `lo` are the parts of `x` at the midpoint `mid` (R125). -/
structure PartsOf (x : BV) (mid : Nat) (hi lo : BV) : Prop where
  fitsHigh : hi.Fits
  fitsLow : lo.Fits
  widthHigh : hi.w = mid
  widthLow : mid + lo.w = x.w
  high : ∀ q, 1 ≤ q → q ≤ mid → hi.at q = x.at q
  low : ∀ q, 1 ≤ q → mid + q ≤ x.w → lo.at q = x.at (mid + q)

/-- `y` is `x` rotated left by `n`: "Position q of the result is position ((q − 1 + k) mod x.w) + 1 of x" (R127). -/
structure RotationOf (x : BV) (n : Nat) (y : BV) : Prop where
  fits : y.Fits
  width : y.w = x.w
  bits : ∀ q, 1 ≤ q → q ≤ x.w → y.at q = x.at ((q - 1 + n) % x.w + 1)

/-- `y` is the substitution of the eight chunks of `x`: chunk j, positions 6(j-1)+1 to 6j, gives positions 4(j-1)+1
to 4j, by table j at the row of its first and last bit and the column of its middle four (R181, R182). -/
structure SubstitutionOf (x y : BV) : Prop where
  fits : y.Fits
  width : y.w = 32
  chunks : ∀ j, j < 8 → numberAt y [4 * j + 1, 4 * j + 2, 4 * j + 3, 4 * j + 4] =
    sbox (j + 1) (numberAt x [6 * j + 1, 6 * j + 6]) (numberAt x [6 * j + 2, 6 * j + 3, 6 * j + 4, 6 * j + 5])

/-- `y = f(r, k)`: expansion, key mixing, substitution, round permutation, in this order (R183). -/
def RoundFunctionOf (r k y : BV) : Prop :=
  ∃ e m t, PermutedBy r tableE e ∧ XorOf e k m ∧ SubstitutionOf m t ∧ PermutedBy t tableP y

/-- One key schedule step with shift `n`: both halves of `cd` rotate independently into `cd'`, and `k` is taken from
`cd'` through PC2 (R160). -/
def ScheduleStepOf (cd : BV) (n : Nat) (cd' k : BV) : Prop :=
  ∃ c d c' d', PartsOf cd 28 c d ∧ RotationOf c n c' ∧ RotationOf d n d' ∧ JoinOf c' d' cd' ∧
    PermutedBy cd' tablePC2 k

/-- Every bit of `x` inverted (96_test_programs.md D-C5). -/
def complement (x : BV) : BV := ⟨x.w, 2 ^ x.w - 1 - x.v⟩

/-- The sum of the first `i` shifts: `s(i)` of R166. -/
def shiftSum : Nat → Nat
  | 0 => 0
  | i + 1 => shiftSum i + shift (i + 1)

/-- The vector registers a command has as destinations (R93, R97). -/
def destinations : Instr → List VReg
  | .bvNew rd _ _ | .bvGet rd _ _ | .bvSet rd _ _ _ | .bvRange rd _ _ _ | .bvConcat rd _ _ | .bvRotl rd _ _
  | .bvPerm rd _ _ | .bvDot rd _ _ | .bvXor rd _ _ | .ksGetk rd _ | .ksGetcd rd | .rfSbox rd _ | .rfF rd _ _
  | .rfSb rd _ _ | .cFinal rd | .cEnck rd _ _ | .cEncrypt rd _ _ _ => [rd]
  | .bvSplit rd re _ _ | .cGetlr rd re => [rd, re]
  | .bvRead _ | .tblClr | .tblPush _ | .ksLoad _ | .ksStep | .ksDerive _ _ | .cInit _ | .cRound => []

/-- The commands R20 lists as writers of CD, K and KN. -/
def writesSchedule : Instr → Bool
  | .ksLoad .. | .ksStep | .ksDerive .. | .cEncrypt .. => true
  | _ => false

/-- The commands R20 lists as writers of L, R and RN. -/
def writesHalves : Instr → Bool
  | .cInit .. | .cRound | .cEnck .. | .cEncrypt .. => true
  | _ => false

/-- The commands R20 lists as writers of UT and UTLEN. -/
def writesTable : Instr → Bool
  | .tblClr | .tblPush .. => true
  | _ => false

/-- The command R20 lists as the writer of OUTV and OUTW. -/
def writesOut : Instr → Bool
  | .bvRead .. => true
  | _ => false

/-- The causes a legally encoded command can raise: the row of R232 without its field-check column. -/
def mayRaise : Instr → List Cause
  | .bvNew .. => [.widthViolation]
  | .bvRead .. => [.emptyRegister]
  | .bvGet .. | .bvSet .. => [.indexOutOfRange, .emptyRegister]
  | .bvRange .. => [.rangeViolation, .emptyRegister]
  | .bvSplit .. => [.splitViolation, .emptyRegister]
  | .bvConcat .. => [.concatOverflow, .emptyRegister]
  | .bvRotl .. => [.emptyRegister]
  | .bvPerm _ _ tid =>
    if tid.toNat = 6 then [.widthViolation, .indexOutOfRange, .emptyRegister] else [.indexOutOfRange, .emptyRegister]
  | .bvDot .. | .bvXor .. => [.widthMismatch, .emptyRegister]
  | .tblClr => []
  | .tblPush .. => [.tableOverflow]
  | .ksLoad .. => [.widthMismatch, .emptyRegister]
  | .ksStep => [.emptyRegister, .roundCountViolation]
  | .ksDerive .. => [.widthMismatch, .emptyRegister, .roundCountViolation]
  | .ksGetk .. => [.emptyRegister, .roundCountViolation]
  | .ksGetcd .. => [.emptyRegister]
  | .rfSb .. | .rfSbox .. | .rfF .. => [.widthMismatch, .emptyRegister]
  | .cInit .. => [.widthMismatch, .emptyRegister]
  | .cRound => [.emptyRegister, .roundCountViolation]
  | .cFinal .. | .cGetlr .. => [.emptyRegister]
  | .cEnck .. | .cEncrypt .. => [.widthMismatch, .emptyRegister, .roundCountViolation]

end Sys2Proof.Machine
end

