-- ==== Sys2Proof/Certificates/Slice0/Obligations.lean ====
section
/-! DEFINITION. The statements for the provers. `exec` is the command unit while FAULT = 0 (60_exceptions.md R235,
log entry 10), so every statement about it takes FAULT = 0 as a premise (R234). Next states are written out: what
the update does not name is unchanged, which is the frame. -/

open Sys2Proof Sys2Proof.Machine

/-! ### The machine -/

/-- R38: RESET puts every element of R20 at its reset value. The last clause, that nothing has been presented yet, is
the model's choice and no element of R20 (log entry 3, DESIGN CHOICE). -/
def Obligations.ResetPutsEveryElementAtItsResetValue : Prop :=
  (∀ i : VReg, State.reset.v.get i = none) ∧ State.reset.cd = none ∧ State.reset.k = [] ∧ State.reset.kn = 0 ∧
    State.reset.l = none ∧ State.reset.r = none ∧ State.reset.rn = 0 ∧ State.reset.ut = [] ∧
    State.reset.utlen = 0 ∧ State.reset.outV = 0 ∧ State.reset.outW = 0 ∧ State.reset.fault = false ∧
    State.reset.fcause = 0 ∧ State.reset.fcmd = 0 ∧ State.reset.input = []

/-- The invariants of R39 hold after RESET. -/
def Obligations.InvariantHoldsAtReset : Prop := State.reset.Inv

/-- The invariants of R39 are kept by every step from every state that has them. R39 is the spec's own inference
("derived: from rules R20 to R38 and from every command rule, each of which preserves them"). -/
def Obligations.EveryStepKeepsTheInvariant : Prop :=
  ∀ s t : State, s.Inv → step s = .next t → t.Inv

/-- R39, over runs, which is the spec's own inference ("derived: from rules R20 to R38 and from every command rule,
each of which preserves them"): whatever the host presents from reset, the machine runs on and its state has the
invariants; "RN ≤ KN is not an invariant", so some run ends with RN above KN. That a run goes on past the end of the
list is the model's choice: a step with nothing presented is the identity (log entry 2, DESIGN CHOICE). -/
def Obligations.EveryReachableStateHasTheInvariant : Prop :=
  (∀ (events : List HostEvent) (n : Nat), ∃ t : State,
    Host.Core.run Sys2Proof.core n { State.reset with input := events } = .next t ∧ t.Inv) ∧
  ∃ (events : List HostEvent) (n : Nat) (t : State),
    Host.Core.run Sys2Proof.core n { State.reset with input := events } = .next t ∧ t.fault = false ∧ t.kn < t.rn

/-- R274: every state and command has exactly one outcome. A command presented is ignored while faulted (R234);
otherwise it either completes with FAULT = 0 or the next state differs by the fault record only, with FCMD the word
presented (R233). Which cause is latched is in the statements of the commands and of the illegal words. -/
def Obligations.EveryCommandHasOneOfThreeOutcomes : Prop :=
  ∀ (cw : CmdWord) (dw : DataWord) (rest : List HostEvent) (s : State), s.input = .command cw dw :: rest →
    (s.fault = true → step s = .next { s with input := rest }) ∧
    (s.fault = false →
      (∃ t, step s = .next t ∧ t.fault = false ∧ t.fcause = s.fcause ∧ t.fcmd = s.fcmd ∧ t.input = rest) ∨
      (∃ c : Cause, step s =
        .next { s with input := rest, fault := true, fcause := c.code, fcmd := cw }))

/-- R234, over runs: once faulted, no sequence of commands changes anything until a RESET. For n past the end of the
list the equation rests on the model's choice that a step with nothing presented is the identity (log entry 2, DESIGN
CHOICE). -/
def Obligations.FaultRecordStaysUntilReset : Prop :=
  ∀ (n : Nat) (s : State), s.fault = true → (∀ e ∈ s.input, e ≠ .reset) →
    Host.Core.run Sys2Proof.core n s = .next { s with input := s.input.drop n }

/-- R29, R30, R31: the ports show the state at their widths, none truncated, in every state with the invariants. -/
def Obligations.PortsShowTheState : Prop :=
  ∀ s : State, s.Inv →
    s.ports.outV = s.outV ∧ s.ports.outW = s.outW ∧ s.ports.fcause = s.fcause ∧ s.ports.fcmd = s.fcmd ∧
      s.ports.fault.toNat = s.fault.toNat ∧ s.ports.kn.toNat = s.kn ∧ s.ports.rn.toNat = s.rn ∧
      s.ports.utlen.toNat = s.utlen ∧
      (s.outW.toNat = 0 → s.outV.toNat = 0) ∧ s.outV.toNat < 2 ^ s.outW.toNat ∧
      (s.fault = false → s.fcause = 0 ∧ s.fcmd = 0) ∧
      (s.fault = true → 1 ≤ s.fcause.toNat ∧ s.fcause.toNat ≤ 10)

/-- R238, R270: RESET, in any state, faulted or not, leaves the state of R38; what the host still presents stays. -/
def Obligations.ResetLeavesTheResetStateFromAnyState : Prop :=
  ∀ (s : State) (rest : List HostEvent), s.input = .reset :: rest →
    step s = .next { State.reset with input := rest }

/-- R247 says MSE "holds its state unchanged for any length of time" between commands; that a step with nothing
presented is the identity is the model's choice (log entry 2). -/
def Obligations.StepWithNothingPresentedChangesNothing : Prop :=
  ∀ s : State, s.input = [] → step s = .next s

/-- A command presented while FAULT = 0 whose words decode to `i` runs `i`, on the state with that command taken off
the host's list (R14, R235); and the word `withFetchWord` places is the next presented (log entry 3). -/
def Obligations.StepRunsTheDecodedCommand : Prop :=
  (∀ (s : State) (cw : CmdWord) (dw : DataWord) (rest : List HostEvent) (i : Instr), s.fault = false →
    s.input = .command cw dw :: rest → decode cw dw = .ok i →
    i.wellFormed = true ∧ step s = exec i { s with input := rest }) ∧
  ∀ (s : State) (nbits w : Nat) (i : Instr), s.fault = false → decodeTableWord nbits w = some i →
    step (s.withFetchWord nbits w) = exec i s

/-! ### Decoding -/

/-- Every legal command is read back from the words that encode it, every operand at every value its field holds
(R92, R93, R97, R101). -/
def Obligations.DecodingReadsBackEveryEncodedCommand : Prop :=
  ∀ i : Instr, i.wellFormed = true → decode (encodeWord i) (encodeData i) = .ok i

/-- Every word that decodes is the word of the command it decodes to, so no bit of a legal word is dropped; and only
`BV.NEW` carries the data word (R92, R96, R99). -/
def Obligations.EncodingGivesBackEveryLegalWord : Prop :=
  ∀ (cw : CmdWord) (dw : DataWord) (i : Instr), decode cw dw = .ok i →
    i.wellFormed = true ∧ encodeWord i = cw ∧ (encodeData i = dw ∨ opField cw ≠ 0x10)

/-- R99: the words whose opcode is reserved, with a must-be-zero bit set or with a failed field check, and no
others, raise `IllegalCommand` (code 8) and change nothing else. -/
def Obligations.IllegalWordsRaiseIllegalCommand : Prop :=
  ∀ (cw : CmdWord) (dw : DataWord) (rest : List HostEvent) (s : State), s.fault = false →
    s.input = .command cw dw :: rest →
    if illegalWord cw = true then
      step s = .next { s with input := rest, fault := true, fcause := 8, fcmd := cw }
    else ∃ i, decode cw dw = .ok i ∧ step s = exec i { s with input := rest }

/-- R98: no word matches two rows of the opcode map. -/
def Obligations.NoWordMatchesTwoRows : Prop :=
  opcodeTable.Pairwise fun a b => ∀ cw : CmdWord, ¬ (cw &&& a.mask = a.mtch ∧ cw &&& b.mask = b.mtch)

/-- R96: for every opcode but that of `BV.NEW` the step does not depend on the data word. -/
def Obligations.DataWordIsIgnoredButByBvNew : Prop :=
  ∀ (cw : CmdWord) (dw dw' : DataWord) (rest : List HostEvent) (s s' : State), opField cw ≠ 0x10 →
    s.input = .command cw dw :: rest → s' = { s with input := .command cw dw' :: rest } → step s = step s'

/-- Words of 96_test_programs.md D-E1 and D-E2 read as that table says. -/
def Obligations.ListedWordsDecodeAsListed : Prop :=
  decode 0x10F00040 5 = .ok (.bvNew 15 64 5) ∧ decode 0x131200C0 0 = .ok (.bvSet 1 2 64 1) ∧
    decode 0x14122003 0 = .ok (.bvRange 1 2 3 64) ∧ decode 0x1512301C 0 = .ok (.bvSplit 1 3 2 28) ∧
    decode 0x2100007F 0 = .ok (.tblPush 127) ∧ decode 0x33A00010 0 = .ok (.ksGetk 10 16) ∧
    decode 0x42120008 0 = .ok (.rfSb 1 2 8) ∧ decode 0x54549010 0 = .ok (.cEncrypt 5 4 9 16) ∧
    decode 0x55607000 0 = .ok (.cGetlr 6 7) ∧ decode 0x1000FF00 0 = .error .mustBeZeroBit ∧
    decode 0x1B000000 0 = .error .reservedOpcode

/-! ### All commands at once -/

/-- R232: a legally encoded command completes or raises a cause its row lists, and nothing else can happen. -/
def Obligations.CommandsRaiseOnlyTheCausesOfTheirRow : Prop :=
  ∀ (i : Instr) (s : State), s.Inv → s.fault = false → i.wellFormed = true →
    (∃ t, exec i s = .next t ∧ t.fault = false) ∨ ∃ c ∈ mayRaise i, Traps i s c

/-- R20, the "written by" column: what a command is no writer of, it leaves. -/
def Obligations.CommandsWriteOnlyWhatTheyAreListedToWrite : Prop :=
  ∀ (i : Instr) (s t : State), s.fault = false → exec i s = .next t →
    (∀ j : VReg, j ∉ destinations i → t.v.get j = s.v.get j) ∧
    (writesSchedule i = false → t.cd = s.cd ∧ t.k = s.k ∧ t.kn = s.kn) ∧
    (writesHalves i = false → t.l = s.l ∧ t.r = s.r ∧ t.rn = s.rn) ∧
    (writesTable i = false → t.ut = s.ut ∧ t.utlen = s.utlen) ∧
    (writesOut i = false → t.outV = s.outV ∧ t.outW = s.outW) ∧
    (t.fault = false → t.fcause = s.fcause ∧ t.fcmd = s.fcmd) ∧
    t.input = s.input

/-- R23: "no command makes a register Empty again", nor CD, L or R. -/
def Obligations.NoCommandEmptiesARegister : Prop :=
  ∀ (cw : CmdWord) (dw : DataWord) (rest : List HostEvent) (s : State), s.input = .command cw dw :: rest →
    ∃ t, step s = .next t ∧ (∀ j : VReg, (s.v.get j).isSome → (t.v.get j).isSome) ∧
      (s.cd.isSome → t.cd.isSome) ∧ (s.l.isSome → t.l.isSome) ∧ (s.r.isSome → t.r.isSome)

/-- R24: a write to a register replaces its width and its value whatever it held, and touches no other register and
nothing else. The statements below write their next states with this operation. -/
def Obligations.WritingARegisterReplacesItWhole : Prop :=
  ∀ (s : State) (i : VReg) (x y : BV),
    (s.writeV i x).v.get i = some x ∧ (∀ j : VReg, j ≠ i → (s.writeV i x).v.get j = s.v.get j) ∧
      (s.writeV i y).writeV i x = s.writeV i x ∧ { s.writeV i x with v := s.v } = s

/-! ### The BV commands -/

/-- R131, with R121: every width 0 to 127 and every data word. -/
def Obligations.BvNewConstructsTheDataWordAtItsWidth : Prop :=
  ∀ (rd : VReg) (w : Imm) (value : DataWord) (s : State), s.fault = false →
    decode (0x10#8 ++ regBits rd ++ 0#13 ++ w) value = .ok (.bvNew rd w value) ∧
    if 1 ≤ w.toNat ∧ w.toNat ≤ 64 ∧ value.toNat < 2 ^ w.toNat then
      exec (.bvNew rd w value) s = .next (s.writeV rd ⟨w.toNat, value.toNat⟩)
    else Traps (.bvNew rd w value) s .widthViolation

/-- R132: OUTV takes the value and OUTW the width; nothing else changes. -/
def Obligations.BvReadPresentsTheRegister : Prop :=
  ∀ (ra : VReg) (s : State), s.fault = false →
    (∀ dw, decode (0x11#8 ++ 0#4 ++ regBits ra ++ 0#16) dw = .ok (.bvRead ra)) ∧
    (s.v.get ra = none → Traps (.bvRead ra) s .emptyRegister) ∧
    ∀ x, s.Holds ra x → ∃ (value : BitVec 64) (width : BitVec 7), value.toNat = x.v ∧ width.toNat = x.w ∧
      exec (.bvRead ra) s = .next { s with outV := value, outW := width }

/-- R133, with R122: the bit at a position, as a vector of width 1. -/
def Obligations.BvGetReadsTheBitAtThePosition : Prop :=
  ∀ (rd ra : VReg) (pos : Imm) (s : State), s.fault = false →
    (∀ dw, decode (0x12#8 ++ regBits rd ++ regBits ra ++ 0#9 ++ pos) dw = .ok (.bvGet rd ra pos)) ∧
    (s.v.get ra = none → Traps (.bvGet rd ra pos) s .emptyRegister) ∧
    ∀ x, s.Holds ra x →
      if 1 ≤ pos.toNat ∧ pos.toNat ≤ x.w then
        exec (.bvGet rd ra pos) s = .next (s.writeV rd ⟨1, (x.at pos.toNat).toNat⟩)
      else Traps (.bvGet rd ra pos) s .indexOutOfRange

/-- R134, with R123: the copy differs from the source at the position only. -/
def Obligations.BvSetStoresTheBitAtThePosition : Prop :=
  ∀ (rd ra : VReg) (pos : Imm) (b : BitVec 1) (s : State), s.fault = false →
    (∀ dw, decode (0x13#8 ++ regBits rd ++ regBits ra ++ 0#8 ++ b ++ pos) dw = .ok (.bvSet rd ra pos b)) ∧
    (s.v.get ra = none → Traps (.bvSet rd ra pos b) s .emptyRegister) ∧
    ∀ x, s.Holds ra x →
      if 1 ≤ pos.toNat ∧ pos.toNat ≤ x.w then
        ∃ y, y.Fits ∧ y.w = x.w ∧ y.at pos.toNat = decide (b = 1) ∧
          (∀ q, 1 ≤ q → q ≤ x.w → q ≠ pos.toNat → y.at q = x.at q) ∧
          exec (.bvSet rd ra pos b) s = .next (s.writeV rd y)
      else Traps (.bvSet rd ra pos b) s .indexOutOfRange

/-- R135, with R124: "Position q of the result is position from + q − 1 of x". -/
def Obligations.BvRangeExtractsThePositions : Prop :=
  ∀ (rd ra : VReg) (first last : Imm) (s : State), s.fault = false →
    (∀ dw, decode (0x14#8 ++ regBits rd ++ regBits ra ++ 0#2 ++ last ++ first) dw =
      .ok (.bvRange rd ra first last)) ∧
    (s.v.get ra = none → Traps (.bvRange rd ra first last) s .emptyRegister) ∧
    ∀ x, s.Holds ra x →
      if 0 < first.toNat ∧ first.toNat < last.toNat ∧ last.toNat ≤ x.w then
        ∃ y, y.Fits ∧ y.w = last.toNat - first.toNat + 1 ∧
          (∀ q, 1 ≤ q → q ≤ y.w → y.at q = x.at (first.toNat + q - 1)) ∧
          exec (.bvRange rd ra first last) s = .next (s.writeV rd y)
      else Traps (.bvRange rd ra first last) s .rangeViolation

/-- R136, with R125: the high part to Vd, the low part to Ve; `rd = re` is illegal. -/
def Obligations.BvSplitWritesBothParts : Prop :=
  ∀ (rd re ra : VReg) (mid : Imm) (s : State), s.fault = false →
    (rd = re → Traps (.bvSplit rd re ra mid) s .illegalCommand) ∧
    (rd ≠ re →
      (∀ dw, decode (0x15#8 ++ regBits rd ++ regBits ra ++ regBits re ++ 0#5 ++ mid) dw =
        .ok (.bvSplit rd re ra mid)) ∧
      (s.v.get ra = none → Traps (.bvSplit rd re ra mid) s .emptyRegister) ∧
      ∀ x, s.Holds ra x →
        if 1 ≤ mid.toNat ∧ mid.toNat < x.w then
          ∃ hi lo, PartsOf x mid.toNat hi lo ∧
            exec (.bvSplit rd re ra mid) s = .next ((s.writeV rd hi).writeV re lo)
        else Traps (.bvSplit rd re ra mid) s .splitViolation)

/-- R137, with R126: Va in the high positions. -/
def Obligations.BvConcatJoinsTheRegisters : Prop :=
  ∀ (rd ra rb : VReg) (s : State), s.fault = false →
    (∀ dw, decode (0x16#8 ++ regBits rd ++ regBits ra ++ regBits rb ++ 0#12) dw = .ok (.bvConcat rd ra rb)) ∧
    (s.v.get ra = none ∨ s.v.get rb = none → Traps (.bvConcat rd ra rb) s .emptyRegister) ∧
    ∀ a b, s.Holds ra a → s.Holds rb b →
      if a.w + b.w ≤ 64 then
        ∃ y, JoinOf a b y ∧ exec (.bvConcat rd ra rb) s = .next (s.writeV rd y)
      else Traps (.bvConcat rd ra rb) s .concatOverflow

/-- R138, with R127: rotation within the vector's own width, every amount 0 to 127. -/
def Obligations.BvRotlRotatesWithinTheWidth : Prop :=
  ∀ (rd ra : VReg) (n : Imm) (s : State), s.fault = false →
    (∀ dw, decode (0x17#8 ++ regBits rd ++ regBits ra ++ 0#9 ++ n) dw = .ok (.bvRotl rd ra n)) ∧
    (s.v.get ra = none → Traps (.bvRotl rd ra n) s .emptyRegister) ∧
    ∀ x, s.Holds ra x → ∃ y, RotationOf x n.toNat y ∧ exec (.bvRotl rd ra n) s = .next (s.writeV rd y)

/-- R139, with R128: the table's entries are source positions; ids above 6 are illegal, and an empty user table and
an entry outside the source fault. The premise on UTLEN is (e) of R39. -/
def Obligations.BvPermAppliesTheTable : Prop :=
  ∀ (rd ra : VReg) (tid : Imm) (s : State), s.fault = false → s.utlen ≤ 64 →
    (6 < tid.toNat → Traps (.bvPerm rd ra tid) s .illegalCommand) ∧
    (tid.toNat ≤ 6 →
      (∀ dw, decode (0x18#8 ++ regBits rd ++ regBits ra ++ 0#9 ++ tid) dw = .ok (.bvPerm rd ra tid)) ∧
      (s.v.get ra = none → Traps (.bvPerm rd ra tid) s .emptyRegister) ∧
      ∀ x, s.Holds ra x → ∃ t, [tableIP, tableFP, tableE, tableP, tablePC1, tablePC2,
          s.ut.map BitVec.toNat][tid.toNat]? = some t ∧
        if t = [] then Traps (.bvPerm rd ra tid) s .widthViolation
        else if ∀ p ∈ t, 1 ≤ p ∧ p ≤ x.w then
          ∃ y, PermutedBy x t y ∧ exec (.bvPerm rd ra tid) s = .next (s.writeV rd y)
        else Traps (.bvPerm rd ra tid) s .indexOutOfRange)

/-- R140, with R129: the parity of the number of positions at which both operands have a 1. -/
def Obligations.BvDotGivesTheParityOfTheAnd : Prop :=
  ∀ (rd ra rb : VReg) (s : State), s.fault = false →
    (∀ dw, decode (0x19#8 ++ regBits rd ++ regBits ra ++ regBits rb ++ 0#12) dw = .ok (.bvDot rd ra rb)) ∧
    (s.v.get ra = none ∨ s.v.get rb = none → Traps (.bvDot rd ra rb) s .emptyRegister) ∧
    ∀ a b, s.Holds ra a → s.Holds rb b →
      if a.w = b.w then
        exec (.bvDot rd ra rb) s =
          .next (s.writeV rd ⟨1, ((List.range a.w).countP fun q => a.at (q + 1) && b.at (q + 1)) % 2⟩)
      else Traps (.bvDot rd ra rb) s .widthMismatch

/-- R141, with R130: bitwise, for equal widths only. -/
def Obligations.BvXorAddsBitByBit : Prop :=
  ∀ (rd ra rb : VReg) (s : State), s.fault = false →
    (∀ dw, decode (0x1A#8 ++ regBits rd ++ regBits ra ++ regBits rb ++ 0#12) dw = .ok (.bvXor rd ra rb)) ∧
    (s.v.get ra = none ∨ s.v.get rb = none → Traps (.bvXor rd ra rb) s .emptyRegister) ∧
    ∀ a b, s.Holds ra a → s.Holds rb b →
      if a.w = b.w then
        ∃ y, XorOf a b y ∧ exec (.bvXor rd ra rb) s = .next (s.writeV rd y)
      else Traps (.bvXor rd ra rb) s .widthMismatch

/-! ### The TBL commands -/

/-- R151: the user table is empty after it, so that `BV.PERM` with it raises `WidthViolation`. -/
def Obligations.TblClrEmptiesTheUserTable : Prop :=
  ∀ s : State, s.fault = false →
    (∀ dw, decode 0x20000000 dw = .ok .tblClr) ∧
    ∃ t, exec .tblClr s = .next t ∧ t = { s with ut := [] } ∧ t.utlen = 0 ∧
      ∀ (rd ra : VReg) (x : BV), s.v.get ra = some x → Traps (.bvPerm rd ra 6) t .widthViolation

/-- R152: the entry, unchecked, becomes the last; a full table raises `TableOverflow`. -/
def Obligations.TblPushAppendsTheEntry : Prop :=
  ∀ (e : Imm) (s : State), s.fault = false → s.utlen ≤ 64 →
    (∀ dw, decode (0x21#8 ++ 0#17 ++ e) dw = .ok (.tblPush e)) ∧
    if s.utlen = 64 then Traps (.tblPush e) s .tableOverflow
    else ∃ t, exec (.tblPush e) s = .next t ∧ t = { s with ut := s.ut ++ [e] } ∧ t.utlen = s.utlen + 1 ∧
      t.ut[s.utlen]? = some e

/-! ### The KS commands -/

/-- R161: CD takes the key through PC1 and every subkey is discarded. -/
def Obligations.KsLoadTakesTheKeyThroughPC1 : Prop :=
  ∀ (ra : VReg) (s : State), s.fault = false →
    (∀ dw, decode (0x30#8 ++ 0#4 ++ regBits ra ++ 0#16) dw = .ok (.ksLoad ra)) ∧
    (s.v.get ra = none → Traps (.ksLoad ra) s .emptyRegister) ∧
    ∀ key, s.Holds ra key →
      if key.w = 64 then
        ∃ cd, PermutedBy key tablePC1 cd ∧ exec (.ksLoad ra) s = .next { s with cd := some cd, k := [] }
      else Traps (.ksLoad ra) s .widthMismatch

/-- R162: one step of R160 with the shift of round KN + 1, and its subkey becomes K[KN + 1]. -/
def Obligations.KsStepRotatesAndAppendsASubkey : Prop :=
  ∀ s : State, s.fault = false →
    (∀ dw, decode 0x31000000 dw = .ok .ksStep) ∧
    (s.cd = none → Traps .ksStep s .emptyRegister) ∧
    (s.cd.isSome → s.kn = 16 → Traps .ksStep s .roundCountViolation) ∧
    ∀ cd, s.cd = some cd → cd.Fits → cd.w = 56 → s.kn < 16 →
      ∃ cd' k, ScheduleStepOf cd (shift (s.kn + 1)) cd' k ∧
        exec .ksStep s = .next { s with cd := some cd', k := s.k ++ [k] }

/-- R163: exactly `KS.LOAD Va` followed by n times `KS.STEP`; K is `derive(key, n)` and KN is n. That K is the first n
elements of `derive(key, 16)` is the spec's own inference (R163, "derived: from rule R160"). -/
def Obligations.KsDeriveIsLoadThenSteps : Prop :=
  ∀ (ra : VReg) (n : Count) (s : State), s.fault = false →
    (∀ dw, decode (0x32#8 ++ 0#4 ++ regBits ra ++ 0#11 ++ n) dw = .ok (.ksDerive ra n)) ∧
    (s.v.get ra = none → Traps (.ksDerive ra n) s .emptyRegister) ∧
    ∀ key, s.Holds ra key →
      (key.w ≠ 64 → Traps (.ksDerive ra n) s .widthMismatch) ∧
      (key.w = 64 → 16 < n.toNat → Traps (.ksDerive ra n) s .roundCountViolation) ∧
      (key.w = 64 → n.toNat ≤ 16 → ∃ cd ks all,
        exec (.ksDerive ra n) s = .next { s with cd := some cd, k := ks } ∧
        execAll (.ksLoad ra :: List.replicate n.toNat .ksStep) s = .next { s with cd := some cd, k := ks } ∧
        derive key n.toNat = .ok ks ∧ ks.length = n.toNat ∧ derive key 16 = .ok all ∧ ks = all.take n.toNat)

/-- R164: the index's range is checked before KN. -/
def Obligations.KsGetkCopiesTheSubkey : Prop :=
  ∀ (rd : VReg) (i : Count) (s : State), s.fault = false →
    (∀ dw, decode (0x33#8 ++ regBits rd ++ 0#15 ++ i) dw = .ok (.ksGetk rd i)) ∧
    if i.toNat < 1 ∨ 16 < i.toNat then Traps (.ksGetk rd i) s .roundCountViolation
    else if s.kn < i.toNat then Traps (.ksGetk rd i) s .emptyRegister
    else ∃ x, s.k[i.toNat - 1]? = some x ∧ exec (.ksGetk rd i) s = .next (s.writeV rd x)

/-- R165: the register C‖D as it stands. -/
def Obligations.KsGetcdCopiesTheRegister : Prop :=
  ∀ (rd : VReg) (s : State), s.fault = false →
    (∀ dw, decode (0x34#8 ++ regBits rd ++ 0#20) dw = .ok (.ksGetcd rd)) ∧
    (s.cd = none → Traps (.ksGetcd rd) s .emptyRegister) ∧
    ∀ cd, s.cd = some cd → exec (.ksGetcd rd) s = .next (s.writeV rd cd)

/-! ### The RF commands -/

/-- R184, with R181: row from the first and last bit, column from the middle four; boxes other than 1 to 8 are
illegal. -/
def Obligations.RfSbLooksUpOneChunk : Prop :=
  ∀ (rd ra : VReg) (j : Imm) (s : State), s.fault = false →
    (j.toNat = 0 ∨ 8 < j.toNat → Traps (.rfSb rd ra j) s .illegalCommand) ∧
    (1 ≤ j.toNat → j.toNat ≤ 8 →
      (∀ dw, decode (0x42#8 ++ regBits rd ++ regBits ra ++ 0#9 ++ j) dw = .ok (.rfSb rd ra j)) ∧
      (s.v.get ra = none → Traps (.rfSb rd ra j) s .emptyRegister) ∧
      ∀ x, s.Holds ra x →
        if x.w = 6 then
          exec (.rfSb rd ra j) s =
            .next (s.writeV rd ⟨4, sbox j.toNat (numberAt x [1, 6]) (numberAt x [2, 3, 4, 5])⟩)
        else Traps (.rfSb rd ra j) s .widthMismatch)

/-- R185, with R182: eight chunks, each through its own table. -/
def Obligations.RfSboxSubstitutesEightChunks : Prop :=
  ∀ (rd ra : VReg) (s : State), s.fault = false →
    (∀ dw, decode (0x40#8 ++ regBits rd ++ regBits ra ++ 0#16) dw = .ok (.rfSbox rd ra)) ∧
    (s.v.get ra = none → Traps (.rfSbox rd ra) s .emptyRegister) ∧
    ∀ x, s.Holds ra x →
      if x.w = 48 then
        ∃ y, SubstitutionOf x y ∧ exec (.rfSbox rd ra) s = .next (s.writeV rd y)
      else Traps (.rfSbox rd ra) s .widthMismatch

/-- R186, with R183: the round function of a right half and a subkey. -/
def Obligations.RfFComputesTheRoundFunction : Prop :=
  ∀ (rd ra rb : VReg) (s : State), s.fault = false →
    (∀ dw, decode (0x41#8 ++ regBits rd ++ regBits ra ++ regBits rb ++ 0#12) dw = .ok (.rfF rd ra rb)) ∧
    (s.v.get ra = none ∨ s.v.get rb = none → Traps (.rfF rd ra rb) s .emptyRegister) ∧
    ∀ r k, s.Holds ra r → s.Holds rb k →
      if r.w = 32 ∧ k.w = 48 then
        ∃ y, RoundFunctionOf r k y ∧ exec (.rfF rd ra rb) s = .next (s.writeV rd y)
      else Traps (.rfF rd ra rb) s .widthMismatch

/-- R186: `RF.F` gives what `BV.PERM` with E, `BV.XOR`, `RF.SBOX` and `BV.PERM` with P give in sequence through a
scratch register `rt` (which the sequence overwrites and `RF.F` does not). -/
def Obligations.RfFIsFourCommandsThroughAScratchRegister : Prop :=
  ∀ (rd ra rb rt : VReg) (r k : BV) (s : State), s.fault = false → s.Holds ra r → s.Holds rb k → r.w = 32 →
    k.w = 48 → rt ≠ rb →
    ∃ y z, exec (.rfF rd ra rb) s = .next (s.writeV rd y) ∧
      execAll [.bvPerm rt ra 2, .bvXor rt rt rb, .rfSbox rt rt, .bvPerm rd rt 3] s =
        .next ((s.writeV rt z).writeV rd y)

/-! ### The C commands -/

/-- R202: the halves of IP(p), L the positions 1 to 32; RN is 0. -/
def Obligations.CInitSplitsThePermutedPlaintext : Prop :=
  ∀ (ra : VReg) (s : State), s.fault = false →
    (∀ dw, decode (0x50#8 ++ 0#4 ++ regBits ra ++ 0#16) dw = .ok (.cInit ra)) ∧
    (s.v.get ra = none → Traps (.cInit ra) s .emptyRegister) ∧
    ∀ p, s.Holds ra p →
      if p.w = 64 then
        ∃ y l r, PermutedBy p tableIP y ∧ PartsOf y 32 l r ∧
          exec (.cInit ra) s = .next { s with l := some l, r := some r, rn := 0 }
      else Traps (.cInit ra) s .widthMismatch

/-- R203, with R201: L' = R and R' = L ⊕ f(R, K[RN + 1]). -/
def Obligations.CRoundMixesAndSwapsTheHalves : Prop :=
  ∀ s : State, s.fault = false →
    (∀ dw, decode 0x51000000 dw = .ok .cRound) ∧
    (s.l = none ∨ s.r = none → Traps .cRound s .emptyRegister) ∧
    ∀ l r, s.HoldsHalves l r →
      (s.rn = 16 → Traps .cRound s .roundCountViolation) ∧
      (s.rn < 16 → s.kn < s.rn + 1 → Traps .cRound s .emptyRegister) ∧
      (s.rn < 16 → ∀ k, s.k[s.rn]? = some k → k.Fits → k.w = 48 →
        ∃ m r', RoundFunctionOf r k m ∧ XorOf l m r' ∧
          exec .cRound s = .next { s with l := some r, r := some r', rn := s.rn + 1 })

/-- R204: FP of R ‖ L; the halves and RN stay. -/
def Obligations.CFinalPermutesTheSwappedHalves : Prop :=
  ∀ (rd : VReg) (s : State), s.fault = false →
    (∀ dw, decode (0x52#8 ++ regBits rd ++ 0#20) dw = .ok (.cFinal rd)) ∧
    (s.l = none ∨ s.r = none → Traps (.cFinal rd) s .emptyRegister) ∧
    ∀ l r, s.HoldsHalves l r →
      ∃ x y, JoinOf r l x ∧ PermutedBy x tableFP y ∧ exec (.cFinal rd) s = .next (s.writeV rd y)

/-- R205: exactly `C.INIT Va`, n times `C.ROUND`, `C.FINAL Vd`; the result is `enck(p, K, n)`, RN is n, and K, KN and
CD are unchanged. -/
def Obligations.CEnckIsInitThenRoundsThenFinal : Prop :=
  ∀ (rd ra : VReg) (n : Count) (s : State), s.Inv → s.fault = false →
    (∀ dw, decode (0x53#8 ++ regBits rd ++ regBits ra ++ 0#11 ++ n) dw = .ok (.cEnck rd ra n)) ∧
    (s.v.get ra = none → Traps (.cEnck rd ra n) s .emptyRegister) ∧
    ∀ p, s.v.get ra = some p →
      (p.w ≠ 64 → Traps (.cEnck rd ra n) s .widthMismatch) ∧
      (p.w = 64 → 16 < n.toNat → Traps (.cEnck rd ra n) s .roundCountViolation) ∧
      (p.w = 64 → n.toNat ≤ 16 → s.kn < n.toNat → Traps (.cEnck rd ra n) s .emptyRegister) ∧
      (p.w = 64 → n.toNat ≤ 16 → n.toNat ≤ s.kn → ∃ l r y,
        exec (.cEnck rd ra n) s = .next (State.writeV { s with l := some l, r := some r, rn := n.toNat } rd y) ∧
        execAll (.cInit ra :: (List.replicate n.toNat .cRound ++ [.cFinal rd])) s =
          .next (State.writeV { s with l := some l, r := some r, rn := n.toNat } rd y) ∧
        enck p s.k n.toNat = .ok y)

/-- R206: exactly `KS.DERIVE Vb, n` followed by `C.ENCK Vd, Va, n`; the result is `encrypt(p, key, n)` and KN = RN =
n after it. -/
def Obligations.CEncryptIsDeriveThenEnck : Prop :=
  ∀ (rd ra rb : VReg) (n : Count) (s : State), s.fault = false →
    (∀ dw, decode (0x54#8 ++ regBits rd ++ regBits ra ++ regBits rb ++ 0#7 ++ n) dw = .ok (.cEncrypt rd ra rb n)) ∧
    (s.v.get ra = none ∨ s.v.get rb = none → Traps (.cEncrypt rd ra rb n) s .emptyRegister) ∧
    ∀ p key, s.Holds ra p → s.Holds rb key →
      (p.w ≠ 64 ∨ key.w ≠ 64 → Traps (.cEncrypt rd ra rb n) s .widthMismatch) ∧
      (p.w = 64 → key.w = 64 → 16 < n.toNat → Traps (.cEncrypt rd ra rb n) s .roundCountViolation) ∧
      (p.w = 64 → key.w = 64 → n.toNat ≤ 16 → ∃ t y,
        exec (.cEncrypt rd ra rb n) s = .next t ∧
        execAll [.ksDerive rb n, .cEnck rd ra n] s = .next t ∧
        encrypt p key n.toNat = .ok y ∧ t.v.get rd = some y ∧ t.kn = n.toNat ∧ t.rn = n.toNat ∧
        t = State.writeV { s with cd := t.cd, k := t.k, l := t.l, r := t.r, rn := t.rn } rd y)

/-- R208: both halves out; `rd = re` is illegal; L, R and RN stay. -/
def Obligations.CGetlrCopiesTheHalves : Prop :=
  ∀ (rd re : VReg) (s : State), s.fault = false →
    (rd = re → Traps (.cGetlr rd re) s .illegalCommand) ∧
    (rd ≠ re →
      (∀ dw, decode (0x55#8 ++ regBits rd ++ 0#4 ++ regBits re ++ 0#12) dw = .ok (.cGetlr rd re)) ∧
      (s.l = none ∨ s.r = none → Traps (.cGetlr rd re) s .emptyRegister) ∧
      ∀ l r, s.l = some l → s.r = some r →
        exec (.cGetlr rd re) s = .next ((s.writeV rd l).writeV re r))

/-! ### Laws of the algebra and of the cipher -/

/-- R142 (a) to (d): the source's testable properties of the bit-vector algebra. -/
def Obligations.AlgebraLawsOfTheSource : Prop :=
  (∀ x : BV, x.Fits → x.w = 64 →
    (∃ y, permute x tableIP = .ok y ∧ permute y tableFP = .ok x) ∧
    (∃ y, permute x tableFP = .ok y ∧ permute y tableIP = .ok x)) ∧
  (∀ (x : BV) (m : Nat), x.Fits → 1 ≤ m → m < x.w →
    ∃ hi lo, split x m = .ok (hi, lo) ∧ concat hi lo = .ok x) ∧
  (∀ (x : BV) (a b : Nat), x.Fits →
    rotl x x.w = x ∧ rotl (rotl x a) b = rotl x ((a + b) % x.w)) ∧
  (∀ a b : BV, a.w = b.w → ∃ d, dot a b = .ok d ∧ dot b a = .ok d ∧ d < 2)

/-- R166, the spec's own inference from R160 and R127: after `KS.LOAD` and i steps both halves are the first ones
rotated by s(i), the subkeys are taken from them, and after sixteen steps the register is back. -/
def Obligations.ScheduleHasTheClosedForm : Prop :=
  (List.range 17).map shiftSum = [0, 1, 2, 4, 6, 8, 10, 12, 14, 15, 17, 19, 21, 23, 25, 27, 28] ∧
  ∀ (ra : VReg) (key : BV) (i : Nat) (s : State), s.fault = false → s.Holds ra key → key.w = 64 → i ≤ 16 →
    ∃ cd0 c0 d0 t cd c d, PermutedBy key tablePC1 cd0 ∧ PartsOf cd0 28 c0 d0 ∧
      execAll (.ksLoad ra :: List.replicate i .ksStep) s = .next t ∧ t.cd = some cd ∧ t.kn = i ∧
      RotationOf c0 (shiftSum i) c ∧ RotationOf d0 (shiftSum i) d ∧ JoinOf c d cd ∧
      (1 ≤ i → ∃ k, t.k[i - 1]? = some k ∧ PermutedBy cd tablePC2 k) ∧
      (i = 16 → cd = cd0)

/-- R58: the key bits at positions 8, 16, 24, 32, 40, 48, 56 and 64 have no effect on any output: two keys that
differ there only load the same register, derive the same subkeys and encrypt alike. -/
def Obligations.ParityPositionsOfTheKeyHaveNoEffect : Prop :=
  ∀ (key key' p : BV) (n : Nat), key.Fits → key'.Fits → key.w = 64 → key'.w = 64 →
    (∀ q, 1 ≤ q → q ≤ 64 → q % 8 ≠ 0 → key.at q = key'.at q) →
    ksLoad key = ksLoad key' ∧ derive key n = derive key' n ∧ encrypt p key n = encrypt p key' n

/-- R163 and R210, the spec's own inferences: `derive(key, n)` is the first n elements of `derive(key, 16)`, and the
halves after round i are the same whichever of the two is used, i ≤ n. -/
def Obligations.ReducedRoundsUseAPrefixOfTheSchedule : Prop :=
  ∀ (key p : BV) (n i : Nat), key.Fits → key.w = 64 → p.Fits → p.w = 64 → n ≤ 16 → i ≤ n →
    ∃ full short lr lr', derive key 16 = .ok full ∧ derive key n = .ok short ∧ short = full.take n ∧
      full.length = 16 ∧ cInit p = .ok lr ∧ roundsFrom short i 1 lr = .ok lr' ∧
      roundsFrom full i 1 lr = .ok lr'

/-- R207: the value `C.ENCRYPT` writes is a function of its two operands and n, and the value `C.ENCK` writes of its
operand, n and K[1..n]; nothing else of the state has a part in them. -/
def Obligations.EncryptionDependsOnItsOperandsAlone : Prop :=
  (∀ (rd ra rb rd' ra' rb' : VReg) (n : Count) (p key : BV) (s s' : State), s.fault = false → s'.fault = false →
    s.Holds ra p → s.Holds rb key → s'.Holds ra' p → s'.Holds rb' key → p.w = 64 → key.w = 64 → n.toNat ≤ 16 →
    ∃ t t' c, exec (.cEncrypt rd ra rb n) s = .next t ∧ exec (.cEncrypt rd' ra' rb' n) s' = .next t' ∧
      t.v.get rd = some c ∧ t'.v.get rd' = some c) ∧
  (∀ (rd ra rd' ra' : VReg) (n : Count) (p : BV) (s s' : State), s.Inv → s'.Inv → s.fault = false →
    s'.fault = false → s.v.get ra = some p → s'.v.get ra' = some p → p.w = 64 → n.toNat ≤ 16 → n.toNat ≤ s.kn →
    n.toNat ≤ s'.kn → s.k.take n.toNat = s'.k.take n.toNat →
    ∃ t t' c, exec (.cEnck rd ra n) s = .next t ∧ exec (.cEnck rd' ra' n) s' = .next t' ∧
      t.v.get rd = some c ∧ t'.v.get rd' = some c)

/-- R209, the spec's own inference: zero rounds exchange each pair of adjacent positions, whatever the key. -/
def Obligations.ZeroRoundsExchangeAdjacentPositions : Prop :=
  ∀ p key : BV, p.Fits → p.w = 64 → key.Fits → key.w = 64 →
    ∃ c, encrypt p key 0 = .ok c ∧ c.Fits ∧ c.w = 64 ∧
      ∀ k, 1 ≤ k → k ≤ 32 → c.at (2 * k - 1) = p.at (2 * k) ∧ c.at (2 * k) = p.at (2 * k - 1)

/-- The inference of 96_test_programs.md D-C5: "complementing key and plaintext complements the ciphertext", at every
round count. -/
def Obligations.ComplementingKeyAndPlaintextComplementsTheCiphertext : Prop :=
  ∀ (p key : BV) (n : Nat), p.Fits → p.w = 64 → key.Fits → key.w = 64 → n ≤ 16 →
    ∃ c, encrypt p key n = .ok c ∧ encrypt (complement p) (complement key) n = .ok (complement c)

/-- Under one key and one round count different plaintexts have different ciphertexts, an inference from R200 and
R201: a round loses nothing of the halves. -/
def Obligations.EncryptionIsInjectiveInThePlaintext : Prop :=
  ∀ (p p' key c : BV) (n : Nat), p.Fits → p.w = 64 → p'.Fits → p'.w = 64 → key.Fits → key.w = 64 → n ≤ 16 →
    encrypt p key n = .ok c → encrypt p' key n = .ok c → p = p'

/-- The source's two known-answer vectors (R206; 95_test_vectors.md S1, S2). -/
def Obligations.KnownAnswerVectorsHold : Prop :=
  encrypt ⟨64, 0x4E6F772069732074⟩ ⟨64, 0x0123456789ABCDEF⟩ 16 = .ok ⟨64, 0x3FA40E8A984D4815⟩ ∧
    encrypt ⟨64, 0⟩ ⟨64, 0⟩ 16 = .ok ⟨64, 0x8CA64DE9C1B123A7⟩

/-- R153, the spec's own inference: a user table equal to a constant table behaves exactly as that table. -/
def Obligations.UserTableActsAsTheConstantTableItEquals : Prop :=
  ∀ (rd ra : VReg) (tid : Imm) (t : List Nat) (s : State), s.fault = false → tid.toNat < 6 →
    s.table tid = .ok t → s.ut.map BitVec.toNat = t →
    (∀ y, exec (.bvPerm rd ra 6) s = .next (s.writeV rd y) ↔ exec (.bvPerm rd ra tid) s = .next (s.writeV rd y)) ∧
    ∀ c, Traps (.bvPerm rd ra 6) s c ↔ Traps (.bvPerm rd ra tid) s c

/-- R70 (a) to (g), which the source states, and beside them what the spec's rules R55 to R61 say of the tables they
print: the positions E repeats, the halves PC2 selects from, the exact shift list, and that each row of each
substitution table is a permutation, which is "not a statement of the source" (R187). The entries are the spec's
general knowledge (log entry 7). R70's own checks are `tableFacts` of the model. -/
def Obligations.TablesAreWhatTheSourceSaysOfThem : Prop :=
  (tableIP.Nodup ∧ tableFP.Nodup ∧ (∀ i, i < 64 →
    tableFP.getD (tableIP.getD i 0 - 1) 0 = i + 1 ∧ tableIP.getD (tableFP.getD i 0 - 1) 0 = i + 1) ∧
    ∀ x : BV, x.Fits → x.w = 64 → ∃ y z, permute x tableIP = .ok y ∧ permute y tableFP = .ok x ∧
      permute x tableFP = .ok z ∧ permute z tableIP = .ok x) ∧
  (tableP.Nodup ∧ tableP.length = 32 ∧ ∀ p ∈ tableP, 1 ≤ p ∧ p ≤ 32) ∧
  (tableE.length = 48 ∧ (∀ p ∈ tableE, 1 ≤ p ∧ p ≤ 32) ∧
    ∀ p, 1 ≤ p → p ≤ 32 → tableE.count p = if p % 4 = 0 ∨ p % 4 = 1 then 2 else 1) ∧
  (tablePC1.Nodup ∧ tablePC1.length = 56 ∧ ∀ p, p ∈ tablePC1 ↔ 1 ≤ p ∧ p ≤ 64 ∧ p % 8 ≠ 0) ∧
  (tablePC2.Nodup ∧ tablePC2.length = 48 ∧ (∀ p ∈ tablePC2.take 24, 1 ≤ p ∧ p ≤ 28) ∧
    ∀ p ∈ tablePC2.drop 24, 29 ≤ p ∧ p ≤ 56) ∧
  (∀ i, 1 ≤ i → i ≤ 16 → shift i = if i = 1 ∨ i = 2 ∨ i = 9 ∨ i = 16 then 1 else 2) ∧
  (∀ j row, 1 ≤ j → j ≤ 8 → row < 4 → ∀ value, value < 16 ↔ ∃ col, col < 16 ∧ sbox j row col = value)

/-- R101, R102: the line a legal command is listed as assembles to its words, and the two pseudo-instructions are
their expansions. -/
def Obligations.ListingsAssembleToTheirCommands : Prop :=
  (∀ i : Instr, i.wellFormed = true → assemble (listing i) = some (encode i)) ∧
  (∀ d a b : VReg, assemble (.op .cDes [.reg d, .reg a, .reg b] none) = some (encode (.cEncrypt d a b 16))) ∧
  (∀ d a : VReg, assemble (.op .bvExpand [.reg d, .reg a] none) = some (encode (.bvPerm d a 2))) ∧
  ∀ cw : CmdWord, assemble (.word cw) = some (cw, 0)
end

