-- ==== Sys2Proof/Laws/State.lean ====
section
/-! SUPPORT. One lemma per field per update of the state, so that no later proof unfolds a record update. -/

namespace Sys2Proof.Machine

section WriteRegister

variable (s : State) (i j : VReg) (x : BV)

@[simp] theorem writeV_get_self : (s.writeV i x).v.get i = some x := by
  simp [State.writeV, Vector.get_eq_getElem]

theorem writeV_get_of_ne (h : j ≠ i) : (s.writeV i x).v.get j = s.v.get j := by
  have : i.val ≠ j.val := fun e => h (Fin.ext e.symm)
  simp [State.writeV, Vector.get_eq_getElem, this]

theorem writeV_get : (s.writeV i x).v.get j = if j = i then some x else s.v.get j := by
  by_cases h : j = i
  · subst h; simp
  · simp [writeV_get_of_ne s i j x h, h]

@[simp] theorem writeV_cd : (s.writeV i x).cd = s.cd := rfl
@[simp] theorem writeV_k : (s.writeV i x).k = s.k := rfl
@[simp] theorem writeV_kn : (s.writeV i x).kn = s.kn := rfl
@[simp] theorem writeV_l : (s.writeV i x).l = s.l := rfl
@[simp] theorem writeV_r : (s.writeV i x).r = s.r := rfl
@[simp] theorem writeV_rn : (s.writeV i x).rn = s.rn := rfl
@[simp] theorem writeV_ut : (s.writeV i x).ut = s.ut := rfl
@[simp] theorem writeV_utlen : (s.writeV i x).utlen = s.utlen := rfl
@[simp] theorem writeV_outV : (s.writeV i x).outV = s.outV := rfl
@[simp] theorem writeV_outW : (s.writeV i x).outW = s.outW := rfl
@[simp] theorem writeV_fault : (s.writeV i x).fault = s.fault := rfl
@[simp] theorem writeV_fcause : (s.writeV i x).fcause = s.fcause := rfl
@[simp] theorem writeV_fcmd : (s.writeV i x).fcmd = s.fcmd := rfl
@[simp] theorem writeV_input : (s.writeV i x).input = s.input := rfl

end WriteRegister

section TakeFault

variable (s : State) (c : Cause) (cw : CmdWord)

@[simp] theorem takeFault_v : (s.takeFault c cw).v = s.v := rfl
@[simp] theorem takeFault_cd : (s.takeFault c cw).cd = s.cd := rfl
@[simp] theorem takeFault_k : (s.takeFault c cw).k = s.k := rfl
@[simp] theorem takeFault_kn : (s.takeFault c cw).kn = s.kn := rfl
@[simp] theorem takeFault_l : (s.takeFault c cw).l = s.l := rfl
@[simp] theorem takeFault_r : (s.takeFault c cw).r = s.r := rfl
@[simp] theorem takeFault_rn : (s.takeFault c cw).rn = s.rn := rfl
@[simp] theorem takeFault_ut : (s.takeFault c cw).ut = s.ut := rfl
@[simp] theorem takeFault_utlen : (s.takeFault c cw).utlen = s.utlen := rfl
@[simp] theorem takeFault_outV : (s.takeFault c cw).outV = s.outV := rfl
@[simp] theorem takeFault_outW : (s.takeFault c cw).outW = s.outW := rfl
@[simp] theorem takeFault_fault : (s.takeFault c cw).fault = true := rfl
@[simp] theorem takeFault_fcause : (s.takeFault c cw).fcause = c.code := rfl
@[simp] theorem takeFault_fcmd : (s.takeFault c cw).fcmd = cw := rfl
@[simp] theorem takeFault_input : (s.takeFault c cw).input = s.input := rfl

end TakeFault

section Reset

variable (s : State) (nbits w : Nat)

@[simp] theorem resetByHost_input : s.resetByHost.input = s.input := rfl
@[simp] theorem resetByHost_fault : s.resetByHost.fault = false := rfl
@[simp] theorem resetByHost_v : s.resetByHost.v = State.reset.v := rfl
@[simp] theorem reset_get (i : VReg) : State.reset.v.get i = none := by
  simp [State.reset, Vector.get_eq_getElem]

@[simp] theorem withFetchWord_v : (s.withFetchWord nbits w).v = s.v := rfl
@[simp] theorem withFetchWord_fault : (s.withFetchWord nbits w).fault = s.fault := rfl
@[simp] theorem withFetchWord_input : (s.withFetchWord nbits w).input =
    .command (tableCmdWord nbits w) (tableDataWord nbits w) :: s.input := rfl

end Reset

end Sys2Proof.Machine
end

