-- ==== Sys2Proof/Laws/Ops.lean ====
section
/-! SUPPORT. For each shared operation, one lemma that says everything it can do; later proofs cite it instead of
unfolding the operation. -/

namespace Sys2Proof.Machine

/-- A sequence succeeds exactly when both parts do. -/
theorem bind_eq_ok {α β : Type} {x : Checked α} {f : α → Checked β} {b : β} :
    (x >>= f) = .ok b ↔ ∃ a, x = .ok a ∧ f a = .ok b := by
  cases x <;> simp [bind, Except.bind]

/-- A sequence raises a cause exactly when its first part does, or its second after it. -/
theorem bind_eq_error {α β : Type} {x : Checked α} {f : α → Checked β} {c : Cause} :
    (x >>= f) = .error c ↔ x = .error c ∨ ∃ a, x = .ok a ∧ f a = .error c := by
  cases x <;> simp [bind, Except.bind]

/-- The first part having succeeded, a sequence is its second part. -/
@[simp] theorem ok_bind {α β : Type} (a : α) (f : α → Checked β) : ((Except.ok a : Checked α) >>= f) = f a := rfl

/-- The first part having raised, a sequence raises that. -/
@[simp] theorem error_bind {α β : Type} (c : Cause) (f : α → Checked β) :
    ((Except.error c : Checked α) >>= f) = .error c := rfl

theorem require_eq_ok {p : Prop} [Decidable p] {c : Cause} {u : Unit} : require p c = .ok u ↔ p := by
  unfold require; split <;> simp_all

theorem require_eq_error {p : Prop} [Decidable p] {c d : Cause} : require p c = .error d ↔ ¬ p ∧ d = c := by
  unfold require; split <;> simp_all [eq_comm]

theorem hasWidth_eq_ok {x : BV} {w : Nat} {u : Unit} : hasWidth x w = .ok u ↔ x.w = w := require_eq_ok

theorem hasWidth_eq_error {x : BV} {w : Nat} {c : Cause} :
    hasWidth x w = .error c ↔ x.w ≠ w ∧ c = .widthMismatch := require_eq_error

theorem present_eq_ok {o : Option BV} {x : BV} : present o = .ok x ↔ o = some x := by
  cases o <;> simp [present]

theorem present_eq_error {o : Option BV} {c : Cause} : present o = .error c ↔ o = none ∧ c = .emptyRegister := by
  cases o <;> simp [present, eq_comm]

theorem readV_eq_ok {s : State} {i : VReg} {x : BV} : s.readV i = .ok x ↔ s.v.get i = some x := present_eq_ok

theorem readV_eq_error {s : State} {i : VReg} {c : Cause} :
    s.readV i = .error c ↔ s.v.get i = none ∧ c = .emptyRegister := present_eq_error

theorem readCD_eq_ok {s : State} {x : BV} : s.readCD = .ok x ↔ s.cd = some x := present_eq_ok

theorem readCD_eq_error {s : State} {c : Cause} : s.readCD = .error c ↔ s.cd = none ∧ c = .emptyRegister :=
  present_eq_error

theorem readLR_eq_ok {s : State} {p : BV × BV} : s.readLR = .ok p ↔ s.l = some p.1 ∧ s.r = some p.2 := by
  obtain ⟨a, b⟩ := p
  cases hl : s.l <;> cases hr : s.r <;> simp [State.readLR, present, hl, hr]

theorem readLR_eq_error {s : State} {c : Cause} :
    s.readLR = .error c ↔ (s.l = none ∨ s.r = none) ∧ c = .emptyRegister := by
  cases hl : s.l <;> cases hr : s.r <;> simp [State.readLR, present, hl, hr, eq_comm]

theorem subkey_eq_ok {k : List BV} {i : Nat} {x : BV} : subkey k i = .ok x ↔ 0 < i ∧ k[i - 1]? = some x := by
  unfold subkey
  split
  · simp_all
  · rw [present_eq_ok]; constructor
    · exact fun h => ⟨by omega, h⟩
    · exact fun h => h.2

theorem subkey_eq_error {k : List BV} {i : Nat} {c : Cause} :
    subkey k i = .error c ↔ (i = 0 ∨ k.length < i) ∧ c = .emptyRegister := by
  unfold subkey
  split
  · simp_all [eq_comm]
  · rw [present_eq_error, List.getElem?_eq_none_iff]
    constructor
    · rintro ⟨h, rfl⟩; exact ⟨.inr (by omega), rfl⟩
    · rintro ⟨h | h, rfl⟩
      · contradiction
      · exact ⟨by omega, rfl⟩

/-- The tables the ids name; the only cause is `IllegalCommand`, for an id above 6. -/
theorem table_eq_error {s : State} {tid : Imm} {c : Cause} (h : s.table tid = .error c) :
    6 < tid.toNat ∧ c = .illegalCommand := by
  unfold State.table at h
  split at h <;> simp_all
  omega

/-- A constant table, or the user table. -/
theorem table_eq_ok {s : State} {tid : Imm} {t : List Nat} (h : s.table tid = .ok t) :
    (tid.toNat = 6 ∧ t = s.ut.map BitVec.toNat) ∨
      (tid.toNat < 6 ∧ (t = tableIP ∨ t = tableFP ∨ t = tableE ∨ t = tableP ∨ t = tablePC1 ∨ t = tablePC2)) := by
  unfold State.table at h
  split at h <;> simp_all

/-- How a command ends: complete, or with the fault latched. -/
theorem conclude_eq_next {i : Instr} {s t : State} {res : Checked State} (h : conclude i s res = .next t) :
    res = .ok t ∨ ∃ c, res = .error c ∧ t = s.takeFault c (encodeWord i) := by
  cases res with
  | ok u => exact .inl (by simpa [conclude] using h)
  | error c => exact .inr ⟨c, rfl, by simpa [conclude, eq_comm] using h⟩

@[simp] theorem conclude_ok (i : Instr) (s t : State) : conclude i s (.ok t) = .next t := rfl

@[simp] theorem conclude_error (i : Instr) (s : State) (c : Cause) :
    conclude i s (.error c) = .next (s.takeFault c (encodeWord i)) := rfl

/-- A command that does not complete normally raises a cause; it never stops the machine. -/
theorem conclude_is_next (i : Instr) (s : State) (res : Checked State) : ∃ t, conclude i s res = .next t := by
  cases res <;> exact ⟨_, rfl⟩

/-- What every repetition keeps, the loop keeps. -/
theorem repeatTimes_keeps {P : State → Prop} {f : State → Checked State}
    (hf : ∀ s t, P s → f s = .ok t → P t) : ∀ n s t, P s → repeatTimes f n s = .ok t → P t
  | 0, s, t, hs, h => by cases h; exact hs
  | n + 1, s, t, hs, h => by
    obtain ⟨u, hu, ht⟩ := bind_eq_ok.1 h
    exact repeatTimes_keeps hf n u t (hf s u hs hu) ht

/-- A cause the loop raises is one the body raises in a state the loop reaches. -/
theorem repeatTimes_error {P : State → Prop} {f : State → Checked State} {c : Cause}
    (hf : ∀ s t, P s → f s = .ok t → P t) (hc : ∀ s, P s → f s ≠ .error c) :
    ∀ n s, P s → repeatTimes f n s ≠ .error c
  | 0, s, _, h => by cases h
  | n + 1, s, hs, h => by
    rcases bind_eq_error.1 h with h | ⟨u, hu, ht⟩
    · exact hc s hs h
    · exact repeatTimes_error hf hc n u (hf s u hs hu) ht

/-- One step accepts the next event, and only takes it off the list where there is none. -/
theorem step_cases (s : State) :
    (s.input = [] ∧ step s = .next s) ∨
    (∃ rest, s.input = .reset :: rest ∧ step s = .next { State.reset with input := rest }) ∨
    (∃ cw dw rest, s.input = .command cw dw :: rest ∧ step s = acceptCommand cw dw { s with input := rest }) := by
  unfold step acceptNext
  cases h : s.input with
  | nil => simp
  | cons e rest => cases e <;> simp [acceptEvent, State.resetByHost]

/-- A command presented is ignored while faulted, faults when its word is illegal, and runs otherwise. -/
theorem acceptCommand_cases (cw : CmdWord) (dw : DataWord) (s : State) :
    (s.fault = true ∧ acceptCommand cw dw s = .next s) ∨
    (s.fault = false ∧ ∃ e, decode cw dw = .error e ∧
      acceptCommand cw dw s = .next (s.takeFault .illegalCommand cw)) ∨
    (s.fault = false ∧ ∃ i, decode cw dw = .ok i ∧ acceptCommand cw dw s = exec i s) := by
  unfold acceptCommand
  cases hf : s.fault with
  | true => simp
  | false => cases hd : decode cw dw <;> simp

end Sys2Proof.Machine
end

