-- ==== Sys2Proof/Laws/BitVector.lean ====
section
/-! SUPPORT. What each pure function of the bit-vector unit answers, position by position, and when it raises. -/

namespace Sys2Proof.Machine

/-! ### Positions -/

theorem bitOf_eq (x : BV) (p : Nat) : bitOf x p = (x.at p).toNat := by
  simp [bitOf, BV.at, Nat.toNat_testBit, Nat.shiftRight_eq_div_pow, Nat.and_one_is_mod]

theorem bitOf_lt (x : BV) (p : Nat) : bitOf x p < 2 := by
  rw [bitOf_eq]; cases x.at p <;> decide

/-- A fitting value has no bit above its width. -/
theorem testBit_eq_false_of_fits {x : BV} (h : x.Fits) {j : Nat} (hj : x.w ≤ j) : x.v.testBit j = false :=
  Nat.testBit_lt_two_pow (Nat.lt_of_lt_of_le h.2.2 (Nat.pow_le_pow_right (by decide) hj))

/-- The bit at index `j` is the bit at position `w - j`. -/
theorem testBit_eq_at {x : BV} {j : Nat} (hj : j < x.w) : x.v.testBit j = x.at (x.w - j) := by
  unfold BV.at; congr 1; omega

/-- Two fitting values of one width that agree at every position are equal. -/
theorem bv_ext {x y : BV} (hx : x.Fits) (hy : y.Fits) (hw : x.w = y.w)
    (h : ∀ q, 1 ≤ q → q ≤ x.w → x.at q = y.at q) : x = y := by
  obtain ⟨xw, xv⟩ := x; obtain ⟨yw, yv⟩ := y
  change xw = yw at hw; subst hw
  congr 1
  apply Nat.eq_of_testBit_eq
  intro j
  by_cases hj : j < xw
  · have := h (xw - j) (by omega) (Nat.sub_le _ _)
    rwa [← testBit_eq_at (x := ⟨xw, xv⟩) hj, ← testBit_eq_at (x := ⟨xw, yv⟩) hj] at this
  · rw [testBit_eq_false_of_fits hx (by simp only; omega), testBit_eq_false_of_fits hy (by simp only; omega)]

/-- A value is below `2^w` when no bit at or above index `w` is set. -/
theorem lt_two_pow_of_bits {v w : Nat} (h : ∀ j, w ≤ j → v.testBit j = false) : v < 2 ^ w :=
  Nat.lt_pow_two_of_testBit v h

/-! ### construct, get, set -/

theorem construct_eq_ok {value width : Nat} {x : BV} :
    construct value width = .ok x ↔ BV.Fits ⟨width, value⟩ ∧ x = ⟨width, value⟩ := by
  unfold construct BV.Fits
  simp only [Config.maxWidth]
  split
  · simp; omega
  · split
    · simp; omega
    · simp only [Except.ok.injEq]
      constructor
      · rintro rfl; exact ⟨⟨by omega, by omega, by omega⟩, rfl⟩
      · rintro ⟨-, rfl⟩; rfl

theorem construct_eq_error {value width : Nat} {c : Cause} :
    construct value width = .error c ↔ ¬ BV.Fits ⟨width, value⟩ ∧ c = .widthViolation := by
  unfold construct BV.Fits
  simp only [Config.maxWidth]
  split
  · simp [eq_comm]; omega
  · split
    · simp [eq_comm]; omega
    · simp; omega

theorem getBit_eq_ok {x : BV} {pos b : Nat} :
    getBit x pos = .ok b ↔ (1 ≤ pos ∧ pos ≤ x.w) ∧ b = (x.at pos).toNat := by
  unfold getBit
  split
  · simp; omega
  · simp only [bitOf_eq, Except.ok.injEq]
    constructor
    · rintro rfl; exact ⟨by omega, rfl⟩
    · exact fun h => h.2.symm

theorem getBit_eq_error {x : BV} {pos : Nat} {c : Cause} :
    getBit x pos = .error c ↔ ¬ (1 ≤ pos ∧ pos ≤ x.w) ∧ c = .indexOutOfRange := by
  unfold getBit
  split
  · simp [eq_comm]; omega
  · simp; omega

theorem getBit_of_mem {x : BV} {pos : Nat} (h1 : 1 ≤ pos) (h2 : pos ≤ x.w) :
    getBit x pos = .ok (x.at pos).toNat := getBit_eq_ok.2 ⟨⟨h1, h2⟩, rfl⟩

/-- The value of `set`, bit index by bit index. -/
theorem setBit_testBit (v k b : Nat) (hb : b < 2) (j : Nat) :
    (v - ((v >>> k) &&& 1) * (1 <<< k) + b * (1 <<< k)).testBit j =
      if j = k then decide (b = 1) else v.testBit j := by
  have h1 : (v >>> k) &&& 1 = v / 2 ^ k % 2 := by
    rw [Nat.and_one_is_mod, Nat.shiftRight_eq_div_pow]
  have h2 : (1 : Nat) <<< k = 2 ^ k := by simp [Nat.shiftLeft_eq]
  rw [h1, h2]
  have hdecomp : v = 2 ^ (k + 1) * (v / 2 ^ (k + 1)) + (v / 2 ^ k % 2 * 2 ^ k + v % 2 ^ k) := by
    have e1 := Nat.div_add_mod v (2 ^ k)
    have e2 := Nat.div_add_mod (v / 2 ^ k) 2
    have e3 : v / 2 ^ (k + 1) = v / 2 ^ k / 2 := by rw [Nat.pow_succ, Nat.div_div_eq_div_mul]
    rw [e3, Nat.pow_succ]
    calc v = 2 ^ k * (v / 2 ^ k) + v % 2 ^ k := e1.symm
      _ = 2 ^ k * (2 * (v / 2 ^ k / 2) + v / 2 ^ k % 2) + v % 2 ^ k := by rw [e2]
      _ = _ := by ring
  set hi := v / 2 ^ (k + 1)
  set old := v / 2 ^ k % 2 with hold
  set lo := v % 2 ^ k with hlo
  have hlt : lo < 2 ^ k := Nat.mod_lt _ (Nat.two_pow_pos k)
  have hnew : v - old * 2 ^ k + b * 2 ^ k = 2 ^ (k + 1) * hi + (2 ^ k * b + lo) := by
    rw [Nat.mul_comm (2 ^ k) b]; omega
  have hv : v = 2 ^ (k + 1) * hi + (2 ^ k * old + lo) := by rw [Nat.mul_comm (2 ^ k) old]; omega
  have hbl : ∀ c, c < 2 → 2 ^ k * c + lo < 2 ^ (k + 1) := by
    intro c hc
    have : 2 ^ k * c ≤ 2 ^ k * 1 := Nat.mul_le_mul_left _ (by omega)
    rw [Nat.pow_succ]; omega
  have hold2 : old < 2 := Nat.mod_lt _ (by decide)
  rw [hnew, Nat.testBit_two_pow_mul_add _ (hbl b hb)]
  rw [hv, Nat.testBit_two_pow_mul_add _ (hbl old hold2)]
  rw [Nat.testBit_two_pow_mul_add _ hlt, Nat.testBit_two_pow_mul_add _ hlt]
  by_cases hjk : j = k
  · subst hjk
    have : b = 0 ∨ b = 1 := by omega
    rcases this with rfl | rfl <;> simp
  · by_cases hlt' : j < k
    · simp [hjk, hlt', Nat.lt_succ_of_lt hlt']
    · have h3 : ¬ j < k + 1 := by omega
      simp [hjk, h3]

theorem setBit_of_mem {x : BV} (hx : x.Fits) {pos b : Nat} (h1 : 1 ≤ pos) (h2 : pos ≤ x.w) (hb : b < 2) :
    ∃ y, setBit x pos b = .ok y ∧ y.w = x.w ∧ y.Fits ∧
      ∀ q, 1 ≤ q → q ≤ x.w → y.at q = if q = pos then decide (b = 1) else x.at q := by
  refine ⟨⟨x.w, x.v - bitOf x pos * (1 <<< (x.w - pos)) + b * (1 <<< (x.w - pos))⟩,
    by unfold setBit; rw [if_neg (by omega)], rfl, ⟨hx.1, hx.2.1, ?_⟩, ?_⟩
  · apply lt_two_pow_of_bits
    intro j hj
    change x.w ≤ j at hj
    simp only [bitOf]
    rw [setBit_testBit _ _ _ hb, if_neg (by omega)]
    exact testBit_eq_false_of_fits hx hj
  · intro q hq1 hq2
    simp only [BV.at, bitOf]
    rw [setBit_testBit _ _ _ hb]
    congr 1
    simp only [eq_iff_iff]; omega

theorem setBit_eq_error {x : BV} {pos b : Nat} {c : Cause} :
    setBit x pos b = .error c ↔ ¬ (1 ≤ pos ∧ pos ≤ x.w) ∧ c = .indexOutOfRange := by
  unfold setBit
  split
  · simp [eq_comm]; omega
  · simp; omega

/-! ### range, split, concat -/

theorem testBit_and_mask (v n j : Nat) : (v &&& mask n).testBit j = (decide (j < n) && v.testBit j) := by
  rw [mask, Nat.testBit_and, Nat.testBit_two_pow_sub_one, Bool.and_comm]

theorem range_of_bounds {x : BV} (hx : x.Fits) {first last : Nat} (h0 : 0 < first) (h1 : first < last)
    (h2 : last ≤ x.w) :
    ∃ y, range x first last = .ok y ∧ y.w = last - first + 1 ∧ y.Fits ∧
      ∀ q, 1 ≤ q → q ≤ last - first + 1 → y.at q = x.at (first + q - 1) := by
  refine ⟨_, by unfold range; rw [if_neg (by omega), if_neg (by omega), if_neg (by omega)], rfl, ?_, ?_⟩
  · refine ⟨by simp, by have := hx.2.1; simp; omega, lt_two_pow_of_bits ?_⟩
    intro j hj
    simp only at hj
    rw [testBit_and_mask]
    simp only [Bool.and_eq_false_iff, decide_eq_false_iff_not]; left; omega
  · intro q hq1 hq2
    simp only [BV.at]
    rw [testBit_and_mask, Nat.testBit_shiftRight]
    have h3 : last - first + 1 - q < last - first + 1 := by omega
    simp only [h3, decide_true, Bool.true_and]
    congr 1; omega

theorem range_eq_error {x : BV} {first last : Nat} {c : Cause} :
    range x first last = .error c ↔ ¬ (0 < first ∧ first < last ∧ last ≤ x.w) ∧ c = .rangeViolation := by
  unfold range
  split
  · simp [eq_comm]; omega
  · split
    · simp [eq_comm]; omega
    · split
      · simp [eq_comm]; omega
      · simp; omega

theorem split_of_bounds {x : BV} (hx : x.Fits) {mid : Nat} (h1 : 1 ≤ mid) (h2 : mid < x.w) :
    ∃ hi lo, split x mid = .ok (hi, lo) ∧ hi.w = mid ∧ lo.w = x.w - mid ∧ hi.Fits ∧ lo.Fits ∧
      (∀ q, 1 ≤ q → q ≤ mid → hi.at q = x.at q) ∧
      (∀ q, 1 ≤ q → q ≤ x.w - mid → lo.at q = x.at (mid + q)) := by
  have hw := hx.2.1
  refine ⟨_, _, by unfold split; rw [if_neg (by omega)], rfl, rfl, ⟨h1, by simp only; omega, ?_⟩,
    ⟨by simp only; omega, by simp only; omega, ?_⟩, ?_, ?_⟩
  · apply lt_two_pow_of_bits
    intro j hj
    simp only at hj ⊢
    rw [Nat.testBit_shiftRight]
    exact testBit_eq_false_of_fits hx (by omega)
  · apply lt_two_pow_of_bits
    intro j hj
    simp only at hj ⊢
    rw [testBit_and_mask]
    simp only [Bool.and_eq_false_iff, decide_eq_false_iff_not]; left; omega
  · intro q hq1 hq2
    simp only [BV.at]
    rw [Nat.testBit_shiftRight]
    congr 1; omega
  · intro q hq1 hq2
    simp only [BV.at]
    rw [testBit_and_mask]
    have h3 : x.w - mid - q < x.w - mid := by omega
    simp only [h3, decide_true, Bool.true_and]
    congr 1; omega

theorem split_eq_error {x : BV} {mid : Nat} {c : Cause} :
    split x mid = .error c ↔ ¬ (1 ≤ mid ∧ mid < x.w) ∧ c = .splitViolation := by
  unfold split
  split
  · simp [eq_comm]; omega
  · simp; omega

theorem concat_of_bound {a b : BV} (ha : a.Fits) (hb : b.Fits) (h : a.w + b.w ≤ 64) :
    ∃ y, concat a b = .ok y ∧ y.w = a.w + b.w ∧ y.Fits ∧
      ∀ q, 1 ≤ q → q ≤ a.w + b.w → y.at q = if q ≤ a.w then a.at q else b.at (q - a.w) := by
  refine ⟨_, by unfold concat; rw [if_neg (by simpa using h)], rfl, ⟨by have := ha.1; simp only; omega, h, ?_⟩, ?_⟩
  · apply lt_two_pow_of_bits
    intro j hj
    simp only at hj ⊢
    rw [Nat.testBit_or, Nat.testBit_shiftLeft, testBit_eq_false_of_fits hb (by omega)]
    simp only [Bool.or_false, Bool.and_eq_false_iff]
    right; exact testBit_eq_false_of_fits ha (by omega)
  · intro q hq1 hq2
    simp only [BV.at]
    rw [Nat.testBit_or, Nat.testBit_shiftLeft]
    by_cases hq : q ≤ a.w
    · have h1 : a.w + b.w - q ≥ b.w := by omega
      rw [testBit_eq_false_of_fits hb h1]
      simp only [hq, if_true, h1, decide_true, Bool.true_and, Bool.or_false]
      congr 1; omega
    · have h1 : ¬ a.w + b.w - q ≥ b.w := by omega
      simp only [hq, if_false, h1, decide_false, Bool.false_and, Bool.false_or]
      congr 1; omega

theorem concat_eq_error {a b : BV} {c : Cause} :
    concat a b = .error c ↔ ¬ a.w + b.w ≤ 64 ∧ c = .concatOverflow := by
  unfold concat
  simp only [Config.maxWidth]
  split
  · simp [eq_comm]; omega
  · simp; omega

/-! ### rotl -/

@[simp] theorem rotl_w (x : BV) (n : Nat) : (rotl x n).w = x.w := rfl

theorem rotl_fits {x : BV} (hx : x.Fits) (n : Nat) : (rotl x n).Fits := by
  refine ⟨hx.1, hx.2.1, lt_two_pow_of_bits ?_⟩
  intro j hj
  simp only [rotl] at hj ⊢
  rw [testBit_and_mask]
  simp only [Bool.and_eq_false_iff, decide_eq_false_iff_not]; left; omega

theorem rotl_at {x : BV} (hx : x.Fits) (n : Nat) {q : Nat} (h1 : 1 ≤ q) (h2 : q ≤ x.w) :
    (rotl x n).at q = x.at ((q - 1 + n) % x.w + 1) := by
  have hw := hx.1
  have hk : n % x.w < x.w := Nat.mod_lt _ (by omega)
  have hmod : (q - 1 + n) % x.w = (q - 1 + n % x.w) % x.w := by simp
  simp only [rotl, BV.at]
  rw [testBit_and_mask, Nat.testBit_or, Nat.testBit_shiftLeft, Nat.testBit_shiftRight, hmod]
  have h3 : x.w - q < x.w := by omega
  simp only [h3, decide_true, Bool.true_and]
  by_cases hc : q - 1 + n % x.w < x.w
  · rw [Nat.mod_eq_of_lt hc]
    have h4 : x.w - q ≥ n % x.w := by omega
    rw [testBit_eq_false_of_fits hx (j := x.w - n % x.w + (x.w - q)) (by omega)]
    simp only [h4, decide_true, Bool.true_and, Bool.or_false]
    congr 1; omega
  · have h5 : (q - 1 + n % x.w) % x.w = q - 1 + n % x.w - x.w := by
      rw [Nat.mod_eq_sub_mod (Nat.le_of_not_lt hc), Nat.mod_eq_of_lt (by omega)]
    rw [h5]
    have h4 : ¬ x.w - q ≥ n % x.w := by omega
    simp only [h4, decide_false, Bool.false_and, Bool.false_or]
    congr 1; omega

/-! ### permute -/

theorem gather_of_mem {x : BV} : ∀ {t : List Nat}, (∀ p ∈ t, 1 ≤ p ∧ p ≤ x.w) →
    ∃ v, gather x t = .ok v ∧ v < 2 ^ t.length ∧
      ∀ i (h : i < t.length), v.testBit (t.length - 1 - i) = x.at t[i]
  | [], _ => ⟨0, rfl, by decide, by simp⟩
  | p :: t, ht => by
    obtain ⟨v, hv, hlt, hbits⟩ := gather_of_mem (x := x) (t := t) fun p hp => ht p (List.mem_cons_of_mem _ hp)
    obtain ⟨hp1, hp2⟩ := ht p List.mem_cons_self
    refine ⟨((x.at p).toNat <<< t.length) + v, ?_, ?_, ?_⟩
    · simp [gather, getBit_of_mem hp1 hp2, hv]
    · have : (x.at p).toNat ≤ 1 := by cases x.at p <;> decide
      have : (x.at p).toNat * 2 ^ t.length ≤ 1 * 2 ^ t.length := Nat.mul_le_mul_right _ this
      rw [Nat.shiftLeft_eq, List.length_cons, Nat.pow_succ]; omega
    · intro i hi
      rw [Nat.shiftLeft_eq, Nat.mul_comm, Nat.testBit_two_pow_mul_add _ hlt]
      cases i with
      | zero =>
        simp only [List.length_cons, Nat.add_sub_cancel, Nat.sub_zero, lt_irrefl, if_false, Nat.sub_self,
          List.getElem_cons_zero]
        cases x.at p <;> decide
      | succ i =>
        simp only [List.length_cons] at hi
        have h1 : t.length + 1 - 1 - (i + 1) < t.length := by omega
        simp only [List.length_cons, h1, if_true, List.getElem_cons_succ]
        rw [← hbits i (by omega)]
        congr 1; omega

theorem gather_eq_error {x : BV} {c : Cause} : ∀ {t : List Nat},
    gather x t = .error c ↔ (∃ p ∈ t, ¬ (1 ≤ p ∧ p ≤ x.w)) ∧ c = .indexOutOfRange
  | [] => by simp [gather]
  | p :: t => by
    by_cases hp : 1 ≤ p ∧ p ≤ x.w
    · have ih := gather_eq_error (x := x) (c := c) (t := t)
      simp only [gather, getBit_of_mem hp.1 hp.2, ok_bind, bind_eq_error, ih]
      constructor
      · rintro (⟨⟨r, hr, hb⟩, hc⟩ | ⟨a, _, h⟩)
        · exact ⟨⟨r, List.mem_cons_of_mem _ hr, hb⟩, hc⟩
        · cases h
      · rintro ⟨⟨r, hr, hb⟩, hc⟩
        rcases List.mem_cons.1 hr with rfl | hr
        · exact absurd hp hb
        · exact .inl ⟨⟨r, hr, hb⟩, hc⟩
    · have : getBit x p = .error .indexOutOfRange := getBit_eq_error.2 ⟨hp, rfl⟩
      simp only [gather, this, error_bind, Except.error.injEq]
      constructor
      · rintro rfl; exact ⟨⟨p, List.mem_cons_self, hp⟩, rfl⟩
      · exact fun h => h.2.symm

theorem permute_of_mem {x : BV} {t : List Nat} (h1 : 1 ≤ t.length) (h2 : t.length ≤ 64)
    (ht : ∀ p ∈ t, 1 ≤ p ∧ p ≤ x.w) :
    ∃ y, permute x t = .ok y ∧ y.w = t.length ∧ y.Fits ∧
      ∀ q (_ : 1 ≤ q) (_ : q ≤ t.length), y.at q = x.at (t.getD (q - 1) 0) := by
  obtain ⟨v, hv, hlt, hbits⟩ := gather_of_mem ht
  refine ⟨⟨t.length, v⟩, ?_, rfl, ⟨h1, h2, hlt⟩, ?_⟩
  · unfold permute
    rw [if_neg (by simp only [Config.maxWidth]; omega), hv]; rfl
  · intro q hq1 hq2
    have hb := hbits (q - 1) (by omega)
    rw [show t.getD (q - 1) 0 = t[q - 1]'(by omega) by simp [List.getD, List.getElem?_eq_getElem (show q - 1 < t.length by omega)], ← hb]
    simp only [BV.at]
    congr 1; omega

theorem permute_eq_error {x : BV} {t : List Nat} {c : Cause} :
    permute x t = .error c ↔ (¬ (1 ≤ t.length ∧ t.length ≤ 64) ∧ c = .widthViolation) ∨
      ((1 ≤ t.length ∧ t.length ≤ 64) ∧ (∃ p ∈ t, ¬ (1 ≤ p ∧ p ≤ x.w)) ∧ c = .indexOutOfRange) := by
  unfold permute
  simp only [Config.maxWidth]
  split
  · rename_i h
    simp only [Except.error.injEq]
    constructor
    · rintro rfl; exact .inl ⟨by omega, rfl⟩
    · rintro (⟨_, rfl⟩ | ⟨h', _⟩)
      · rfl
      · omega
  · rename_i h
    rw [bind_eq_error, gather_eq_error]
    constructor
    · rintro (h' | ⟨a, _, h'⟩)
      · exact .inr ⟨by omega, h'⟩
      · cases h'
    · rintro (⟨h', _⟩ | ⟨_, h'⟩)
      · omega
      · exact .inl h'

/-! ### dot, xor -/

theorem onesBelow_lt_two_pow : ∀ {m n : Nat} (d : Nat), n < 2 ^ m → onesBelow (m + d) n = onesBelow m n
  | 0, n, d, h => by
    have : n = 0 := by simpa using h
    subst this
    induction d with
    | zero => rfl
    | succ d ih => simpa [onesBelow] using ih
  | m + 1, n, d, h => by
    have : n / 2 < 2 ^ m := by rw [Nat.pow_succ] at h; omega
    rw [show m + 1 + d = (m + d) + 1 by omega]
    simp only [onesBelow]
    rw [onesBelow_lt_two_pow d this]

theorem popcount_eq_onesBelow {n m : Nat} (h : n < 2 ^ m) : popcount n = onesBelow m n := by
  have hl : n < 2 ^ (n.log2 + 1) := Nat.lt_log2_self
  unfold popcount
  rcases Nat.le_total (n.log2 + 1) m with hle | hle
  · obtain ⟨d, rfl⟩ := Nat.exists_eq_add_of_le hle
    exact (onesBelow_lt_two_pow d hl).symm
  · obtain ⟨d, hd⟩ := Nat.exists_eq_add_of_le hle
    rw [hd]; exact onesBelow_lt_two_pow d h

/-- The 1 bits among the lowest `m` are counted index by index. -/
theorem onesBelow_eq_countP (m n : Nat) : onesBelow m n = (List.range m).countP fun j => n.testBit j := by
  induction m generalizing n with
  | zero => rfl
  | succ m ih =>
    rw [List.range_succ_eq_map, List.countP_cons, List.countP_map]
    simp only [onesBelow, ih, Function.comp_def, Nat.testBit_succ]
    rw [Nat.testBit_zero]
    rcases Nat.mod_two_eq_zero_or_one n with h | h <;> simp [h, Nat.add_comm]

theorem dot_eq_ok {a b : BV} {d : Nat} : dot a b = .ok d ↔ a.w = b.w ∧ d = popcount (a.v &&& b.v) % 2 := by
  unfold dot; split <;> simp_all [eq_comm]

theorem dot_eq_error {a b : BV} {c : Cause} : dot a b = .error c ↔ a.w ≠ b.w ∧ c = .widthMismatch := by
  unfold dot; split <;> simp_all [eq_comm]

theorem xorBV_of_width {a b : BV} (ha : a.Fits) (hb : b.Fits) (h : a.w = b.w) :
    ∃ y, xorBV a b = .ok y ∧ y.w = a.w ∧ y.v = a.v ^^^ b.v ∧ y.Fits ∧
      ∀ q, 1 ≤ q → q ≤ a.w → y.at q = (a.at q ^^ b.at q) := by
  refine ⟨⟨a.w, a.v ^^^ b.v⟩, by unfold xorBV; rw [if_neg (by simpa using h)], rfl, rfl, ⟨ha.1, ha.2.1, ?_⟩, ?_⟩
  · exact Nat.xor_lt_two_pow ha.2.2 (h ▸ hb.2.2)
  · intro q _ _
    simp [BV.at, Nat.testBit_xor, h]

theorem xorBV_eq_error {a b : BV} {c : Cause} : xorBV a b = .error c ↔ a.w ≠ b.w ∧ c = .widthMismatch := by
  unfold xorBV; split <;> simp_all [eq_comm]

end Sys2Proof.Machine
end

