-- ==== Sys2Proof/Laws/Tables.lean ====
section
/-! SUPPORT. The facts about the constant tables that the rules rest on: lengths and ranges of the entries
(20_memory.md R52 to R61), and the guard of R70. -/

namespace Sys2Proof.Machine

@[simp] theorem tableIP_length : tableIP.length = 64 := by decide
@[simp] theorem tableFP_length : tableFP.length = 64 := by decide
@[simp] theorem tableE_length : tableE.length = 48 := by decide
@[simp] theorem tableP_length : tableP.length = 32 := by decide
@[simp] theorem tablePC1_length : tablePC1.length = 56 := by decide
@[simp] theorem tablePC2_length : tablePC2.length = 48 := by decide

theorem tableIP_range : ∀ p ∈ tableIP, 1 ≤ p ∧ p ≤ 64 := by decide
theorem tableFP_range : ∀ p ∈ tableFP, 1 ≤ p ∧ p ≤ 64 := by decide
theorem tableE_range : ∀ p ∈ tableE, 1 ≤ p ∧ p ≤ 32 := by decide
theorem tableP_range : ∀ p ∈ tableP, 1 ≤ p ∧ p ≤ 32 := by decide
theorem tablePC1_range : ∀ p ∈ tablePC1, 1 ≤ p ∧ p ≤ 64 := by decide
theorem tablePC2_range : ∀ p ∈ tablePC2, 1 ≤ p ∧ p ≤ 56 := by decide

/-- Every substitution entry is a 4-bit value (R61, R70 g). -/
theorem sbox_lt : ∀ j < 9, ∀ row < 4, ∀ col < 16, sbox j row col < 16 := by decide +kernel

/-- Every table a table id names has at most 64 entries, if the user table has. -/
theorem table_length_le {s : State} {tid : Imm} {t : List Nat} (h : s.table tid = .ok t) (hut : s.utlen ≤ 64) :
    t.length ≤ 64 := by
  rcases table_eq_ok h with ⟨-, rfl⟩ | ⟨-, rfl | rfl | rfl | rfl | rfl | rfl⟩
  · simpa [State.utlen] using hut
  all_goals simp

/-! ### The guard of R70 -/

/-- The model's transcription of the tables passes the checks R70 (a) to (g). -/
theorem tableFacts_hold : tableFacts = true := by decide +kernel

/-- What `restores` says, entry by entry. -/
theorem restores_iff {s t : List Nat} :
    restores s t = true ↔ ∀ i < t.length, s.getD (t.getD i 0 - 1) 0 = i + 1 := by
  simp [restores]

/-- A table after one that it restores gives every value back: the law of R70 (a) and R142 (a), for any two tables of
one length that are inverse entry by entry. -/
theorem permute_restores {s t : List Nat} {x : BV} (hx : x.Fits) (hs : s.length = x.w) (ht : t.length = x.w)
    (hsr : ∀ p ∈ s, 1 ≤ p ∧ p ≤ x.w) (htr : ∀ p ∈ t, 1 ≤ p ∧ p ≤ x.w) (h : restores s t = true) :
    ∃ y, permute x s = .ok y ∧ permute y t = .ok x := by
  have h1 := hx.1
  have h2 := hx.2.1
  obtain ⟨y, hy, hyw, -, hyat⟩ := permute_of_mem (x := x) (by omega) (by omega) hsr
  obtain ⟨z, hz, hzw, hzf, hzat⟩ := permute_of_mem (x := y) (t := t) (by omega) (by omega)
    (fun p hp => by have := htr p hp; omega)
  refine ⟨y, hy, ?_⟩
  rw [hz, bv_ext hzf hx (by omega) fun q hq hq' => ?_]
  have hmem : t.getD (q - 1) 0 ∈ t := by
    rw [List.getD_eq_getElem _ _ (by omega : q - 1 < t.length)]; exact List.getElem_mem _
  have hr := htr _ hmem
  rw [hzat q hq (by omega), hyat _ hr.1 (by omega), restores_iff.1 h (q - 1) (by omega)]
  congr 1; omega

end Sys2Proof.Machine
end

