-- ==== Sys2Proof/Laws/Pipeline.lean ====
section
/-! SUPPORT. The key schedule, the round function and the cipher on arguments of the stated widths: none of them
raises (42_keyschedule.md R160, 43_roundfunction.md R181 to R183, 44_cipher.md R200), and what each answers. -/

namespace Sys2Proof.Machine

/-! ### Key schedule -/

theorem ksLoad_of_width {key : BV} (hw : key.w = 64) :
    ∃ cd, ksLoad key = .ok cd ∧ cd.Fits ∧ cd.w = 56 ∧
      ∀ q, 1 ≤ q → q ≤ 56 → cd.at q = key.at (tablePC1.getD (q - 1) 0) := by
  obtain ⟨y, hy, hyw, hyf, hat⟩ := permute_of_mem (x := key) (t := tablePC1) (by simp) (by simp)
    (by rw [hw]; exact tablePC1_range)
  exact ⟨y, hy, hyf, by simpa using hyw, fun q h1 h2 => hat q h1 (by simpa using h2)⟩

/-- One iteration: both halves rotate by `Shift(i)`, each within its own 28 positions, and the subkey is taken
after the rotation (R160). -/
theorem ksNext_of_width {cd : BV} (hf : cd.Fits) (hw : cd.w = 56) (i : Nat) :
    ∃ c d cd' k, split cd 28 = .ok (c, d) ∧ concat (rotl c (shift i)) (rotl d (shift i)) = .ok cd' ∧
      permute cd' tablePC2 = .ok k ∧ ksNext cd i = .ok (cd', k) ∧
      (c.Fits ∧ c.w = 28) ∧ (d.Fits ∧ d.w = 28) ∧ (cd'.Fits ∧ cd'.w = 56) ∧ (k.Fits ∧ k.w = 48) := by
  obtain ⟨c, d, hs, hcw, hdw, hcf, hdf, -, -⟩ := split_of_bounds hf (mid := 28) (by decide) (by omega)
  rw [hw] at hdw
  obtain ⟨cd', hc, hcdw, hcdf, -⟩ := concat_of_bound (rotl_fits hcf (shift i)) (rotl_fits hdf (shift i))
    (by simp [hcw, hdw])
  simp only [rotl_w, hcw, hdw] at hcdw
  obtain ⟨k, hk, hkw, hkf, -⟩ := permute_of_mem (x := cd') (t := tablePC2) (by simp) (by simp)
    (by rw [hcdw]; exact tablePC2_range)
  refine ⟨c, d, cd', k, hs, hc, hk, ?_, ⟨hcf, hcw⟩, ⟨hdf, by simpa using hdw⟩, ⟨hcdf, by simpa using hcdw⟩,
    ⟨hkf, by simpa using hkw⟩⟩
  simp [ksNext, hs, hc, hk]

theorem ksNext_ok {cd : BV} (hf : cd.Fits) (hw : cd.w = 56) (i : Nat) :
    ∃ cd' k, ksNext cd i = .ok (cd', k) ∧ (cd'.Fits ∧ cd'.w = 56) ∧ (k.Fits ∧ k.w = 48) := by
  obtain ⟨-, -, cd', k, -, -, -, h, -, -, h1, h2⟩ := ksNext_of_width hf hw i
  exact ⟨cd', k, h, h1, h2⟩

/-! ### Substitution and round function -/

theorem sbox6_of_width {c : BV} (hf : c.Fits) (hw : c.w = 6) {j : Nat} (hj : j < 9) :
    ∃ mid, range c 2 5 = .ok mid ∧ mid.v < 16 ∧
      sbox6 c j = .ok ⟨4, sbox j (2 * (c.at 1).toNat + (c.at 6).toNat) mid.v⟩ ∧
      BV.Fits ⟨4, sbox j (2 * (c.at 1).toNat + (c.at 6).toNat) mid.v⟩ := by
  obtain ⟨mid, hm, hmw, hmf, -⟩ := range_of_bounds hf (first := 2) (last := 5) (by decide) (by decide) (by omega)
  have hlt : mid.v < 16 := by have := hmf.2.2; rw [hmw] at this; simpa using this
  refine ⟨mid, hm, hlt, ?_, by show 1 ≤ 4; decide, by show 4 ≤ 64; decide, ?_⟩
  · simp [sbox6, getBit_of_mem (x := c) (pos := 1) (by decide) (by omega),
      getBit_of_mem (x := c) (pos := 6) (by decide) (by omega), hm]
  · exact sbox_lt j hj _ (by cases c.at 1 <;> cases c.at 6 <;> decide) _ hlt

theorem sboxChunk_of_width {x : BV} (hf : x.Fits) (hw : x.w = 48) {j : Nat} (h1 : 1 ≤ j) (h2 : j ≤ 8) :
    ∃ o, sboxChunk x j = .ok o ∧ o.Fits ∧ o.w = 4 := by
  obtain ⟨c, hc, hcw, hcf, -⟩ := range_of_bounds hf (first := 6 * (j - 1) + 1) (last := 6 * j) (by omega) (by omega)
    (by omega)
  obtain ⟨mid, -, -, ho, hof⟩ := sbox6_of_width hcf (by omega) (j := j) (by omega)
  exact ⟨_, by simp [sboxChunk, hc, ho], hof, rfl⟩

theorem sboxLast_of_width {x : BV} (hf : x.Fits) (hw : x.w = 48) : ∀ n ≤ 7,
    ∃ y, sboxLast x n = .ok y ∧ y.Fits ∧ y.w = 4 * (n + 1)
  | 0, _ => by
    obtain ⟨o, ho, hof, how⟩ := sboxChunk_of_width hf hw (j := 8) (by decide) (by decide)
    exact ⟨o, ho, hof, how⟩
  | n + 1, hn => by
    obtain ⟨o, ho, hof, how⟩ := sboxChunk_of_width hf hw (j := 7 - n) (by omega) (by omega)
    obtain ⟨y, hy, hyf, hyw⟩ := sboxLast_of_width hf hw n (by omega)
    obtain ⟨z, hz, hzw, hzf, -⟩ := concat_of_bound hof hyf (by omega)
    exact ⟨z, by simp [sboxLast, ho, hy, hz], hzf, by omega⟩

theorem sbox48_of_width {x : BV} (hf : x.Fits) (hw : x.w = 48) :
    ∃ y, sbox48 x = .ok y ∧ y.Fits ∧ y.w = 32 := sboxLast_of_width hf hw 7 (by decide)

theorem roundF_of_width {r k : BV} (hrw : r.w = 32) (hk : k.Fits) (hkw : k.w = 48) :
    ∃ e m t y, permute r tableE = .ok e ∧ xorBV e k = .ok m ∧ sbox48 m = .ok t ∧ permute t tableP = .ok y ∧
      roundF r k = .ok y ∧ (e.Fits ∧ e.w = 48) ∧ (m.Fits ∧ m.w = 48) ∧ (t.Fits ∧ t.w = 32) ∧ (y.Fits ∧ y.w = 32) := by
  obtain ⟨e, he, hew, hef, -⟩ := permute_of_mem (x := r) (t := tableE) (by simp) (by simp)
    (by rw [hrw]; exact tableE_range)
  simp only [tableE_length] at hew
  obtain ⟨m, hm, hmw, -, hmf, -⟩ := xorBV_of_width hef hk (by omega)
  obtain ⟨t, ht, htf, htw⟩ := sbox48_of_width hmf (by omega)
  obtain ⟨y, hy, hyw, hyf, -⟩ := permute_of_mem (x := t) (t := tableP) (by simp) (by simp)
    (by rw [htw]; exact tableP_range)
  simp only [tableP_length] at hyw
  exact ⟨e, m, t, y, he, hm, ht, hy, by simp [roundF, he, hm, ht, hy], ⟨hef, hew⟩, ⟨hmf, by omega⟩, ⟨htf, htw⟩,
    ⟨hyf, hyw⟩⟩

/-! ### Cipher -/

theorem cInit_of_width {p : BV} (hw : p.w = 64) :
    ∃ l r, cInit p = .ok (l, r) ∧ (l.Fits ∧ l.w = 32) ∧ (r.Fits ∧ r.w = 32) ∧
      (∀ q, 1 ≤ q → q ≤ 32 → l.at q = p.at (tableIP.getD (q - 1) 0)) ∧
      (∀ q, 1 ≤ q → q ≤ 32 → r.at q = p.at (tableIP.getD (32 + q - 1) 0)) := by
  obtain ⟨y, hy, hyw, hyf, hat⟩ := permute_of_mem (x := p) (t := tableIP) (by simp) (by simp)
    (by rw [hw]; exact tableIP_range)
  simp only [tableIP_length] at hyw hat
  obtain ⟨l, r, hs, hlw, hrw, hlf, hrf, hlat, hrat⟩ := split_of_bounds hyf (mid := 32) (by decide) (by omega)
  rw [hyw] at hrw hrat
  refine ⟨l, r, by simp [cInit, hy, hs], ⟨hlf, hlw⟩, ⟨hrf, by omega⟩, ?_, ?_⟩
  · intro q h1 h2
    rw [hlat q h1 h2, hat q h1 (by omega)]
  · intro q h1 h2
    rw [hrat q h1 (by omega), hat (32 + q) (by omega) (by omega)]

theorem cRound_of_width {l r k : BV} (hl : l.Fits) (hlw : l.w = 32) (hrw : r.w = 32) (hk : k.Fits) (hkw : k.w = 48) :
    ∃ m r', roundF r k = .ok m ∧ xorBV l m = .ok r' ∧ cRound l r k = .ok (r, r') ∧ (m.Fits ∧ m.w = 32) ∧
      (r'.Fits ∧ r'.w = 32) ∧ r'.v = l.v ^^^ m.v := by
  obtain ⟨-, -, -, m, -, -, -, -, hm, -, -, -, hmf, hmw⟩ := roundF_of_width hrw hk hkw
  obtain ⟨r', hr', hr'w, hr'v, hr'f, -⟩ := xorBV_of_width hl hmf (by omega)
  exact ⟨m, r', hm, hr', by simp [cRound, hm, hr'], ⟨hmf, hmw⟩, ⟨hr'f, by omega⟩, hr'v⟩

theorem cFinal_of_width {l r : BV} (hl : l.Fits) (hlw : l.w = 32) (hr : r.Fits) (hrw : r.w = 32) :
    ∃ c y, concat r l = .ok c ∧ cFinal l r = .ok y ∧ (c.Fits ∧ c.w = 64) ∧ (y.Fits ∧ y.w = 64) ∧
      ∀ q, 1 ≤ q → q ≤ 64 → y.at q = c.at (tableFP.getD (q - 1) 0) := by
  obtain ⟨c, hc, hcw, hcf, -⟩ := concat_of_bound hr hl (by omega)
  have hcw' : c.w = 64 := by omega
  obtain ⟨y, hy, hyw, hyf, hat⟩ := permute_of_mem (x := c) (t := tableFP) (by simp) (by simp)
    (by rw [hcw']; exact tableFP_range)
  simp only [tableFP_length] at hyw hat
  exact ⟨c, y, hc, by simp [cFinal, hc, hy], ⟨hcf, hcw'⟩, ⟨hyf, hyw⟩, hat⟩

end Sys2Proof.Machine
end

