-- ==== Sys2Proof/Laws/Invariant.lean ====
section
/-! SUPPORT. The invariants of 10_state.md R39, kept by each shared operation, and what the bodies of the key
schedule and cipher commands do in a state that has them. -/

namespace Sys2Proof.Machine

theorem code_bounds (c : Cause) : 1 ≤ c.code.toNat ∧ c.code.toNat ≤ 10 := by cases c <;> decide

theorem writeV_inv {s : State} (h : s.Inv) (i : VReg) {x : BV} (hx : x.Fits) : (s.writeV i x).Inv where
  regs := by
    intro j y hy
    rw [writeV_get] at hy
    split at hy
    · simp only [Option.mem_def, Option.some.injEq] at hy; exact hy ▸ hx
    · exact h.regs j y hy
  cdWidth := h.cdWidth
  knBound := h.knBound
  subkeys := h.subkeys
  knCd := h.knCd
  halves := h.halves
  lWidth := h.lWidth
  rWidth := h.rWidth
  rnBound := h.rnBound
  rnHalves := h.rnHalves
  utBound := h.utBound
  out := h.out
  faultRecord := h.faultRecord

theorem takeFault_inv {s : State} (h : s.Inv) (c : Cause) (cw : CmdWord) : (s.takeFault c cw).Inv where
  regs := h.regs
  cdWidth := h.cdWidth
  knBound := h.knBound
  subkeys := h.subkeys
  knCd := h.knCd
  halves := h.halves
  lWidth := h.lWidth
  rWidth := h.rWidth
  rnBound := h.rnBound
  rnHalves := h.rnHalves
  utBound := h.utBound
  out := h.out
  faultRecord := .inr ⟨rfl, code_bounds c⟩

/-- The list of host events is no part of the invariants. -/
theorem withInput_inv {s : State} (h : s.Inv) (es : List HostEvent) : State.Inv { s with input := es } where
  regs := h.regs
  cdWidth := h.cdWidth
  knBound := h.knBound
  subkeys := h.subkeys
  knCd := h.knCd
  halves := h.halves
  lWidth := h.lWidth
  rWidth := h.rWidth
  rnBound := h.rnBound
  rnHalves := h.rnHalves
  utBound := h.utBound
  out := h.out
  faultRecord := h.faultRecord

/-- A value a register holds in such a state fits its width. -/
theorem fits_of_get {s : State} (h : s.Inv) {i : VReg} {x : BV} (hx : s.v.get i = some x) : x.Fits :=
  h.regs i x (by simp [hx])

/-- `CD <- ks_load(key); KN <- 0`. -/
theorem loadKey_of_width (s : State) {key : BV} (hw : key.w = 64) :
    ∃ cd, ksLoad key = .ok cd ∧ cd.Fits ∧ cd.w = 56 ∧ s.loadKey key = .ok { s with cd := some cd, k := [] } := by
  obtain ⟨cd, h, hf, hcw, -⟩ := ksLoad_of_width hw
  exact ⟨cd, h, hf, hcw, by simp [State.loadKey, h]⟩

/-- One key schedule step where CD holds a 56-bit value. -/
theorem scheduleStep_of_cd (s : State) {cd : BV} (hcd : s.cd = some cd) (hf : cd.Fits) (hw : cd.w = 56) :
    ∃ cd' k, ksNext cd (s.kn + 1) = .ok (cd', k) ∧ (cd'.Fits ∧ cd'.w = 56) ∧ (k.Fits ∧ k.w = 48) ∧
      s.scheduleStep = .ok { s with cd := some cd', k := s.k ++ [k] } := by
  obtain ⟨cd', k, h, h1, h2⟩ := ksNext_ok hf hw (s.kn + 1)
  refine ⟨cd', k, h, h1, h2, ?_⟩
  simp [State.scheduleStep, readCD_eq_ok.2 hcd, h]

/-- `(L, R) <- c_init(p); RN <- 0`. -/
theorem initHalves_of_width (s : State) {p : BV} (hw : p.w = 64) :
    ∃ l r, cInit p = .ok (l, r) ∧ (l.Fits ∧ l.w = 32) ∧ (r.Fits ∧ r.w = 32) ∧
      s.initHalves p = .ok { s with l := some l, r := some r, rn := 0 } := by
  obtain ⟨l, r, h, h1, h2, -, -⟩ := cInit_of_width hw
  exact ⟨l, r, h, h1, h2, by simp [State.initHalves, h]⟩

/-- One round where L, R and the next subkey hold values of their widths. -/
theorem roundStep_of_halves (s : State) {l r k : BV} (hl : s.l = some l) (hr : s.r = some r)
    (hk : subkey s.k (s.rn + 1) = .ok k) (hlf : l.Fits) (hlw : l.w = 32) (hrw : r.w = 32) (hkf : k.Fits)
    (hkw : k.w = 48) :
    ∃ m r', roundF r k = .ok m ∧ (m.Fits ∧ m.w = 32) ∧ (r'.Fits ∧ r'.w = 32) ∧ r'.v = l.v ^^^ m.v ∧
      s.roundStep = .ok { s with l := some r, r := some r', rn := s.rn + 1 } := by
  obtain ⟨m, r', hm, -, hc, hmf, hr'f, hv⟩ := cRound_of_width hlf hlw hrw hkf hkw
  refine ⟨m, r', hm, hmf, hr'f, hv, ?_⟩
  have hlr : s.readLR = .ok (l, r) := readLR_eq_ok.2 ⟨hl, hr⟩
  simp [State.roundStep, hlr, hk, hc]

/-- `V[rd] <- c_final(L, R)`. -/
theorem finalInto_of_halves (s : State) (rd : VReg) {l r : BV} (hl : s.l = some l) (hr : s.r = some r)
    (hlf : l.Fits) (hlw : l.w = 32) (hrf : r.Fits) (hrw : r.w = 32) :
    ∃ y, cFinal l r = .ok y ∧ y.Fits ∧ y.w = 64 ∧ s.finalInto rd = .ok (s.writeV rd y) := by
  obtain ⟨-, y, -, h, -, hy, -⟩ := cFinal_of_width hlf hlw hrf hrw
  have hlr : s.readLR = .ok (l, r) := readLR_eq_ok.2 ⟨hl, hr⟩
  exact ⟨y, h, hy.1, hy.2, by simp [State.finalInto, hlr, h]⟩

end Sys2Proof.Machine
end

