-- ==== Sys2Proof/Laws/PerInstr.lean ====
section
/-! SUPPORT. Facts about every command as syntax, one lemma per constructor. EncodesItsRow: the word of a command
matches a row of the opcode map: its opcode is the row's and every must-be-zero bit is 0 (30_encoding.md R93, R97). -/

namespace Sys2Proof.Laws.EncodesItsRow

/-- The encoding of `i` matches a row of R97. -/
def Statement (i : Instr) : Prop := ∃ row ∈ opcodeTable, encodeWord i &&& row.mask = row.mtch

theorem bvNew (rd : VReg) (w : Imm) (value : DataWord) : Statement (.bvNew rd w value) := by
  refine ⟨opcodeTable[0], List.getElem_mem _, ?_⟩
  change encodeWord _ &&& 0xFF0FFF80#32 = 0x10000000#32
  apply BitVec.eq_of_getLsbD_eq
  intro i hi
  simp only [encodeWord, BitVec.getLsbD_and, BitVec.getLsbD_append]
  interval_cases i <;> simp

theorem bvRead (ra : VReg) : Statement (.bvRead ra) := by
  refine ⟨opcodeTable[1], List.getElem_mem _, ?_⟩
  change encodeWord _ &&& 0xFFF0FFFF#32 = 0x11000000#32
  apply BitVec.eq_of_getLsbD_eq
  intro i hi
  simp only [encodeWord, BitVec.getLsbD_and, BitVec.getLsbD_append]
  interval_cases i <;> simp

theorem bvGet (rd ra : VReg) (pos : Imm) : Statement (.bvGet rd ra pos) := by
  refine ⟨opcodeTable[2], List.getElem_mem _, ?_⟩
  change encodeWord _ &&& 0xFF00FF80#32 = 0x12000000#32
  apply BitVec.eq_of_getLsbD_eq
  intro i hi
  simp only [encodeWord, BitVec.getLsbD_and, BitVec.getLsbD_append]
  interval_cases i <;> simp

theorem bvSet (rd ra : VReg) (pos : Imm) (b : BitVec 1) : Statement (.bvSet rd ra pos b) := by
  refine ⟨opcodeTable[3], List.getElem_mem _, ?_⟩
  change encodeWord _ &&& 0xFF00FF00#32 = 0x13000000#32
  apply BitVec.eq_of_getLsbD_eq
  intro i hi
  simp only [encodeWord, BitVec.getLsbD_and, BitVec.getLsbD_append]
  interval_cases i <;> simp

theorem bvRange (rd ra : VReg) (first last : Imm) : Statement (.bvRange rd ra first last) := by
  refine ⟨opcodeTable[4], List.getElem_mem _, ?_⟩
  change encodeWord _ &&& 0xFF00C000#32 = 0x14000000#32
  apply BitVec.eq_of_getLsbD_eq
  intro i hi
  simp only [encodeWord, BitVec.getLsbD_and, BitVec.getLsbD_append]
  interval_cases i <;> simp

theorem bvSplit (rd re ra : VReg) (mid : Imm) : Statement (.bvSplit rd re ra mid) := by
  refine ⟨opcodeTable[5], List.getElem_mem _, ?_⟩
  change encodeWord _ &&& 0xFF000F80#32 = 0x15000000#32
  apply BitVec.eq_of_getLsbD_eq
  intro i hi
  simp only [encodeWord, BitVec.getLsbD_and, BitVec.getLsbD_append]
  interval_cases i <;> simp

theorem bvConcat (rd ra rb : VReg) : Statement (.bvConcat rd ra rb) := by
  refine ⟨opcodeTable[6], List.getElem_mem _, ?_⟩
  change encodeWord _ &&& 0xFF000FFF#32 = 0x16000000#32
  apply BitVec.eq_of_getLsbD_eq
  intro i hi
  simp only [encodeWord, BitVec.getLsbD_and, BitVec.getLsbD_append]
  interval_cases i <;> simp

theorem bvRotl (rd ra : VReg) (n : Imm) : Statement (.bvRotl rd ra n) := by
  refine ⟨opcodeTable[7], List.getElem_mem _, ?_⟩
  change encodeWord _ &&& 0xFF00FF80#32 = 0x17000000#32
  apply BitVec.eq_of_getLsbD_eq
  intro i hi
  simp only [encodeWord, BitVec.getLsbD_and, BitVec.getLsbD_append]
  interval_cases i <;> simp

theorem bvPerm (rd ra : VReg) (tid : Imm) : Statement (.bvPerm rd ra tid) := by
  refine ⟨opcodeTable[8], List.getElem_mem _, ?_⟩
  change encodeWord _ &&& 0xFF00FF80#32 = 0x18000000#32
  apply BitVec.eq_of_getLsbD_eq
  intro i hi
  simp only [encodeWord, BitVec.getLsbD_and, BitVec.getLsbD_append]
  interval_cases i <;> simp

theorem bvDot (rd ra rb : VReg) : Statement (.bvDot rd ra rb) := by
  refine ⟨opcodeTable[9], List.getElem_mem _, ?_⟩
  change encodeWord _ &&& 0xFF000FFF#32 = 0x19000000#32
  apply BitVec.eq_of_getLsbD_eq
  intro i hi
  simp only [encodeWord, BitVec.getLsbD_and, BitVec.getLsbD_append]
  interval_cases i <;> simp

theorem bvXor (rd ra rb : VReg) : Statement (.bvXor rd ra rb) := by
  refine ⟨opcodeTable[10], List.getElem_mem _, ?_⟩
  change encodeWord _ &&& 0xFF000FFF#32 = 0x1A000000#32
  apply BitVec.eq_of_getLsbD_eq
  intro i hi
  simp only [encodeWord, BitVec.getLsbD_and, BitVec.getLsbD_append]
  interval_cases i <;> simp

theorem tblClr : Statement .tblClr := ⟨opcodeTable[11], List.getElem_mem _, by decide⟩

theorem tblPush (e : Imm) : Statement (.tblPush e) := by
  refine ⟨opcodeTable[12], List.getElem_mem _, ?_⟩
  change encodeWord _ &&& 0xFFFFFF80#32 = 0x21000000#32
  apply BitVec.eq_of_getLsbD_eq
  intro i hi
  simp only [encodeWord, BitVec.getLsbD_and, BitVec.getLsbD_append]
  interval_cases i <;> simp

theorem ksLoad (ra : VReg) : Statement (.ksLoad ra) := by
  refine ⟨opcodeTable[13], List.getElem_mem _, ?_⟩
  change encodeWord _ &&& 0xFFF0FFFF#32 = 0x30000000#32
  apply BitVec.eq_of_getLsbD_eq
  intro i hi
  simp only [encodeWord, BitVec.getLsbD_and, BitVec.getLsbD_append]
  interval_cases i <;> simp

theorem ksStep : Statement .ksStep := ⟨opcodeTable[14], List.getElem_mem _, by decide⟩

theorem ksDerive (ra : VReg) (n : Count) : Statement (.ksDerive ra n) := by
  refine ⟨opcodeTable[15], List.getElem_mem _, ?_⟩
  change encodeWord _ &&& 0xFFF0FFE0#32 = 0x32000000#32
  apply BitVec.eq_of_getLsbD_eq
  intro i hi
  simp only [encodeWord, BitVec.getLsbD_and, BitVec.getLsbD_append]
  interval_cases i <;> simp

theorem ksGetk (rd : VReg) (i : Count) : Statement (.ksGetk rd i) := by
  refine ⟨opcodeTable[16], List.getElem_mem _, ?_⟩
  change encodeWord _ &&& 0xFF0FFFE0#32 = 0x33000000#32
  apply BitVec.eq_of_getLsbD_eq
  intro i hi
  simp only [encodeWord, BitVec.getLsbD_and, BitVec.getLsbD_append]
  interval_cases i <;> simp

theorem ksGetcd (rd : VReg) : Statement (.ksGetcd rd) := by
  refine ⟨opcodeTable[17], List.getElem_mem _, ?_⟩
  change encodeWord _ &&& 0xFF0FFFFF#32 = 0x34000000#32
  apply BitVec.eq_of_getLsbD_eq
  intro i hi
  simp only [encodeWord, BitVec.getLsbD_and, BitVec.getLsbD_append]
  interval_cases i <;> simp

theorem rfSbox (rd ra : VReg) : Statement (.rfSbox rd ra) := by
  refine ⟨opcodeTable[18], List.getElem_mem _, ?_⟩
  change encodeWord _ &&& 0xFF00FFFF#32 = 0x40000000#32
  apply BitVec.eq_of_getLsbD_eq
  intro i hi
  simp only [encodeWord, BitVec.getLsbD_and, BitVec.getLsbD_append]
  interval_cases i <;> simp

theorem rfF (rd ra rb : VReg) : Statement (.rfF rd ra rb) := by
  refine ⟨opcodeTable[19], List.getElem_mem _, ?_⟩
  change encodeWord _ &&& 0xFF000FFF#32 = 0x41000000#32
  apply BitVec.eq_of_getLsbD_eq
  intro i hi
  simp only [encodeWord, BitVec.getLsbD_and, BitVec.getLsbD_append]
  interval_cases i <;> simp

theorem rfSb (rd ra : VReg) (j : Imm) : Statement (.rfSb rd ra j) := by
  refine ⟨opcodeTable[20], List.getElem_mem _, ?_⟩
  change encodeWord _ &&& 0xFF00FF80#32 = 0x42000000#32
  apply BitVec.eq_of_getLsbD_eq
  intro i hi
  simp only [encodeWord, BitVec.getLsbD_and, BitVec.getLsbD_append]
  interval_cases i <;> simp

theorem cInit (ra : VReg) : Statement (.cInit ra) := by
  refine ⟨opcodeTable[21], List.getElem_mem _, ?_⟩
  change encodeWord _ &&& 0xFFF0FFFF#32 = 0x50000000#32
  apply BitVec.eq_of_getLsbD_eq
  intro i hi
  simp only [encodeWord, BitVec.getLsbD_and, BitVec.getLsbD_append]
  interval_cases i <;> simp

theorem cRound : Statement .cRound := ⟨opcodeTable[22], List.getElem_mem _, by decide⟩

theorem cFinal (rd : VReg) : Statement (.cFinal rd) := by
  refine ⟨opcodeTable[23], List.getElem_mem _, ?_⟩
  change encodeWord _ &&& 0xFF0FFFFF#32 = 0x52000000#32
  apply BitVec.eq_of_getLsbD_eq
  intro i hi
  simp only [encodeWord, BitVec.getLsbD_and, BitVec.getLsbD_append]
  interval_cases i <;> simp

theorem cEnck (rd ra : VReg) (n : Count) : Statement (.cEnck rd ra n) := by
  refine ⟨opcodeTable[24], List.getElem_mem _, ?_⟩
  change encodeWord _ &&& 0xFF00FFE0#32 = 0x53000000#32
  apply BitVec.eq_of_getLsbD_eq
  intro i hi
  simp only [encodeWord, BitVec.getLsbD_and, BitVec.getLsbD_append]
  interval_cases i <;> simp

theorem cEncrypt (rd ra rb : VReg) (n : Count) : Statement (.cEncrypt rd ra rb n) := by
  refine ⟨opcodeTable[25], List.getElem_mem _, ?_⟩
  change encodeWord _ &&& 0xFF000FE0#32 = 0x54000000#32
  apply BitVec.eq_of_getLsbD_eq
  intro i hi
  simp only [encodeWord, BitVec.getLsbD_and, BitVec.getLsbD_append]
  interval_cases i <;> simp

theorem cGetlr (rd re : VReg) : Statement (.cGetlr rd re) := by
  refine ⟨opcodeTable[26], List.getElem_mem _, ?_⟩
  change encodeWord _ &&& 0xFF0F0FFF#32 = 0x55000000#32
  apply BitVec.eq_of_getLsbD_eq
  intro i hi
  simp only [encodeWord, BitVec.getLsbD_and, BitVec.getLsbD_append]
  interval_cases i <;> simp

end Sys2Proof.Laws.EncodesItsRow
end

