-- ==== Sys2Proof/Tests/Slice0.lean ====
section
/-! SUPPORT. Tests. Expected values are the spec's own: the worked examples of the command rules, and the vectors of
95_test_vectors.md and 96_test_programs.md, cited at each test. The witnesses at the end show, for every statement
with hypotheses, values that meet them, each clause at a boundary of its range. -/

namespace Sys2Proof.Tests

set_option Elab.async false

open Sys2Proof Sys2Proof.Machine

/-! ### Helpers -/

/-- The running example: the plaintext, the key and intermediate values of the first known-answer vector, three
subkeys, the halves after `C.INIT` and the user table of R139. V11 to V15 are Empty. -/
def demo : State :=
  { State.reset with
    v := #v[some ⟨64, 0x4E6F772069732074⟩, some ⟨64, 0x0123456789ABCDEF⟩, some ⟨48, 0x8B159B9120AB⟩,
      some ⟨32, 0x00FE1327⟩, some ⟨8, 0xB4⟩, some ⟨6, 0x1B⟩, some ⟨4, 0x9⟩, some ⟨1, 1⟩, some ⟨48, 0x0B02679B49A5⟩,
      some ⟨8, 0xF0⟩, some ⟨8, 0x1C⟩, none, none, none, none, none]
    cd := some ⟨56, 0x0CCAA0FACCF00A⟩
    k := [⟨48, 0x0B02679B49A5⟩, ⟨48, 0x69A659256A26⟩, ⟨48, 0x45D48AB428D2⟩]
    l := some ⟨32, 0xB7A48736⟩
    r := some ⟨32, 0x00FE1327⟩
    ut := [2, 3, 4, 1] }

/-- `demo` with the sixteen subkeys of a zero key and the round counter at `n`. -/
def full (n : Nat) : State := { demo with k := List.replicate 16 ⟨48, 0⟩, rn := n }

/-- What the register `d` holds after the command. -/
def gives (i : Instr) (s : State) (d : VReg) : Option BV :=
  match exec i s with
  | .next t => if t.fault then none else t.v.get d
  | _ => none

/-- The cause code latched by the command; 0 if it completes. -/
def faultCode (i : Instr) (s : State) : Nat :=
  match exec i s with
  | .next t => t.fcause.toNat
  | _ => 99

/-- A part of the state after the command, if it completes. -/
def leaves {α : Type} (i : Instr) (s : State) (f : State → α) : Option α :=
  match exec i s with
  | .next t => if t.fault then none else some (f t)
  | _ => none

/-- The state after the host's events, from reset. -/
def afterEvents (es : List HostEvent) : Option State :=
  match Host.Core.run Sys2Proof.core es.length { State.reset with input := es } with
  | .next t => some t
  | _ => none

/-! ### Well-formedness: each check refuses its ill-formed term -/

theorem test_wellFormed_refuses_table_seven : (Instr.bvPerm 1 2 7).wellFormed = false := by decide
theorem test_wellFormed_refuses_box_zero : (Instr.rfSb 1 2 0).wellFormed = false := by decide
theorem test_wellFormed_refuses_box_nine : (Instr.rfSb 1 2 9).wellFormed = false := by decide
theorem test_wellFormed_refuses_split_into_one_register : (Instr.bvSplit 2 2 1 4).wellFormed = false := by decide
theorem test_wellFormed_refuses_getlr_into_one_register : (Instr.cGetlr 3 3).wellFormed = false := by decide
theorem test_wellFormed_accepts_the_bounds :
    (Instr.bvPerm 1 2 6).wellFormed = true ∧ (Instr.rfSb 1 2 1).wellFormed = true ∧
      (Instr.rfSb 1 2 8).wellFormed = true ∧ (Instr.bvNew 0 0 0).wellFormed = true := by decide

/-! ### Decoding: every command's word of 96_test_programs.md D-E1, written out field by field from R92 and R93 -/

theorem test_decode_bv_words :
    decode 0b00010000_1111_0000_0000_0000_0_1000000 7 = .ok (.bvNew 15 64 7) ∧
    decode 0b00010001_0000_1111_0000_0000_0_0000000 7 = .ok (.bvRead 15) ∧
    decode 0b00010010_0001_0010_0000_0000_0_1000000 7 = .ok (.bvGet 1 2 64) ∧
    decode 0b00010011_0001_0010_0000_0000_1_1000000 7 = .ok (.bvSet 1 2 64 1) ∧
    decode 0b00010100_0001_0010_00_1000000_0000011 7 = .ok (.bvRange 1 2 3 64) ∧
    decode 0b00010101_0001_0010_0011_0000_0_0011100 7 = .ok (.bvSplit 1 3 2 28) ∧
    decode 0b00010110_0001_0010_0011_0000_0_0000000 7 = .ok (.bvConcat 1 2 3) ∧
    decode 0b00010111_0001_0010_0000_0000_0_1111111 7 = .ok (.bvRotl 1 2 127) ∧
    decode 0b00011000_0001_0010_0000_0000_0_0000101 7 = .ok (.bvPerm 1 2 5) ∧
    decode 0b00011001_0001_0010_0011_0000_0_0000000 7 = .ok (.bvDot 1 2 3) ∧
    decode 0b00011010_1111_1111_1111_0000_0_0000000 7 = .ok (.bvXor 15 15 15) := by decide +kernel

theorem test_decode_tbl_and_ks_words :
    decode 0b00100000_0000_0000_0000_0000_0_0000000 7 = .ok .tblClr ∧
    decode 0b00100001_0000_0000_0000_0000_0_1111111 7 = .ok (.tblPush 127) ∧
    decode 0b00110000_0000_1001_0000_0000_0_0000000 7 = .ok (.ksLoad 9) ∧
    decode 0b00110001_0000_0000_0000_0000_0_0000000 7 = .ok .ksStep ∧
    decode 0b00110010_0000_1001_0000_0000_0_00_10000 7 = .ok (.ksDerive 9 16) ∧
    decode 0b00110011_1010_0000_0000_0000_0_00_10000 7 = .ok (.ksGetk 10 16) ∧
    decode 0b00110100_1011_0000_0000_0000_0_0000000 7 = .ok (.ksGetcd 11) := by decide +kernel

theorem test_decode_rf_and_c_words :
    decode 0b01000000_0001_0010_0000_0000_0_0000000 7 = .ok (.rfSbox 1 2) ∧
    decode 0b01000001_0001_0010_0011_0000_0_0000000 7 = .ok (.rfF 1 2 3) ∧
    decode 0b01000010_0001_0010_0000_0000_0_0001000 7 = .ok (.rfSb 1 2 8) ∧
    decode 0b01010000_0000_0100_0000_0000_0_0000000 7 = .ok (.cInit 4) ∧
    decode 0b01010001_0000_0000_0000_0000_0_0000000 7 = .ok .cRound ∧
    decode 0b01010010_0101_0000_0000_0000_0_0000000 7 = .ok (.cFinal 5) ∧
    decode 0b01010011_0101_0100_0000_0000_0_00_01000 7 = .ok (.cEnck 5 4 8) ∧
    decode 0b01010100_0101_0100_1001_0000_0_00_10000 7 = .ok (.cEncrypt 5 4 9 16) ∧
    decode 0b01010101_0110_0000_0111_0000_0_0000000 7 = .ok (.cGetlr 6 7) := by decide +kernel

/-- The illegal words of D-F1 and D-E2, each ground of R99. -/
theorem test_decode_rejects_by_name :
    decode 0x00000000 0 = .error .reservedOpcode ∧ decode 0xFFFFFFFF 0 = .error .reservedOpcode ∧
    decode 0x0F000000 0 = .error .reservedOpcode ∧ decode 0x22000000 0 = .error .reservedOpcode ∧
    decode 0x35000000 0 = .error .reservedOpcode ∧ decode 0x43000000 0 = .error .reservedOpcode ∧
    decode 0x56000000 0 = .error .reservedOpcode ∧ decode 0x31000001 0 = .error .mustBeZeroBit ∧
    decode 0x10008040 0 = .error .mustBeZeroBit ∧ decode 0x32010020 0 = .error .mustBeZeroBit ∧
    decode 0x55110000 0 = .error .mustBeZeroBit ∧ decode 0x18210007 0 = .error .noSuchTable ∧
    decode 0x42210000 0 = .error .noSuchBox ∧ decode 0x42210009 0 = .error .noSuchBox ∧
    decode 0x15212004 0 = .error .sameDestination ∧ decode 0x55303000 0 = .error .sameDestination := by
  decide +kernel

/-- "the mask covers the opcode and every must-be-zero bit" (R97): the two columns of R97 and R93 agree. -/
theorem test_masks_are_opcode_and_zero_bits :
    ∀ row ∈ opcodeTable, row.mask = 0xFF000000 ||| row.fmt.mustBeZero := by decide +kernel

/-- The listing of 95_test_vectors.md P1, line 3, and R139's table by name; a word no mnemonic produces (R101). -/
theorem test_assembler_lines :
    assemble (.op .cDes [.reg 2, .reg 0, .reg 1] none) = some (0x54201010, 0) ∧
    assemble (.op .bvPerm [.reg 1, .reg 2, .table .PC2] none) = some (0x18120005, 0) ∧
    assemble (.op .bvNew [.reg 0, .num 8] (some 0xFF)) = some (0x10000008, 0xFF) ∧
    assemble (.word 0x1B000000) = some (0x1B000000, 0) ∧
    assemble (.op .bvSplit [.reg 2, .reg 2, .reg 1, .num 4] none) = none ∧
    assemble (.op .tblPush [.num 128] none) = none := by decide +kernel

/-! ### One command each: the worked example of its rule -/

/-- R131. -/
theorem test_bvNew : gives (.bvNew 0 8 0xFF) State.reset 0 = some ⟨8, 0xFF⟩ ∧
    faultCode (.bvNew 0 8 0x700B19) State.reset = 1 ∧ faultCode (.bvNew 0 65 0) State.reset = 1 := by decide +kernel

/-- R132, on the plaintext register. -/
theorem test_bvRead : leaves (.bvRead 0) demo (fun t => (t.outV, t.outW)) = some (0x4E6F772069732074, 64) ∧
    faultCode (.bvRead 15) demo = 7 := by decide +kernel

/-- R133: 0xB4 is 1011 0100. -/
theorem test_bvGet : gives (.bvGet 11 4 1) demo 11 = some ⟨1, 1⟩ ∧ gives (.bvGet 11 4 2) demo 11 = some ⟨1, 0⟩ ∧
    gives (.bvGet 11 4 8) demo 11 = some ⟨1, 0⟩ ∧ faultCode (.bvGet 11 4 9) demo = 2 ∧
    faultCode (.bvGet 11 4 0) demo = 2 := by decide +kernel

/-- R134: position 2 of 1011 0100 set, position 1 cleared. -/
theorem test_bvSet : gives (.bvSet 11 4 2 1) demo 11 = some ⟨8, 0xF4⟩ ∧
    gives (.bvSet 4 4 1 0) demo 4 = some ⟨8, 0x34⟩ ∧ gives (.bvSet 11 4 1 1) demo 11 = some ⟨8, 0xB4⟩ ∧
    faultCode (.bvSet 11 4 9 1) demo = 2 := by decide +kernel

/-- R135. -/
theorem test_bvRange : gives (.bvRange 11 4 2 5) demo 11 = some ⟨4, 0x6⟩ ∧
    gives (.bvRange 11 4 1 8) demo 11 = some ⟨8, 0xB4⟩ ∧ faultCode (.bvRange 11 4 3 3) demo = 3 ∧
    faultCode (.bvRange 11 4 4 9) demo = 3 ∧ faultCode (.bvRange 11 4 0 3) demo = 3 := by decide +kernel

/-- R136. -/
theorem test_bvSplit : gives (.bvSplit 11 12 4 3) demo 11 = some ⟨3, 0x5⟩ ∧
    gives (.bvSplit 11 12 4 3) demo 12 = some ⟨5, 0x14⟩ ∧ gives (.bvSplit 4 12 4 3) demo 12 = some ⟨5, 0x14⟩ ∧
    faultCode (.bvSplit 11 12 4 8) demo = 5 ∧ faultCode (.bvSplit 11 12 4 0) demo = 5 ∧
    faultCode (.bvSplit 11 11 15 3) demo = 8 := by decide +kernel

/-- R137, on 0x9 and 0xB4; a 64-bit operand always overflows. -/
theorem test_bvConcat : gives (.bvConcat 11 6 4) demo 11 = some ⟨12, 0x9B4⟩ ∧
    gives (.bvConcat 11 3 3) demo 11 = some ⟨64, 0x00FE132700FE1327⟩ ∧ faultCode (.bvConcat 11 0 7) demo = 4 ∧
    faultCode (.bvConcat 11 4 15) demo = 7 := by decide +kernel

/-- R138. -/
theorem test_bvRotl : gives (.bvRotl 11 6 1) demo 11 = some ⟨4, 0x3⟩ ∧ gives (.bvRotl 11 6 4) demo 11 = some ⟨4, 0x9⟩ ∧
    gives (.bvRotl 11 6 0) demo 11 = some ⟨4, 0x9⟩ ∧ gives (.bvRotl 11 6 5) demo 11 = some ⟨4, 0x3⟩ := by
  decide +kernel

/-- R139: the user table [2, 3, 4, 1] on 1000, in the canonical direction; the priorities of D-F2. -/
theorem test_bvPerm : gives (.bvPerm 11 6 6) (demo.writeV 6 ⟨4, 8⟩) 11 = some ⟨4, 1⟩ ∧
    gives (.bvPerm 11 3 2) demo 11 = some ⟨48, 0x8017FC0A690E⟩ ∧ faultCode (.bvPerm 11 3 0) demo = 2 ∧
    faultCode (.bvPerm 11 15 9) demo = 8 ∧ faultCode (.bvPerm 11 4 6) { demo with ut := [] } = 1 := by
  decide +kernel

/-- R140. -/
theorem test_bvDot : gives (.bvDot 11 9 10) demo 11 = some ⟨1, 1⟩ ∧
    gives (.bvDot 11 9 10) (demo.writeV 10 ⟨8, 0x3C⟩) 11 = some ⟨1, 0⟩ ∧ faultCode (.bvDot 11 9 6) demo = 6 := by
  decide +kernel

/-- R141. -/
theorem test_bvXor : gives (.bvXor 11 9 10) (demo.writeV 10 ⟨8, 0x3C⟩) 11 = some ⟨8, 0xCC⟩ ∧
    faultCode (.bvXor 11 9 6) demo = 6 ∧ faultCode (.bvXor 11 15 6) demo = 7 := by decide +kernel

/-- R151, R152. -/
theorem test_tblClr : leaves .tblClr demo State.ut = some [] := by decide +kernel
theorem test_tblPush : leaves (.tblPush 0) demo State.ut = some [2, 3, 4, 1, 0] ∧
    faultCode (.tblPush 1) { demo with ut := List.replicate 64 1 } = 10 := by decide +kernel

/-- R161. -/
theorem test_ksLoad : leaves (.ksLoad 1) demo (fun t => (t.cd, t.kn)) = some (some ⟨56, 0xF0CCAA0AACCF00⟩, 0) ∧
    faultCode (.ksLoad 2) demo = 6 := by decide +kernel

/-- R162: the third step, Shift(3) = 2; a seventeenth faults. -/
theorem test_ksStep :
    leaves .ksStep { demo with cd := some ⟨56, 0xC332A83AB33C02⟩, k := demo.k.take 2 } (fun t => (t.cd, t.k)) =
      some (some ⟨56, 0x0CCAA0FACCF00A⟩, demo.k) ∧
    faultCode .ksStep (full 0) = 9 ∧ faultCode .ksStep State.reset = 7 := by decide +kernel

/-- R163: K[16] and CD of the full schedule; the priority example of R235. -/
theorem test_ksDerive : leaves (.ksDerive 1 16) demo (fun t => (t.k[15]?, t.cd, t.kn)) =
      some (some ⟨48, 0xCA3D03B87032⟩, some ⟨56, 0xF0CCAA0AACCF00⟩, 16) ∧
    faultCode (.ksDerive 4 20) demo = 6 ∧ faultCode (.ksDerive 1 17) demo = 9 := by decide +kernel

/-- R164. -/
theorem test_ksGetk : gives (.ksGetk 11 1) demo 11 = some ⟨48, 0x0B02679B49A5⟩ ∧ faultCode (.ksGetk 11 0) demo = 9 ∧
    faultCode (.ksGetk 11 4) demo = 7 ∧ faultCode (.ksGetk 11 17) demo = 9 := by decide +kernel

/-- R165. -/
theorem test_ksGetcd : gives (.ksGetcd 11) demo 11 = some ⟨56, 0x0CCAA0FACCF00A⟩ ∧
    faultCode (.ksGetcd 11) State.reset = 7 := by decide +kernel

/-- R184. -/
theorem test_rfSb : gives (.rfSb 11 5 1) demo 11 = some ⟨4, 0x5⟩ ∧
    gives (.rfSb 11 5 1) (demo.writeV 5 ⟨6, 0x21⟩) 11 = some ⟨4, 0xF⟩ ∧ faultCode (.rfSb 11 4 1) demo = 6 ∧
    faultCode (.rfSb 11 15 0) demo = 8 := by decide +kernel

/-- R185. -/
theorem test_rfSbox : gives (.rfSbox 11 2) demo 11 = some ⟨32, 0x1B7A1DBA⟩ ∧
    gives (.rfSbox 11 2) (demo.writeV 2 ⟨48, 0⟩) 11 = some ⟨32, 0xEFA72C4D⟩ ∧ faultCode (.rfSbox 11 3) demo = 6 := by
  decide +kernel

/-- R186. -/
theorem test_rfF : gives (.rfF 11 3 8) demo 11 = some ⟨32, 0x7E4B644F⟩ ∧ faultCode (.rfF 11 8 3) demo = 6 := by
  decide +kernel

/-- R202. -/
theorem test_cInit : leaves (.cInit 0) demo (fun t => (t.l, t.r, t.rn)) =
      some (some ⟨32, 0xB7A48736⟩, some ⟨32, 0x00FE1327⟩, 0) ∧ faultCode (.cInit 2) demo = 6 := by decide +kernel

/-- R203: round 1 of the running example. -/
theorem test_cRound : leaves .cRound demo (fun t => (t.l, t.r, t.rn)) =
      some (some ⟨32, 0x00FE1327⟩, some ⟨32, 0xC9EFE379⟩, 1) ∧ faultCode .cRound { demo with rn := 3 } = 7 ∧
    faultCode .cRound (full 16) = 9 := by decide +kernel

/-- R204: after the sixteen rounds of the running example. -/
theorem test_cFinal :
    gives (.cFinal 11) { demo with l := some ⟨32, 0x1A037D0D⟩, r := some ⟨32, 0x6091A7A1⟩ } 11 =
      some ⟨64, 0x3FA40E8A984D4815⟩ ∧ faultCode (.cFinal 11) State.reset = 7 := by decide +kernel

/-- R205, on D-KS1's schedule of a zero key (vector S2); the priorities of D-F2. -/
theorem test_cEnck : gives (.cEnck 11 0 16) ((full 7).writeV 0 ⟨64, 0⟩) 11 = some ⟨64, 0x8CA64DE9C1B123A7⟩ ∧
    faultCode (.cEnck 11 0 4) demo = 7 ∧ faultCode (.cEnck 11 0 20) demo = 9 ∧ faultCode (.cEnck 11 3 20) demo = 6 := by
  decide +kernel

/-- R206, both of the source's vectors; R209's zero rounds. -/
theorem test_cEncrypt : gives (.cEncrypt 11 0 1 16) demo 11 = some ⟨64, 0x3FA40E8A984D4815⟩ ∧
    gives (.cEncrypt 11 0 1 0) demo 11 = some ⟨64, 0x8D9FBB1096B310B8⟩ ∧ faultCode (.cEncrypt 11 0 1 31) demo = 9 := by
  decide +kernel

/-- R208. -/
theorem test_cGetlr : gives (.cGetlr 11 12) demo 11 = some ⟨32, 0xB7A48736⟩ ∧
    gives (.cGetlr 11 12) demo 12 = some ⟨32, 0x00FE1327⟩ ∧ faultCode (.cGetlr 11 11) demo = 8 ∧
    faultCode (.cGetlr 11 12) State.reset = 7 := by decide +kernel

/-! ### Faults and RESET -/

/-- 96_test_programs.md D-F3: the first fault stays, and nothing else changes. -/
theorem test_fault_is_sticky :
    afterEvents [.command 0x10000008 0xA5, .command 0x12100009 0, .command 0x12100001 0, .command 0 0,
      .command 0x10000000 0, .command 0x11000000 0] =
    some { State.reset.writeV 0 ⟨8, 0xA5⟩ with fault := true, fcause := 2, fcmd := 0x12100009 } := by decide +kernel

/-- The all-zero word faults with FCMD 0 (D-F1), and RESET is the way out (R238). -/
theorem test_illegal_word_and_reset :
    afterEvents [.command 0 0] = some { State.reset with fault := true, fcause := 8 } ∧
    afterEvents [.command 0x10000008 0xA5, .command 0 0, .reset] = some State.reset := by decide +kernel

/-- The word placed for the next step is the one that runs. -/
theorem test_withFetchWord_runs_the_word :
    (match step (State.reset.withFetchWord 32 0x21000003) with | .next t => some t | _ => none) =
      some { State.reset with ut := [3] } := by decide +kernel

/-- The ports of R29 to R31, at the ends of their ranges. -/
theorem test_ports : (full 16).ports.kn = 16 ∧ (full 16).ports.rn = 16 ∧ demo.ports.utlen = 4 ∧
    (demo.takeFault .tableOverflow 0x21000001).ports.fcause = 10 := by decide +kernel

/-! ### Witnesses -/

theorem demo_inv : demo.Inv where
  regs := by decide +kernel
  cdWidth := by decide
  knBound := by decide
  subkeys := by decide
  knCd := by decide
  halves := by decide
  lWidth := by decide
  rWidth := by decide
  rnBound := by decide
  rnHalves := by decide
  utBound := by decide
  out := by decide
  faultRecord := by decide

/-- A full engine: 16 subkeys, 16 rounds, 64 table entries, a fault latched. -/
def brim : State := { full 16 with ut := List.replicate 64 127, fault := true, fcause := 10, fcmd := 0x21000001 }

theorem brim_inv : brim.Inv where
  regs := by decide +kernel
  cdWidth := by decide
  knBound := by decide
  subkeys := by decide
  knCd := by decide
  halves := by decide
  lWidth := by decide
  rWidth := by decide
  rnBound := by decide
  rnHalves := by decide
  utBound := by decide
  out := by decide
  faultRecord := by decide

theorem witness_EveryStepKeepsTheInvariant : demo.Inv ∧ brim.Inv ∧ ∃ t, step demo = .next t :=
  ⟨demo_inv, brim_inv, _, rfl⟩

/-- R39: "`KS.LOAD` sets KN to 0 without touching RN". -/
theorem witness_EveryReachableStateHasTheInvariant :
    (afterEvents [.command 0x10000040 0, .command 0x54100001 0, .command 0x30000000 0]).map
      (fun t => (t.fault, t.kn, t.rn)) = some (false, 0, 1) := by decide +kernel

theorem witness_EveryCommandHasOneOfThreeOutcomes :
    ({ demo with input := [.command 0x20000000 0] } : State).input = .command 0x20000000 0 :: [] ∧
    demo.fault = false ∧ brim.fault = true ∧ leaves .tblClr demo State.fault = some false ∧
    faultCode (.bvRead 15) demo = 7 := by decide +kernel

theorem witness_FaultRecordStaysUntilReset :
    brim.fault = true ∧ ∀ e ∈ [HostEvent.command 0x20000000 0, HostEvent.command 0 0], e ≠ .reset := by decide

theorem witness_PortsShowTheState : demo.Inv ∧ brim.Inv := ⟨demo_inv, brim_inv⟩

theorem witness_ResetLeavesTheResetStateFromAnyState :
    ({ brim with input := [.reset, .reset] } : State).input = .reset :: [.reset] := rfl

theorem witness_StepWithNothingPresentedChangesNothing : demo.input = [] ∧ brim.input = [] := ⟨rfl, rfl⟩

theorem witness_StepRunsTheDecodedCommand :
    demo.fault = false ∧ decode 0x1A312000 0 = .ok (.bvXor 3 1 2) ∧
    decodeTableWord 32 0x1A312000 = some (.bvXor 3 1 2) := by decide +kernel

theorem witness_DecodingReadsBackEveryEncodedCommand :
    (Instr.bvPerm 15 15 6).wellFormed = true ∧ (Instr.rfSb 0 0 8).wellFormed = true ∧
    (Instr.bvSplit 0 1 0 127).wellFormed = true := by decide

theorem witness_EncodingGivesBackEveryLegalWord :
    decode 0x10F0007F 5 = .ok (.bvNew 15 127 5) ∧ decode 0x54FFF01F 5 = .ok (.cEncrypt 15 15 15 31) := by
  decide +kernel

/-- Both clauses, at the edges of the reserved ranges and of the field checks. -/
theorem witness_IllegalWordsRaiseIllegalCommand : demo.fault = false ∧
    illegalWord 0x0F000000 = true ∧ illegalWord 0x10000000 = false ∧ illegalWord 0x1AFFF000 = false ∧
    illegalWord 0x1B000000 = true ∧ illegalWord 0x55607000 = false ∧ illegalWord 0x56000000 = true ∧
    illegalWord 0x18210006 = false ∧ illegalWord 0x18210007 = true ∧ illegalWord 0x42210000 = true ∧
    illegalWord 0x42210001 = false ∧ illegalWord 0x42210008 = false ∧ illegalWord 0x42210009 = true ∧
    illegalWord 0x15212004 = true ∧ illegalWord 0x55303000 = true ∧ illegalWord 0x20000001 = true := by
  decide +kernel

theorem witness_DataWordIsIgnoredButByBvNew :
    opField 0x20000000 ≠ 0x10 ∧ opField 0x55001000 ≠ 0x10 ∧
    ({ demo with input := [.command 0x20000000 1] } : State).input = .command 0x20000000 1 :: [] := by decide

theorem witness_CommandsRaiseOnlyTheCausesOfTheirRow :
    demo.Inv ∧ demo.fault = false ∧ (Instr.bvPerm 11 3 6).wellFormed = true ∧ Cause.emptyRegister ∈ mayRaise .cRound :=
  ⟨demo_inv, by decide⟩

theorem witness_CommandsWriteOnlyWhatTheyAreListedToWrite : demo.fault = false ∧
    (∃ t, exec .tblClr demo = .next t) ∧ writesSchedule .tblClr = false ∧ writesHalves .tblClr = false ∧
    writesTable .ksStep = false ∧ writesOut .ksStep = false ∧ (12 : VReg) ∉ destinations (.bvXor 11 9 10) :=
  ⟨rfl, ⟨_, rfl⟩, by decide⟩

theorem witness_NoCommandEmptiesARegister :
    ({ demo with input := [.command 0x30010000 0] } : State).input = .command 0x30010000 0 :: [] ∧
    (demo.v.get 0).isSome ∧ demo.cd.isSome ∧ demo.l.isSome ∧ demo.r.isSome := by decide

theorem witness_WritingARegisterReplacesItWhole : (15 : VReg) ≠ 0 := by decide

/-- Widths 1 and 64 with the largest value that fits; the least that does not; widths 0 and 65. -/
theorem witness_BvNewConstructsTheDataWordAtItsWidth : demo.fault = false ∧
    (1 ≤ (1#7).toNat ∧ (1#7).toNat ≤ 64 ∧ (1#64).toNat < 2 ^ (1#7).toNat) ∧
    (1 ≤ (64#7).toNat ∧ (64#7).toNat ≤ 64 ∧ (0xFFFFFFFFFFFFFFFF#64).toNat < 2 ^ (64#7).toNat) ∧
    ¬ (2#64).toNat < 2 ^ (1#7).toNat ∧ ¬ 1 ≤ (0#7).toNat ∧ ¬ (65#7).toNat ≤ 64 := by decide

theorem witness_BvReadPresentsTheRegister :
    demo.fault = false ∧ demo.v.get 15 = none ∧ demo.Holds 0 ⟨64, 0x4E6F772069732074⟩ ∧ demo.Holds 7 ⟨1, 1⟩ := by
  decide

/-- Positions 1 and 8 of a vector of width 8, and 0 and 9 outside it. -/
theorem witness_BvGetReadsTheBitAtThePosition : demo.fault = false ∧ demo.v.get 11 = none ∧ demo.Holds 4 ⟨8, 0xB4⟩ ∧
    (1 ≤ (1#7).toNat ∧ (1#7).toNat ≤ 8) ∧ (1 ≤ (8#7).toNat ∧ (8#7).toNat ≤ 8) ∧ ¬ 1 ≤ (0#7).toNat ∧
    ¬ (9#7).toNat ≤ 8 := by decide

theorem witness_BvSetStoresTheBitAtThePosition : demo.fault = false ∧ demo.v.get 11 = none ∧
    demo.Holds 4 ⟨8, 0xB4⟩ ∧ demo.Holds 7 ⟨1, 1⟩ ∧ (1 ≤ (8#7).toNat ∧ (8#7).toNat ≤ 8) ∧ ¬ (9#7).toNat ≤ 8 := by
  decide

/-- The whole range and the least range; from = to, from = 0 and to = width + 1 outside. -/
theorem witness_BvRangeExtractsThePositions : demo.fault = false ∧ demo.v.get 11 = none ∧ demo.Holds 4 ⟨8, 0xB4⟩ ∧
    (0 < (1#7).toNat ∧ (1#7).toNat < (8#7).toNat ∧ (8#7).toNat ≤ 8) ∧
    (0 < (7#7).toNat ∧ (7#7).toNat < (8#7).toNat) ∧ ¬ (3#7).toNat < (3#7).toNat ∧ ¬ 0 < (0#7).toNat ∧
    ¬ (9#7).toNat ≤ 8 := by decide

theorem witness_BvSplitWritesBothParts : demo.fault = false ∧ (11 : VReg) ≠ 12 ∧ demo.v.get 11 = none ∧
    demo.Holds 4 ⟨8, 0xB4⟩ ∧ (1 ≤ (1#7).toNat ∧ (7#7).toNat < 8) ∧ ¬ (8#7).toNat < 8 ∧ demo.Holds 7 ⟨1, 1⟩ ∧
    ¬ (1#7).toNat < 1 := by decide

/-- A combined width of exactly 64, and of 65. -/
theorem witness_BvConcatJoinsTheRegisters : demo.fault = false ∧ demo.v.get 11 = none ∧
    demo.Holds 3 ⟨32, 0x00FE1327⟩ ∧ 32 + 32 ≤ 64 ∧ demo.Holds 0 ⟨64, 0x4E6F772069732074⟩ ∧ demo.Holds 7 ⟨1, 1⟩ ∧
    ¬ 64 + 1 ≤ 64 := by decide

theorem witness_BvRotlRotatesWithinTheWidth : demo.fault = false ∧ demo.v.get 11 = none ∧ demo.Holds 6 ⟨4, 9⟩ ∧
    demo.Holds 7 ⟨1, 1⟩ := by decide

/-- A table that fits exactly, one whose largest entry is one too many, the empty user table, and ids 6 and 7. -/
theorem witness_BvPermAppliesTheTable : demo.fault = false ∧ demo.utlen ≤ 64 ∧ 6 < (7#7).toNat ∧ (6#7).toNat ≤ 6 ∧
    demo.v.get 11 = none ∧ demo.Holds 6 ⟨4, 9⟩ ∧ (∀ p ∈ demo.ut.map BitVec.toNat, 1 ≤ p ∧ p ≤ 4) ∧
    ¬ (∀ p ∈ (demo.ut ++ [5]).map BitVec.toNat, 1 ≤ p ∧ p ≤ 4) ∧ State.reset.ut.map BitVec.toNat = [] := by decide

theorem witness_BvDotGivesTheParityOfTheAnd : demo.fault = false ∧ demo.v.get 11 = none ∧ demo.Holds 9 ⟨8, 0xF0⟩ ∧
    demo.Holds 10 ⟨8, 0x1C⟩ ∧ demo.Holds 7 ⟨1, 1⟩ ∧ ¬ 8 = 1 := by decide

theorem witness_BvXorAddsBitByBit : demo.fault = false ∧ demo.v.get 11 = none ∧ demo.Holds 9 ⟨8, 0xF0⟩ ∧
    demo.Holds 10 ⟨8, 0x1C⟩ ∧ demo.Holds 6 ⟨4, 9⟩ ∧ ¬ 8 = 4 := by decide

theorem witness_TblClrEmptiesTheUserTable : demo.fault = false ∧ demo.v.get 4 = some ⟨8, 0xB4⟩ := by decide

/-- UTLEN 63 and 64. -/
theorem witness_TblPushAppendsTheEntry :
    ({ demo with ut := List.replicate 63 1 } : State).utlen = 63 ∧
    ({ demo with ut := List.replicate 64 1 } : State).utlen = 64 ∧ demo.fault = false := by decide

theorem witness_KsLoadTakesTheKeyThroughPC1 : demo.fault = false ∧ demo.v.get 11 = none ∧
    demo.Holds 1 ⟨64, 0x0123456789ABCDEF⟩ ∧ demo.Holds 2 ⟨48, 0x8B159B9120AB⟩ ∧ ¬ 48 = 64 := by decide

/-- Empty CD, KN = 16 and KN = 15. -/
theorem witness_KsStepRotatesAndAppendsASubkey : State.reset.cd = none ∧ (full 0).cd.isSome ∧ (full 0).kn = 16 ∧
    ({ full 0 with k := List.replicate 15 ⟨48, 0⟩ } : State).kn = 15 ∧ (full 0).fault = false ∧
    BV.Fits ⟨56, 0x0CCAA0FACCF00A⟩ ∧ demo.cd = some ⟨56, 0x0CCAA0FACCF00A⟩ := by decide

theorem witness_KsDeriveIsLoadThenSteps : demo.fault = false ∧ demo.v.get 11 = none ∧
    demo.Holds 1 ⟨64, 0x0123456789ABCDEF⟩ ∧ demo.Holds 2 ⟨48, 0x8B159B9120AB⟩ ∧ (16#5).toNat ≤ 16 ∧
    (0#5).toNat ≤ 16 ∧ 16 < (17#5).toNat := by decide

/-- Indices 0, 17, KN and KN + 1. -/
theorem witness_KsGetkCopiesTheSubkey : demo.fault = false ∧ (0#5).toNat < 1 ∧ 16 < (17#5).toNat ∧ demo.kn = 3 ∧
    ¬ demo.kn < (3#5).toNat ∧ demo.kn < (4#5).toNat ∧ ¬ (full 0).kn < (16#5).toNat := by decide

theorem witness_KsGetcdCopiesTheRegister :
    demo.fault = false ∧ State.reset.cd = none ∧ demo.cd = some ⟨56, 0x0CCAA0FACCF00A⟩ := by decide

theorem witness_RfSbLooksUpOneChunk : demo.fault = false ∧ (0#7).toNat = 0 ∧ 8 < (9#7).toNat ∧ 1 ≤ (1#7).toNat ∧
    (8#7).toNat ≤ 8 ∧ demo.v.get 11 = none ∧ demo.Holds 5 ⟨6, 0x1B⟩ ∧ demo.Holds 4 ⟨8, 0xB4⟩ ∧ ¬ 8 = 6 ∧
    numberAt ⟨6, 0x1B⟩ [1, 6] = 1 ∧ numberAt ⟨6, 0x1B⟩ [2, 3, 4, 5] = 13 := by decide

/-- R185's example meets the description of the substitution by positions. -/
theorem witness_RfSboxSubstitutesEightChunks : demo.fault = false ∧ demo.v.get 11 = none ∧
    demo.Holds 2 ⟨48, 0x8B159B9120AB⟩ ∧ demo.Holds 3 ⟨32, 0x00FE1327⟩ ∧ ¬ 32 = 48 ∧
    SubstitutionOf ⟨48, 0x8B159B9120AB⟩ ⟨32, 0x1B7A1DBA⟩ := by
  refine ⟨by decide, by decide, by decide, by decide, by decide, ⟨by decide, by decide, ?_⟩⟩
  decide +kernel

theorem witness_RfFComputesTheRoundFunction : demo.fault = false ∧ demo.v.get 11 = none ∧
    demo.Holds 3 ⟨32, 0x00FE1327⟩ ∧ demo.Holds 8 ⟨48, 0x0B02679B49A5⟩ ∧ demo.Holds 2 ⟨48, 0x8B159B9120AB⟩ ∧
    ¬ (48 = 32 ∧ 48 = 48) := by decide

theorem witness_RfFIsFourCommandsThroughAScratchRegister : demo.fault = false ∧ demo.Holds 3 ⟨32, 0x00FE1327⟩ ∧
    demo.Holds 8 ⟨48, 0x0B02679B49A5⟩ ∧ (12 : VReg) ≠ 8 := by decide

theorem witness_CInitSplitsThePermutedPlaintext : demo.fault = false ∧ demo.v.get 11 = none ∧
    demo.Holds 0 ⟨64, 0x4E6F772069732074⟩ ∧ demo.Holds 2 ⟨48, 0x8B159B9120AB⟩ ∧ ¬ 48 = 64 := by decide

/-- RN = 16; RN = KN = 3, no next subkey; RN = 2, the last subkey; RN = 15 of 16. -/
theorem witness_CRoundMixesAndSwapsTheHalves : demo.fault = false ∧ State.reset.l = none ∧
    demo.HoldsHalves ⟨32, 0xB7A48736⟩ ⟨32, 0x00FE1327⟩ ∧ (full 16).rn = 16 ∧
    ({ demo with rn := 3 } : State).kn < 3 + 1 ∧ demo.k[2]? = some ⟨48, 0x45D48AB428D2⟩ ∧
    BV.Fits ⟨48, 0x45D48AB428D2⟩ ∧ (full 15).k[15]? = some ⟨48, 0⟩ := by decide

theorem witness_CFinalPermutesTheSwappedHalves : demo.fault = false ∧ State.reset.l = none ∧
    demo.HoldsHalves ⟨32, 0xB7A48736⟩ ⟨32, 0x00FE1327⟩ := by decide

/-- n = KN, n = KN + 1, n = 16, n = 17 and a width other than 64. -/
theorem witness_CEnckIsInitThenRoundsThenFinal : demo.Inv ∧ demo.fault = false ∧ demo.v.get 11 = none ∧
    demo.v.get 0 = some ⟨64, 0x4E6F772069732074⟩ ∧ (3#5).toNat ≤ demo.kn ∧ demo.kn < (4#5).toNat ∧
    (16#5).toNat ≤ 16 ∧ 16 < (17#5).toNat ∧ demo.v.get 2 = some ⟨48, 0x8B159B9120AB⟩ := ⟨demo_inv, by decide⟩

theorem witness_CEncryptIsDeriveThenEnck : demo.fault = false ∧ demo.v.get 11 = none ∧
    demo.Holds 0 ⟨64, 0x4E6F772069732074⟩ ∧ demo.Holds 1 ⟨64, 0x0123456789ABCDEF⟩ ∧
    demo.Holds 2 ⟨48, 0x8B159B9120AB⟩ ∧ (16#5).toNat ≤ 16 ∧ 16 < (17#5).toNat := by decide

theorem witness_CGetlrCopiesTheHalves : demo.fault = false ∧ (11 : VReg) ≠ 12 ∧ State.reset.l = none ∧
    demo.l = some ⟨32, 0xB7A48736⟩ ∧ demo.r = some ⟨32, 0x00FE1327⟩ := by decide

/-- Midpoints 1 and N - 1; equal widths. -/
theorem witness_AlgebraLawsOfTheSource : BV.Fits ⟨64, 0x4E6F772069732074⟩ ∧ BV.Fits ⟨2, 3⟩ ∧ 1 ≤ 1 ∧ 1 < 2 ∧
    BV.Fits ⟨64, 2 ^ 64 - 1⟩ ∧ 1 ≤ 63 ∧ 63 < 64 := by decide

theorem witness_ScheduleHasTheClosedForm :
    demo.fault = false ∧ demo.Holds 1 ⟨64, 0x0123456789ABCDEF⟩ ∧ 0 ≤ 16 ∧ 16 ≤ 16 := by decide

/-- D-C5, row 4: the key 0x0101… and the zero key agree outside the parity positions. -/
theorem witness_ParityPositionsOfTheKeyHaveNoEffect :
    BV.Fits ⟨64, 0⟩ ∧ BV.Fits ⟨64, 0x0101010101010101⟩ ∧
    ∀ q, q < 65 → 1 ≤ q → q % 8 ≠ 0 → BV.at ⟨64, 0⟩ q = BV.at ⟨64, 0x0101010101010101⟩ q := by decide +kernel

theorem witness_ReducedRoundsUseAPrefixOfTheSchedule :
    BV.Fits ⟨64, 0x0123456789ABCDEF⟩ ∧ BV.Fits ⟨64, 0x4E6F772069732074⟩ ∧ 16 ≤ 16 ∧ 0 ≤ 8 ∧ 8 ≤ 8 := by decide

/-- Two states that differ in everything but the operands and the first subkeys. -/
theorem witness_EncryptionDependsOnItsOperandsAlone : demo.Inv ∧ demo.fault = false ∧
    State.Holds (State.writeV (State.writeV State.reset 5 ⟨64, 0x4E6F772069732074⟩) 6 ⟨64, 0x0123456789ABCDEF⟩) 5
      ⟨64, 0x4E6F772069732074⟩ ∧
    State.Holds (State.writeV (State.writeV State.reset 5 ⟨64, 0x4E6F772069732074⟩) 6 ⟨64, 0x0123456789ABCDEF⟩) 6
      ⟨64, 0x0123456789ABCDEF⟩ ∧
    demo.Holds 0 ⟨64, 0x4E6F772069732074⟩ ∧ demo.Holds 1 ⟨64, 0x0123456789ABCDEF⟩ ∧ (3#5).toNat ≤ demo.kn :=
  ⟨demo_inv, by decide⟩

theorem witness_ZeroRoundsExchangeAdjacentPositions :
    BV.Fits ⟨64, 0x4E6F772069732074⟩ ∧ BV.Fits ⟨64, 0x0123456789ABCDEF⟩ := by decide

theorem witness_ComplementingKeyAndPlaintextComplementsTheCiphertext :
    BV.Fits ⟨64, 0⟩ ∧ BV.Fits ⟨64, 2 ^ 64 - 1⟩ ∧ 16 ≤ 16 ∧ complement ⟨64, 0⟩ = ⟨64, 0xFFFFFFFFFFFFFFFF⟩ := by decide

theorem witness_EncryptionIsInjectiveInThePlaintext : BV.Fits ⟨64, 0⟩ ∧ 16 ≤ 16 ∧
    encrypt ⟨64, 0⟩ ⟨64, 0⟩ 16 = .ok ⟨64, 0x8CA64DE9C1B123A7⟩ := by decide +kernel

/-- The user table holds the entries of P. -/
theorem witness_UserTableActsAsTheConstantTableItEquals :
    demo.fault = false ∧ (3#7).toNat < 6 ∧
    ({ demo with ut := tableP.map (BitVec.ofNat 7) } : State).table 3 = .ok tableP ∧
    (tableP.map (BitVec.ofNat 7)).map BitVec.toNat = tableP := by decide +kernel

theorem witness_TablesAreWhatTheSourceSaysOfThem : 0 < 64 ∧ 63 < 64 ∧ (16 = 16 ∧ 8 ≤ 8 ∧ 3 < 4) := by decide

theorem witness_ListingsAssembleToTheirCommands :
    (Instr.cEncrypt 2 0 1 16).wellFormed = true ∧ (Instr.bvNew 0 64 5).wellFormed = true := by decide

end Sys2Proof.Tests
end

section
/-! PROOFS. What a step does with the command presented to it (00_scope.md R14, 60_exceptions.md R235). -/

namespace Sys2Proof.Machine

/-! ### What the decoder accepts -/

/-- The field checks of R99 (c) accept exactly the well-formed terms, and give them back as they are. -/
theorem checkFields_eq_ok {i j : Instr} : checkFields i = .ok j ↔ i.wellFormed = true ∧ i = j := by
  cases i with
  | bvPerm rd ra tid =>
    by_cases h : 6 < tid.toNat
    · simp [checkFields, Instr.wellFormed, h]
    · simp [checkFields, Instr.wellFormed, h, Nat.le_of_not_lt h]
  | rfSb rd ra box =>
    by_cases h : box.toNat = 0 ∨ 8 < box.toNat <;> simp [checkFields, Instr.wellFormed, h] <;> omega
  | bvSplit rd re ra mid => by_cases h : rd = re <;> simp [checkFields, Instr.wellFormed, h]
  | cGetlr rd re => by_cases h : rd = re <;> simp [checkFields, Instr.wellFormed, h]
  | _ => simp [checkFields, Instr.wellFormed]

/-- The algorithm of R98: a word decodes to a command when its opcode has a row, its must-be-zero bits are 0, and
the row's fields make that command, which passes the field checks. -/
theorem decode_eq_ok {cw : CmdWord} {dw : DataWord} {i : Instr} :
    decode cw dw = .ok i ↔ ∃ row, rowOf (opField cw) = some row ∧ cw &&& row.mask = row.mtch ∧
      (row.build (fieldsOf cw dw)).wellFormed = true ∧ row.build (fieldsOf cw dw) = i := by
  unfold decode
  cases rowOf (opField cw) with
  | none => simp
  | some row => by_cases h : cw &&& row.mask = row.mtch <;> simp [h, checkFields_eq_ok]

/-- Only commands come out of the decoder (R99 c). -/
theorem wellFormed_of_decode {cw : CmdWord} {dw : DataWord} {i : Instr} (h : decode cw dw = .ok i) :
    i.wellFormed = true := by
  obtain ⟨row, -, -, hwf, rfl⟩ := decode_eq_ok.1 h
  exact hwf

/-- What the decoder reads from an instruction numbered as the opcode table numbers it is what it reads from the two
words cut from that number. -/
theorem decodeTableWord_eq_some {nbits w : Nat} {i : Instr} :
    decodeTableWord nbits w = some i ↔ decode (tableCmdWord nbits w) (tableDataWord nbits w) = .ok i := by
  unfold decodeTableWord
  cases decode (tableCmdWord nbits w) (tableDataWord nbits w) <;> simp [Except.toOption]

/-! ### The step on a command -/

/-- While FAULT = 0 a command whose words decode runs (R235). -/
theorem acceptCommand_of_decode {cw : CmdWord} {dw : DataWord} {i : Instr} {s : State} (hf : s.fault = false)
    (hd : decode cw dw = .ok i) : acceptCommand cw dw s = exec i s := by
  simp [acceptCommand, hf, hd]

/-- A command presented next is taken off the list and accepted (R14, R76). -/
theorem step_of_command {cw : CmdWord} {dw : DataWord} {rest : List HostEvent} {s : State}
    (h : s.input = .command cw dw :: rest) : step s = acceptCommand cw dw { s with input := rest } := by
  simp [step, acceptNext, acceptEvent, h]

/-- Taking the word `withFetchWord` places off the list leaves the state as it was (log entry 3). -/
theorem step_withFetchWord (s : State) (nbits w : Nat) :
    step (s.withFetchWord nbits w) = acceptCommand (tableCmdWord nbits w) (tableDataWord nbits w) s :=
  step_of_command (withFetchWord_input s nbits w)

/-- Settles O10: a step on a presented command is `acceptCommand` on the rest of the list, which runs what the words
decode to; the decoder gives well-formed commands only. -/
theorem stepRunsTheDecodedCommand : Obligations.StepRunsTheDecodedCommand := by
  refine ⟨fun s cw dw rest i hf hin hd => ⟨wellFormed_of_decode hd, ?_⟩, fun s nbits w i hf hd => ?_⟩
  · calc step s = acceptCommand cw dw { s with input := rest } := step_of_command hin
      _ = exec i { s with input := rest } := acceptCommand_of_decode hf hd
  · calc step (s.withFetchWord nbits w)
        = acceptCommand (tableCmdWord nbits w) (tableDataWord nbits w) s := step_withFetchWord s nbits w
      _ = exec i s := acceptCommand_of_decode hf (decodeTableWord_eq_some.1 hd)

end Sys2Proof.Machine
end

section
/-! PROOFS. What a command can write, said once for all 27 (10_state.md R20, R23, R39): a command ends with its fault
latched, or in a state reached by writes to elements it is listed as a writer of, each value legal for its element. -/

namespace Sys2Proof.Machine

/-! ### What the pure functions answer -/

/-- A check that raises exactly when `P` fails has been passed where there is an answer. -/
theorem check_of_ok {α : Type} {res : Checked α} {a : α} {P : Prop} {e : Cause}
    (herr : ∀ c, res = .error c ↔ ¬ P ∧ c = e) (h : res = .ok a) : P := by
  by_contra hP
  cases h.symm.trans ((herr e).2 ⟨hP, rfl⟩)

/-- What is known of some answer is known of the answer. -/
theorem prop_of_ok {α : Type} {res : Checked α} {a : α} {Q : α → Prop} (hres : ∃ y, res = .ok y ∧ Q y)
    (h : res = .ok a) : Q a := by
  obtain ⟨y, hy, hQ⟩ := hres
  cases hy.symm.trans h
  exact hQ

theorem fits_of_bit {b : Nat} (hb : b < 2) : BV.Fits ⟨1, b⟩ := ⟨le_rfl, (by decide : 1 ≤ 64), hb⟩

theorem getBit_fits {x : BV} {pos b : Nat} (h : getBit x pos = .ok b) : BV.Fits ⟨1, b⟩ := by
  obtain ⟨-, rfl⟩ := getBit_eq_ok.1 h
  exact fits_of_bit (Bool.toNat_lt _)

theorem setBit_fits {x y : BV} {pos b : Nat} (hx : x.Fits) (hb : b < 2) (h : setBit x pos b = .ok y) : y.Fits := by
  obtain ⟨h1, h2⟩ := check_of_ok (fun _ => setBit_eq_error) h
  exact (prop_of_ok (setBit_of_mem hx h1 h2 hb) h).2.1

theorem range_fits {x y : BV} {first last : Nat} (hx : x.Fits) (h : range x first last = .ok y) : y.Fits := by
  obtain ⟨h0, h1, h2⟩ := check_of_ok (fun _ => range_eq_error) h
  exact (prop_of_ok (range_of_bounds hx h0 h1 h2) h).2.1

theorem split_fits {x hi lo : BV} {mid : Nat} (hx : x.Fits) (h : split x mid = .ok (hi, lo)) :
    hi.Fits ∧ lo.Fits := by
  obtain ⟨h1, h2⟩ := check_of_ok (fun _ => split_eq_error) h
  obtain ⟨hi', lo', h', -, -, hhi, hlo, -, -⟩ := split_of_bounds hx h1 h2
  cases h'.symm.trans h
  exact ⟨hhi, hlo⟩

theorem concat_fits {a b y : BV} (ha : a.Fits) (hb : b.Fits) (h : concat a b = .ok y) : y.Fits :=
  (prop_of_ok (concat_of_bound ha hb (check_of_ok (fun _ => concat_eq_error) h)) h).2.1

/-- A gathered value fits whatever it is gathered from: one bit for each entry of the table. -/
theorem permute_fits {x y : BV} {t : List Nat} (h : permute x t = .ok y) : y.Fits := by
  have hlen : 1 ≤ t.length ∧ t.length ≤ 64 := by
    by_contra hlen
    cases h.symm.trans (permute_eq_error.2 (.inl ⟨hlen, rfl⟩))
  have hmem : ∀ p ∈ t, 1 ≤ p ∧ p ≤ x.w := by
    by_contra hmem
    cases h.symm.trans (permute_eq_error.2 (.inr ⟨hlen, by simpa only [not_forall, exists_prop] using hmem, rfl⟩))
  exact (prop_of_ok (permute_of_mem hlen.1 hlen.2 hmem) h).2.1

theorem dot_fits {a b : BV} {d : Nat} (h : dot a b = .ok d) : BV.Fits ⟨1, d⟩ := by
  obtain ⟨-, rfl⟩ := dot_eq_ok.1 h
  exact fits_of_bit (Nat.mod_lt _ (by decide))

theorem xorBV_fits {a b y : BV} (ha : a.Fits) (hb : b.Fits) (h : xorBV a b = .ok y) : y.Fits :=
  (prop_of_ok (xorBV_of_width ha hb (check_of_ok (P := a.w = b.w) (fun _ => xorBV_eq_error) h)) h).2.2.1

theorem mem_of_subkey {k : List BV} {n : Nat} {x : BV} (h : subkey k n = .ok x) : x ∈ k :=
  List.mem_of_getElem? (subkey_eq_ok.1 h).2

/-! ### The writes of a command -/

/-- One write of the command `i`, which was presented in `s₀`: to an element `i` is listed as a writer of (R20), of
values R39 allows there. What is read is legal only where `s₀` has the invariants, so widths are claimed under that
premise; the bounds of the counters and of the user table are checks of the commands and hold in every state. -/
inductive Write (i : Instr) (s₀ : State) : State → State → Prop
  | reg {s : State} {rd : VReg} {x : BV} (hi : rd ∈ destinations i) (hx : s₀.Inv → x.Fits) :
      Write i s₀ s (s.writeV rd x)
  | schedule {s : State} {cd : BV} {ks : List BV} (hi : writesSchedule i = true) (hkn : ks.length ≤ 16)
      (hcd : s₀.Inv → cd.Fits ∧ cd.w = 56) (hks : s₀.Inv → ∀ x ∈ ks, x.Fits ∧ x.w = 48) :
      Write i s₀ s { s with cd := some cd, k := ks }
  | halves {s : State} {l r : BV} {n : Nat} (hi : writesHalves i = true) (hn : n ≤ 16)
      (hl : s₀.Inv → l.Fits ∧ l.w = 32) (hr : s₀.Inv → r.Fits ∧ r.w = 32) :
      Write i s₀ s { s with l := some l, r := some r, rn := n }
  | table {s : State} {ut : List Imm} (hi : writesTable i = true) (hut : ut.length ≤ 64) :
      Write i s₀ s { s with ut := ut }
  | out {s : State} {value : BitVec 64} {width : BitVec 7} (hi : writesOut i = true)
      (ho : s₀.Inv → BV.Fits ⟨width.toNat, value.toNat⟩) :
      Write i s₀ s { s with outV := value, outW := width }

/-- The command `i`, presented in `s`, gets to `t` by writes of its own. -/
abbrev Reaches (i : Instr) (s t : State) : Prop := Relation.ReflTransGen (Write i s) s t

section OneWrite

variable {i : Instr} {s₀ a b : State}

theorem Write.get_eq (h : Write i s₀ a b) {j : VReg} (hj : j ∉ destinations i) : b.v.get j = a.v.get j := by
  cases h with
  | reg hi => exact writeV_get_of_ne _ _ _ _ (ne_of_mem_of_not_mem hi hj).symm
  | _ => rfl

theorem Write.schedule_eq (h : Write i s₀ a b) (hi : writesSchedule i = false) :
    (b.cd, b.k, b.kn) = (a.cd, a.k, a.kn) := by
  cases h with
  | schedule hw => simp [hi] at hw
  | _ => rfl

theorem Write.halves_eq (h : Write i s₀ a b) (hi : writesHalves i = false) : (b.l, b.r, b.rn) = (a.l, a.r, a.rn) := by
  cases h with
  | halves hw => simp [hi] at hw
  | _ => rfl

theorem Write.table_eq (h : Write i s₀ a b) (hi : writesTable i = false) : (b.ut, b.utlen) = (a.ut, a.utlen) := by
  cases h with
  | table hw => simp [hi] at hw
  | _ => rfl

theorem Write.out_eq (h : Write i s₀ a b) (hi : writesOut i = false) : (b.outV, b.outW) = (a.outV, a.outW) := by
  cases h with
  | out hw => simp [hi] at hw
  | _ => rfl

/-- Only fault entry and RESET write the fault record, and no command writes the host's list. -/
theorem Write.faultRecord_eq (h : Write i s₀ a b) :
    (b.fault, b.fcause, b.fcmd, b.input) = (a.fault, a.fcause, a.fcmd, a.input) := by
  cases h <;> rfl

theorem Write.get_isSome (h : Write i s₀ a b) {j : VReg} (hj : (a.v.get j).isSome) : (b.v.get j).isSome := by
  cases h with
  | reg => rw [writeV_get]; split <;> simp [hj]
  | _ => exact hj

theorem Write.cd_isSome (h : Write i s₀ a b) (hcd : a.cd.isSome) : b.cd.isSome := by
  cases h with
  | schedule => rfl
  | _ => exact hcd

theorem Write.l_isSome (h : Write i s₀ a b) (hl : a.l.isSome) : b.l.isSome := by
  cases h with
  | halves => rfl
  | _ => exact hl

theorem Write.r_isSome (h : Write i s₀ a b) (hr : a.r.isSome) : b.r.isSome := by
  cases h with
  | halves => rfl
  | _ => exact hr

/-- R39 is kept by every write of a command presented in a state that has it. -/
theorem Write.inv (h : Write i s₀ a b) (h₀ : s₀.Inv) (ha : a.Inv) : b.Inv := by
  cases h with
  | reg _ hx => exact writeV_inv ha _ (hx h₀)
  | schedule _ hkn hcd hks =>
    exact { ha with
      cdWidth := by rintro _ ⟨⟩; exact hcd h₀
      knBound := hkn
      subkeys := hks h₀
      knCd := fun _ => rfl }
  | halves _ hn hl hr =>
    exact { ha with
      halves := rfl
      lWidth := by rintro _ ⟨⟩; exact hl h₀
      rWidth := by rintro _ ⟨⟩; exact hr h₀
      rnBound := hn
      rnHalves := fun _ => rfl }
  | table _ hut => exact { ha with utBound := hut }
  | out _ ho => exact { ha with out := .inr (ho h₀) }

end OneWrite

section ManyWrites

variable {i : Instr} {s t : State}

/-- What every write of a command keeps, the command keeps. -/
theorem Reaches.keeps {Q : State → Prop} (hQ : ∀ a b, Write i s a b → Q a → Q b) (h : Reaches i s t) (hs : Q s) :
    Q t := by
  induction h with
  | refl => exact hs
  | tail _ hw ih => exact hQ _ _ hw ih

/-- What no write of a command changes, the command leaves. -/
theorem Reaches.leaves {α : Type} {f : State → α} (hf : ∀ a b, Write i s a b → f b = f a) (h : Reaches i s t) :
    f t = f s :=
  h.keeps (Q := fun u => f u = f s) (fun a b hw ha => (hf a b hw).trans ha) rfl

theorem Reaches.inv (h : Reaches i s t) (hs : s.Inv) : t.Inv := h.keeps (fun _ _ hw => hw.inv hs) hs

end ManyWrites

/-! ### The bodies of the key schedule and cipher commands -/

section Bodies

variable {i : Instr} {s u v : State}

theorem loadKey_reaches (hi : writesSchedule i = true) (hu : Reaches i s u) {key : BV} (hw : key.w = 64)
    (h : u.loadKey key = .ok v) : Reaches i s v ∧ v.kn = 0 := by
  obtain ⟨cd, -, hf, hcw, hload⟩ := loadKey_of_width u hw
  cases hload.symm.trans h
  exact ⟨hu.tail (.schedule hi (Nat.zero_le _) (fun _ => ⟨hf, hcw⟩) (fun _ _ hx => nomatch hx)), rfl⟩

theorem scheduleStep_reaches (hi : writesSchedule i = true) (hu : Reaches i s u) (hkn : u.kn < 16)
    (h : u.scheduleStep = .ok v) : Reaches i s v ∧ v.kn = u.kn + 1 := by
  obtain ⟨cd, hcd, h⟩ := bind_eq_ok.1 h
  obtain ⟨⟨cd', k⟩, hnext, h⟩ := bind_eq_ok.1 h
  cases h
  have hvals : s.Inv → (cd'.Fits ∧ cd'.w = 56) ∧ (k.Fits ∧ k.w = 48) := fun hs => by
    obtain ⟨hf, hw⟩ := (hu.inv hs).cdWidth cd (readCD_eq_ok.1 hcd)
    obtain ⟨cd'', k', hnext', hcd'', hk'⟩ := ksNext_ok hf hw (u.kn + 1)
    cases hnext'.symm.trans hnext
    exact ⟨hcd'', hk'⟩
  have hlen : (u.k ++ [k]).length = u.kn + 1 := by simp [State.kn]
  refine ⟨hu.tail (.schedule hi (by omega) (fun hs => (hvals hs).1) fun hs x hx => ?_), hlen⟩
  rcases List.mem_append.1 hx with hx | hx
  · exact (hu.inv hs).subkeys x hx
  · cases List.mem_singleton.1 hx
    exact (hvals hs).2

theorem initHalves_reaches (hi : writesHalves i = true) (hu : Reaches i s u) {p : BV} (hw : p.w = 64)
    (h : u.initHalves p = .ok v) : Reaches i s v ∧ v.rn = 0 := by
  obtain ⟨l, r, -, hl, hr, hinit⟩ := initHalves_of_width u hw
  cases hinit.symm.trans h
  exact ⟨hu.tail (.halves hi (Nat.zero_le _) (fun _ => hl) (fun _ => hr)), rfl⟩

theorem roundStep_reaches (hi : writesHalves i = true) (hu : Reaches i s u) (hrn : u.rn < 16)
    (h : u.roundStep = .ok v) : Reaches i s v ∧ v.rn = u.rn + 1 := by
  obtain ⟨⟨l, r⟩, hlr, h⟩ := bind_eq_ok.1 h
  obtain ⟨k, hk, h⟩ := bind_eq_ok.1 h
  obtain ⟨⟨l', r'⟩, hround, h⟩ := bind_eq_ok.1 h
  cases h
  obtain ⟨hl, hr⟩ := readLR_eq_ok.1 hlr
  have hvals : s.Inv → (l'.Fits ∧ l'.w = 32) ∧ (r'.Fits ∧ r'.w = 32) := fun hs => by
    have hinv := hu.inv hs
    obtain ⟨hlf, hlw⟩ := hinv.lWidth l hl
    obtain ⟨hrf, hrw⟩ := hinv.rWidth r hr
    obtain ⟨hkf, hkw⟩ := hinv.subkeys k (mem_of_subkey hk)
    obtain ⟨-, r'', -, -, hround', -, hr'', -⟩ := cRound_of_width hlf hlw hrw hkf hkw
    cases hround'.symm.trans hround
    exact ⟨⟨hrf, hrw⟩, hr''⟩
  exact ⟨hu.tail (.halves hi hrn (fun hs => (hvals hs).1) (fun hs => (hvals hs).2)), rfl⟩

theorem finalInto_reaches {rd : VReg} (hi : rd ∈ destinations i) (hu : Reaches i s u)
    (h : u.finalInto rd = .ok v) : Reaches i s v := by
  obtain ⟨⟨l, r⟩, -, h⟩ := bind_eq_ok.1 h
  obtain ⟨y, hy, h⟩ := bind_eq_ok.1 h
  cases h
  obtain ⟨c, -, hy⟩ := bind_eq_ok.1 hy
  exact hu.tail (.reg hi fun _ => permute_fits hy)

/-- A loop of KS.DERIVE, C.ENCK or C.ENCRYPT (R212) whose body advances a counter below 16,
repeated no further than 16. -/
theorem repeatTimes_reaches {f : State → Checked State} {count : State → Nat}
    (hf : ∀ u v, Reaches i s u → count u < 16 → f u = .ok v → Reaches i s v ∧ count v = count u + 1) :
    ∀ n u v, Reaches i s u → count u + n ≤ 16 → repeatTimes f n u = .ok v → Reaches i s v
  | 0, _, _, hu, _, h => by cases h; exact hu
  | n + 1, u, v, hu, hn, h => by
    obtain ⟨w, hw, h⟩ := bind_eq_ok.1 h
    obtain ⟨hreach, hcount⟩ := hf u w hu (by omega) hw
    exact repeatTimes_reaches hf n w v hreach (by omega) h

theorem deriveKeys_reaches (hi : writesSchedule i = true) (hu : Reaches i s u) {key : BV} (hw : key.w = 64) {n : Nat}
    (hn : n ≤ 16) (h : u.deriveKeys key n = .ok v) : Reaches i s v := by
  obtain ⟨w, hload, h⟩ := bind_eq_ok.1 h
  obtain ⟨hreach, hkn⟩ := loadKey_reaches hi hu hw hload
  exact repeatTimes_reaches (fun _ _ => scheduleStep_reaches hi) n w v hreach (by omega) h

theorem encryptStored_reaches {rd : VReg} (hi : writesHalves i = true) (hrd : rd ∈ destinations i)
    (hu : Reaches i s u) {p : BV} (hw : p.w = 64) {n : Nat} (hn : n ≤ 16) (h : u.encryptStored rd p n = .ok v) :
    Reaches i s v := by
  obtain ⟨w, hinit, h⟩ := bind_eq_ok.1 h
  obtain ⟨x, hrounds, h⟩ := bind_eq_ok.1 h
  obtain ⟨hreach, hrn⟩ := initHalves_reaches hi hu hw hinit
  exact finalInto_reaches hrd
    (repeatTimes_reaches (fun _ _ => roundStep_reaches hi) n w x hreach (by omega) hrounds) h

end Bodies

/-! ### How each command ends -/

/-- The outcome `res` of the command `i` in `s`: its own writes, or its fault and nothing else (R13, R233). -/
def EndsAsListed (i : Instr) (s : State) (res : Result) : Prop :=
  ∃ t, res = .next t ∧ (Reaches i s t ∨ ∃ c, t = s.takeFault c (encodeWord i))

theorem conclude_endsAsListed {i : Instr} {s : State} {res : Checked State} (h : ∀ t, res = .ok t → Reaches i s t) :
    EndsAsListed i s (conclude i s res) := by
  cases res with
  | ok t => exact ⟨t, rfl, .inl (h t rfl)⟩
  | error c => exact ⟨_, rfl, .inr ⟨c, rfl⟩⟩

/-- A command that only writes one value to its one destination. -/
theorem reaches_writeV {i : Instr} {s : State} {rd : VReg} {x : BV} (hi : rd ∈ destinations i)
    (hx : s.Inv → x.Fits) : Reaches i s (s.writeV rd x) := .single (.reg hi hx)

/-- A command that only writes two values to its two destinations. -/
theorem reaches_writeV_writeV {i : Instr} {s : State} {rd re : VReg} {x y : BV} (hd : rd ∈ destinations i)
    (he : re ∈ destinations i) (hxy : s.Inv → x.Fits ∧ y.Fits) : Reaches i s ((s.writeV rd x).writeV re y) :=
  (reaches_writeV hd fun hs => (hxy hs).1).tail (.reg he fun hs => (hxy hs).2)

section Commands

variable (rd re ra rb : VReg) (s : State)

theorem execBvNew_endsAsListed (w : Imm) (value : DataWord) :
    EndsAsListed (.bvNew rd w value) s (execBvNew rd w value s) :=
  conclude_endsAsListed fun t h => by
    obtain ⟨x, hx, h⟩ := bind_eq_ok.1 h
    cases h
    obtain ⟨hfits, rfl⟩ := construct_eq_ok.1 hx
    exact reaches_writeV (by simp [destinations]) fun _ => hfits

/-- A fitting value is not truncated at the ports (R31). -/
theorem execBvRead_endsAsListed : EndsAsListed (.bvRead ra) s (execBvRead ra s) :=
  conclude_endsAsListed fun t h => by
    obtain ⟨x, hx, h⟩ := bind_eq_ok.1 h
    cases h
    refine .single (.out rfl fun hs => ?_)
    obtain ⟨h1, h2, hv⟩ := fits_of_get hs (readV_eq_ok.1 hx)
    have hv64 : x.v < 2 ^ 64 := hv.trans_le (Nat.pow_le_pow_right (by decide) h2)
    rw [BitVec.toNat_ofNat, BitVec.toNat_ofNat, Nat.mod_eq_of_lt hv64, Nat.mod_eq_of_lt (by omega)]
    exact ⟨h1, h2, hv⟩

theorem execBvGet_endsAsListed (pos : Imm) : EndsAsListed (.bvGet rd ra pos) s (execBvGet rd ra pos s) :=
  conclude_endsAsListed fun t h => by
    obtain ⟨x, -, h⟩ := bind_eq_ok.1 h
    obtain ⟨b, hb, h⟩ := bind_eq_ok.1 h
    cases h
    exact reaches_writeV (by simp [destinations]) fun _ => getBit_fits hb

theorem execBvSet_endsAsListed (pos : Imm) (b : BitVec 1) :
    EndsAsListed (.bvSet rd ra pos b) s (execBvSet rd ra pos b s) :=
  conclude_endsAsListed fun t h => by
    obtain ⟨x, hx, h⟩ := bind_eq_ok.1 h
    obtain ⟨y, hy, h⟩ := bind_eq_ok.1 h
    cases h
    exact reaches_writeV (by simp [destinations]) fun hs => setBit_fits (fits_of_get hs (readV_eq_ok.1 hx)) b.isLt hy

theorem execBvRange_endsAsListed (first last : Imm) :
    EndsAsListed (.bvRange rd ra first last) s (execBvRange rd ra first last s) :=
  conclude_endsAsListed fun t h => by
    obtain ⟨x, hx, h⟩ := bind_eq_ok.1 h
    obtain ⟨y, hy, h⟩ := bind_eq_ok.1 h
    cases h
    exact reaches_writeV (by simp [destinations]) fun hs => range_fits (fits_of_get hs (readV_eq_ok.1 hx)) hy

theorem execBvSplit_endsAsListed (mid : Imm) :
    EndsAsListed (.bvSplit rd re ra mid) s (execBvSplit rd re ra mid s) :=
  conclude_endsAsListed fun t h => by
    obtain ⟨_, -, h⟩ := bind_eq_ok.1 h
    obtain ⟨x, hx, h⟩ := bind_eq_ok.1 h
    obtain ⟨⟨hi, lo⟩, hparts, h⟩ := bind_eq_ok.1 h
    cases h
    exact reaches_writeV_writeV (by simp [destinations]) (by simp [destinations])
      fun hs => split_fits (fits_of_get hs (readV_eq_ok.1 hx)) hparts

theorem execBvConcat_endsAsListed : EndsAsListed (.bvConcat rd ra rb) s (execBvConcat rd ra rb s) :=
  conclude_endsAsListed fun t h => by
    obtain ⟨a, ha, h⟩ := bind_eq_ok.1 h
    obtain ⟨b, hb, h⟩ := bind_eq_ok.1 h
    obtain ⟨y, hy, h⟩ := bind_eq_ok.1 h
    cases h
    exact reaches_writeV (by simp [destinations])
      fun hs => concat_fits (fits_of_get hs (readV_eq_ok.1 ha)) (fits_of_get hs (readV_eq_ok.1 hb)) hy

theorem execBvRotl_endsAsListed (n : Imm) : EndsAsListed (.bvRotl rd ra n) s (execBvRotl rd ra n s) :=
  conclude_endsAsListed fun t h => by
    obtain ⟨x, hx, h⟩ := bind_eq_ok.1 h
    cases h
    exact reaches_writeV (by simp [destinations]) fun hs => rotl_fits (fits_of_get hs (readV_eq_ok.1 hx)) _

theorem execBvPerm_endsAsListed (tid : Imm) : EndsAsListed (.bvPerm rd ra tid) s (execBvPerm rd ra tid s) :=
  conclude_endsAsListed fun t h => by
    obtain ⟨_, -, h⟩ := bind_eq_ok.1 h
    obtain ⟨x, -, h⟩ := bind_eq_ok.1 h
    obtain ⟨y, hy, h⟩ := bind_eq_ok.1 h
    cases h
    exact reaches_writeV (by simp [destinations]) fun _ => permute_fits hy

theorem execBvDot_endsAsListed : EndsAsListed (.bvDot rd ra rb) s (execBvDot rd ra rb s) :=
  conclude_endsAsListed fun t h => by
    obtain ⟨a, -, h⟩ := bind_eq_ok.1 h
    obtain ⟨b, -, h⟩ := bind_eq_ok.1 h
    obtain ⟨d, hd, h⟩ := bind_eq_ok.1 h
    cases h
    exact reaches_writeV (by simp [destinations]) fun _ => dot_fits hd

theorem execBvXor_endsAsListed : EndsAsListed (.bvXor rd ra rb) s (execBvXor rd ra rb s) :=
  conclude_endsAsListed fun t h => by
    obtain ⟨a, ha, h⟩ := bind_eq_ok.1 h
    obtain ⟨b, hb, h⟩ := bind_eq_ok.1 h
    obtain ⟨y, hy, h⟩ := bind_eq_ok.1 h
    cases h
    exact reaches_writeV (by simp [destinations])
      fun hs => xorBV_fits (fits_of_get hs (readV_eq_ok.1 ha)) (fits_of_get hs (readV_eq_ok.1 hb)) hy

theorem execTblClr_endsAsListed : EndsAsListed .tblClr s (execTblClr s) :=
  conclude_endsAsListed fun t h => by
    cases h
    exact .single (.table rfl (Nat.zero_le _))

theorem execTblPush_endsAsListed (e : Imm) : EndsAsListed (.tblPush e) s (execTblPush e s) :=
  conclude_endsAsListed fun t h => by
    obtain ⟨_, hroom, h⟩ := bind_eq_ok.1 h
    cases h
    have hroom : s.ut.length < 64 := require_eq_ok.1 hroom
    exact .single (.table rfl (by rw [List.length_append, List.length_singleton]; omega))

theorem execKsLoad_endsAsListed : EndsAsListed (.ksLoad ra) s (execKsLoad ra s) :=
  conclude_endsAsListed fun t h => by
    obtain ⟨key, -, h⟩ := bind_eq_ok.1 h
    obtain ⟨_, hw, h⟩ := bind_eq_ok.1 h
    exact (loadKey_reaches rfl .refl (hasWidth_eq_ok.1 hw) h).1

theorem execKsStep_endsAsListed : EndsAsListed .ksStep s (execKsStep s) :=
  conclude_endsAsListed fun t h => by
    obtain ⟨_, -, h⟩ := bind_eq_ok.1 h
    obtain ⟨_, hkn, h⟩ := bind_eq_ok.1 h
    exact (scheduleStep_reaches rfl .refl (require_eq_ok.1 hkn) h).1

theorem execKsDerive_endsAsListed (n : Count) : EndsAsListed (.ksDerive ra n) s (execKsDerive ra n s) :=
  conclude_endsAsListed fun t h => by
    obtain ⟨key, -, h⟩ := bind_eq_ok.1 h
    obtain ⟨_, hw, h⟩ := bind_eq_ok.1 h
    obtain ⟨_, hn, h⟩ := bind_eq_ok.1 h
    exact deriveKeys_reaches rfl .refl (hasWidth_eq_ok.1 hw) (require_eq_ok.1 hn) h

theorem execKsGetk_endsAsListed (idx : Count) : EndsAsListed (.ksGetk rd idx) s (execKsGetk rd idx s) :=
  conclude_endsAsListed fun t h => by
    obtain ⟨_, -, h⟩ := bind_eq_ok.1 h
    obtain ⟨x, hx, h⟩ := bind_eq_ok.1 h
    cases h
    exact reaches_writeV (by simp [destinations]) fun hs => (hs.subkeys x (mem_of_subkey hx)).1

theorem execKsGetcd_endsAsListed : EndsAsListed (.ksGetcd rd) s (execKsGetcd rd s) :=
  conclude_endsAsListed fun t h => by
    obtain ⟨x, hx, h⟩ := bind_eq_ok.1 h
    cases h
    exact reaches_writeV (by simp [destinations]) fun hs => (hs.cdWidth x (readCD_eq_ok.1 hx)).1

theorem execRfSbox_endsAsListed : EndsAsListed (.rfSbox rd ra) s (execRfSbox rd ra s) :=
  conclude_endsAsListed fun t h => by
    obtain ⟨x, hx, h⟩ := bind_eq_ok.1 h
    obtain ⟨_, hw, h⟩ := bind_eq_ok.1 h
    obtain ⟨y, hy, h⟩ := bind_eq_ok.1 h
    cases h
    exact reaches_writeV (by simp [destinations]) fun hs =>
      (prop_of_ok (sbox48_of_width (fits_of_get hs (readV_eq_ok.1 hx)) (hasWidth_eq_ok.1 hw)) hy).1

theorem execRfF_endsAsListed : EndsAsListed (.rfF rd ra rb) s (execRfF rd ra rb s) :=
  conclude_endsAsListed fun t h => by
    obtain ⟨r, -, h⟩ := bind_eq_ok.1 h
    obtain ⟨k, -, h⟩ := bind_eq_ok.1 h
    obtain ⟨_, -, h⟩ := bind_eq_ok.1 h
    obtain ⟨_, -, h⟩ := bind_eq_ok.1 h
    obtain ⟨y, hy, h⟩ := bind_eq_ok.1 h
    cases h
    obtain ⟨_, -, hy⟩ := bind_eq_ok.1 hy
    obtain ⟨_, -, hy⟩ := bind_eq_ok.1 hy
    obtain ⟨_, -, hy⟩ := bind_eq_ok.1 hy
    exact reaches_writeV (by simp [destinations]) fun _ => permute_fits hy

theorem execRfSb_endsAsListed (j : Imm) : EndsAsListed (.rfSb rd ra j) s (execRfSb rd ra j s) :=
  conclude_endsAsListed fun t h => by
    obtain ⟨_, hj, h⟩ := bind_eq_ok.1 h
    obtain ⟨c, hc, h⟩ := bind_eq_ok.1 h
    obtain ⟨_, hw, h⟩ := bind_eq_ok.1 h
    obtain ⟨y, hy, h⟩ := bind_eq_ok.1 h
    cases h
    obtain ⟨-, hj8⟩ := require_eq_ok.1 hj
    refine reaches_writeV (by simp [destinations]) fun hs => ?_
    obtain ⟨_, -, -, ho, hfits⟩ :=
      sbox6_of_width (fits_of_get hs (readV_eq_ok.1 hc)) (hasWidth_eq_ok.1 hw) (Nat.lt_succ_of_le hj8)
    cases ho.symm.trans hy
    exact hfits

theorem execCInit_endsAsListed : EndsAsListed (.cInit ra) s (execCInit ra s) :=
  conclude_endsAsListed fun t h => by
    obtain ⟨p, -, h⟩ := bind_eq_ok.1 h
    obtain ⟨_, hw, h⟩ := bind_eq_ok.1 h
    exact (initHalves_reaches rfl .refl (hasWidth_eq_ok.1 hw) h).1

theorem execCRound_endsAsListed : EndsAsListed .cRound s (execCRound s) :=
  conclude_endsAsListed fun t h => by
    obtain ⟨_, -, h⟩ := bind_eq_ok.1 h
    obtain ⟨_, hrn, h⟩ := bind_eq_ok.1 h
    obtain ⟨_, -, h⟩ := bind_eq_ok.1 h
    exact (roundStep_reaches rfl .refl (require_eq_ok.1 hrn) h).1

theorem execCFinal_endsAsListed : EndsAsListed (.cFinal rd) s (execCFinal rd s) :=
  conclude_endsAsListed fun t h => finalInto_reaches (by simp [destinations]) .refl h

theorem execCEnck_endsAsListed (n : Count) : EndsAsListed (.cEnck rd ra n) s (execCEnck rd ra n s) :=
  conclude_endsAsListed fun t h => by
    obtain ⟨p, -, h⟩ := bind_eq_ok.1 h
    obtain ⟨_, hw, h⟩ := bind_eq_ok.1 h
    obtain ⟨_, hn, h⟩ := bind_eq_ok.1 h
    obtain ⟨_, -, h⟩ := bind_eq_ok.1 h
    exact encryptStored_reaches rfl (by simp [destinations]) .refl (hasWidth_eq_ok.1 hw) (require_eq_ok.1 hn) h

theorem execCEncrypt_endsAsListed (n : Count) :
    EndsAsListed (.cEncrypt rd ra rb n) s (execCEncrypt rd ra rb n s) :=
  conclude_endsAsListed fun t h => by
    obtain ⟨p, -, h⟩ := bind_eq_ok.1 h
    obtain ⟨key, -, h⟩ := bind_eq_ok.1 h
    obtain ⟨_, hpw, h⟩ := bind_eq_ok.1 h
    obtain ⟨_, hkw, h⟩ := bind_eq_ok.1 h
    obtain ⟨_, hn, h⟩ := bind_eq_ok.1 h
    obtain ⟨u, hkeys, h⟩ := bind_eq_ok.1 h
    have hn : n.toNat ≤ 16 := require_eq_ok.1 hn
    have hu : Reaches (.cEncrypt rd ra rb n) s u := deriveKeys_reaches rfl .refl (hasWidth_eq_ok.1 hkw) hn hkeys
    exact encryptStored_reaches rfl (by simp [destinations]) hu (hasWidth_eq_ok.1 hpw) hn h

theorem execCGetlr_endsAsListed : EndsAsListed (.cGetlr rd re) s (execCGetlr rd re s) :=
  conclude_endsAsListed fun t h => by
    obtain ⟨_, -, h⟩ := bind_eq_ok.1 h
    obtain ⟨⟨l, r⟩, hlr, h⟩ := bind_eq_ok.1 h
    cases h
    obtain ⟨hl, hr⟩ := readLR_eq_ok.1 hlr
    exact reaches_writeV_writeV (by simp [destinations]) (by simp [destinations])
      fun hs => ⟨(hs.lWidth l hl).1, (hs.rWidth r hr).1⟩

end Commands

/-- Every command, in every state, ends with its own writes or with its fault. -/
theorem exec_endsAsListed (i : Instr) (s : State) : EndsAsListed i s (exec i s) :=
  match i with
  | .bvNew rd w value => execBvNew_endsAsListed rd s w value
  | .bvRead ra => execBvRead_endsAsListed ra s
  | .bvGet rd ra pos => execBvGet_endsAsListed rd ra s pos
  | .bvSet rd ra pos b => execBvSet_endsAsListed rd ra s pos b
  | .bvRange rd ra first last => execBvRange_endsAsListed rd ra s first last
  | .bvSplit rd re ra mid => execBvSplit_endsAsListed rd re ra s mid
  | .bvConcat rd ra rb => execBvConcat_endsAsListed rd ra rb s
  | .bvRotl rd ra n => execBvRotl_endsAsListed rd ra s n
  | .bvPerm rd ra tid => execBvPerm_endsAsListed rd ra s tid
  | .bvDot rd ra rb => execBvDot_endsAsListed rd ra rb s
  | .bvXor rd ra rb => execBvXor_endsAsListed rd ra rb s
  | .tblClr => execTblClr_endsAsListed s
  | .tblPush e => execTblPush_endsAsListed s e
  | .ksLoad ra => execKsLoad_endsAsListed ra s
  | .ksStep => execKsStep_endsAsListed s
  | .ksDerive ra n => execKsDerive_endsAsListed ra s n
  | .ksGetk rd idx => execKsGetk_endsAsListed rd s idx
  | .ksGetcd rd => execKsGetcd_endsAsListed rd s
  | .rfSbox rd ra => execRfSbox_endsAsListed rd ra s
  | .rfF rd ra rb => execRfF_endsAsListed rd ra rb s
  | .rfSb rd ra j => execRfSb_endsAsListed rd ra s j
  | .cInit ra => execCInit_endsAsListed ra s
  | .cRound => execCRound_endsAsListed s
  | .cFinal rd => execCFinal_endsAsListed rd s
  | .cEnck rd ra n => execCEnck_endsAsListed rd ra s n
  | .cEncrypt rd ra rb n => execCEncrypt_endsAsListed rd ra rb s n
  | .cGetlr rd re => execCGetlr_endsAsListed rd re s

/-- Whatever is presented, MSE goes on; and what every write and fault entry keep, it keeps. -/
theorem acceptCommand_keeps {Q : State → Prop} {s : State} (hwrite : ∀ i a b, Write i s a b → Q a → Q b)
    (hfault : ∀ c cw, Q (s.takeFault c cw)) (hs : Q s) (cw : CmdWord) (dw : DataWord) :
    ∃ t, acceptCommand cw dw s = .next t ∧ Q t := by
  rcases acceptCommand_cases cw dw s with ⟨-, h⟩ | ⟨-, _, -, h⟩ | ⟨-, i, -, h⟩
  · exact ⟨s, h, hs⟩
  · exact ⟨_, h, hfault _ _⟩
  · obtain ⟨t, ht, hreach | ⟨c, rfl⟩⟩ := exec_endsAsListed i s
    · exact ⟨t, h.trans ht, hreach.keeps (hwrite i) hs⟩
    · exact ⟨_, h.trans ht, hfault _ _⟩

end Sys2Proof.Machine
end

section
/-! PROOFS. The statements of 10_state.md: the invariants of R39, the ports (R29 to R31), the writers (R20), the
registers once written (R23, R24) and RESET (R38). -/

namespace Sys2Proof.Machine

/-! ### The invariants (R39) -/

theorem reset_inv : State.reset.Inv where
  regs i x hx := by simp at hx
  cdWidth _ hx := nomatch hx
  knBound := by decide
  subkeys _ hx := nomatch hx
  knCd h := absurd h (by decide)
  halves := rfl
  lWidth _ hx := nomatch hx
  rWidth _ hx := nomatch hx
  rnBound := by decide
  rnHalves h := absurd h (by decide)
  utBound := by decide
  out := .inl ⟨rfl, rfl⟩
  faultRecord := .inl ⟨rfl, rfl, rfl⟩

/-- In a state with the invariants the machine goes on, to a state with the invariants. -/
theorem step_inv {s : State} (hs : s.Inv) : ∃ t, step s = .next t ∧ t.Inv := by
  rcases step_cases s with ⟨-, h⟩ | ⟨rest, -, h⟩ | ⟨cw, dw, rest, -, h⟩
  · exact ⟨s, h, hs⟩
  · exact ⟨_, h, withInput_inv reset_inv rest⟩
  · have hs' := withInput_inv hs rest
    rw [h]
    exact acceptCommand_keeps (fun _ _ _ hw => hw.inv hs') (takeFault_inv hs') hs' cw dw

theorem run_inv : ∀ (n : Nat) (s : State), s.Inv → ∃ t, Host.Core.run Sys2Proof.core n s = .next t ∧ t.Inv
  | 0, s, hs => ⟨s, rfl, hs⟩
  | n + 1, s, hs => by
    obtain ⟨u, hstep, hu⟩ := step_inv hs
    obtain ⟨t, hrun, ht⟩ := run_inv n u hu
    refine ⟨t, ?_, ht⟩
    have hcore : Sys2Proof.core.step s = .next u := hstep
    simpa only [Host.Core.run, hcore] using hrun

/-- Settles O3, from the fact that every write of a command keeps R39. -/
theorem everyStepKeepsTheInvariant : Obligations.EveryStepKeepsTheInvariant := by
  intro s t hs hstep
  obtain ⟨u, hu, hinv⟩ := step_inv hs
  cases hu.symm.trans hstep
  exact hinv

/-- The state a run ends in. -/
def endState : Result → Option State
  | .next t => some t
  | .fault _ => none
  | .refused _ => none

theorem endState_eq_some {res : Result} {t : State} : endState res = some t ↔ res = .next t := by
  cases res <;> simp [endState]

/-- `BV.NEW V0, 64 ; 0`, `C.ENCRYPT V1, V0, V0, 1`, `KS.LOAD V0`: "`KS.LOAD` sets KN to 0 without touching RN"
(R39). -/
def roundsAboveSubkeys : List HostEvent := [.command 0x10000040 0, .command 0x54100001 0, .command 0x30000000 0]

/-- The state after these three commands: one round applied, no subkey held. -/
def afterRoundsAboveSubkeys : State :=
  { (State.reset.writeV 0 ⟨64, 0⟩).writeV 1 ⟨64, 289357742068552789⟩ with
    cd := some ⟨56, 0⟩, l := some ⟨32, 0⟩, r := some ⟨32, 3638090684⟩, rn := 1 }

theorem run_roundsAboveSubkeys :
    Host.Core.run Sys2Proof.core 3 { State.reset with input := roundsAboveSubkeys } = .next afterRoundsAboveSubkeys :=
  endState_eq_some.1 (by decide +kernel)

/-- Settles O4: runs by induction on the number of steps; `RN ≤ KN` fails after an encryption followed by the load of
another key. -/
theorem everyReachableStateHasTheInvariant : Obligations.EveryReachableStateHasTheInvariant :=
  ⟨fun events n => run_inv n _ (withInput_inv reset_inv events),
    roundsAboveSubkeys, 3, afterRoundsAboveSubkeys, run_roundsAboveSubkeys, rfl, by decide⟩

/-- Settles O2. -/
theorem invariantHoldsAtReset : Obligations.InvariantHoldsAtReset := reset_inv

/-! ### The ports (R29 to R31) -/

/-- R39 (f) as the host reads it: the value at the port is below `2^OUTW`, and 0 where the width is 0. -/
theorem out_legal {s : State} (hs : s.Inv) :
    (s.outW.toNat = 0 → s.outV.toNat = 0) ∧ s.outV.toNat < 2 ^ s.outW.toNat := by
  rcases hs.out with ⟨hw, hv⟩ | ⟨hw, -, hv⟩
  · simp [hw, hv]
  · exact ⟨fun h0 => absurd h0 (Nat.one_le_iff_ne_zero.1 hw), hv⟩

/-- R39 (g) by the value of FAULT. -/
theorem faultRecord_legal {s : State} (hs : s.Inv) :
    (s.fault = false → s.fcause = 0 ∧ s.fcmd = 0) ∧
      (s.fault = true → 1 ≤ s.fcause.toNat ∧ s.fcause.toNat ≤ 10) := by
  rcases hs.faultRecord with ⟨hf, hrec⟩ | ⟨hf, hrec⟩
  · exact ⟨fun _ => hrec, fun h => by simp [hf] at h⟩
  · exact ⟨fun h => by simp [hf] at h, fun _ => hrec⟩

/-- Settles O7: the bounds of R39 on KN, RN and UTLEN are below the ends of their ports. -/
theorem portsShowTheState : Obligations.PortsShowTheState := by
  intro s hs
  have hkn : s.ports.kn.toNat = s.kn := Nat.mod_eq_of_lt (hs.knBound.trans_lt (by decide))
  have hrn : s.ports.rn.toNat = s.rn := Nat.mod_eq_of_lt (hs.rnBound.trans_lt (by decide))
  have hut : s.ports.utlen.toNat = s.utlen := Nat.mod_eq_of_lt (hs.utBound.trans_lt (by decide))
  have hfault : s.ports.fault.toNat = s.fault.toNat := BitVec.toNat_ofBool _
  obtain ⟨hout0, hout⟩ := out_legal hs
  obtain ⟨hok, hfaulted⟩ := faultRecord_legal hs
  exact ⟨rfl, rfl, rfl, rfl, hfault, hkn, hrn, hut, hout0, hout, hok, hfaulted⟩

/-! ### The writers of each element (R20, R23) -/

/-- Settles O18: no single write of a command changes what the command is no writer of, and fault entry writes the
fault record only. -/
theorem commandsWriteOnlyWhatTheyAreListedToWrite : Obligations.CommandsWriteOnlyWhatTheyAreListedToWrite := by
  intro i s t _ hexec
  obtain ⟨u, hu, hend⟩ := exec_endsAsListed i s
  cases hu.symm.trans hexec
  rcases hend with h | ⟨c, rfl⟩
  · have hrec := h.leaves (f := fun u => (u.fault, u.fcause, u.fcmd, u.input)) fun _ _ hw => hw.faultRecord_eq
    simp only [Prod.mk.injEq] at hrec
    obtain ⟨-, hcause, hcmd, hinput⟩ := hrec
    refine ⟨fun j hj => ?_, fun hi => ?_, fun hi => ?_, fun hi => ?_, fun hi => ?_, fun _ => ⟨hcause, hcmd⟩, hinput⟩
    · exact h.leaves (f := fun u => u.v.get j) fun _ _ hw => hw.get_eq hj
    · simpa using h.leaves (f := fun u => (u.cd, u.k, u.kn)) fun _ _ hw => hw.schedule_eq hi
    · simpa using h.leaves (f := fun u => (u.l, u.r, u.rn)) fun _ _ hw => hw.halves_eq hi
    · simpa using h.leaves (f := fun u => (u.ut, u.utlen)) fun _ _ hw => hw.table_eq hi
    · simpa using h.leaves (f := fun u => (u.outV, u.outW)) fun _ _ hw => hw.out_eq hi
  · simp

/-- Whatever holds a value in `s` holds one in `t`: the registers, CD, L and R (R23). -/
structure StaysHeld (s t : State) : Prop where
  regs : ∀ j : VReg, (s.v.get j).isSome → (t.v.get j).isSome
  cd : s.cd.isSome → t.cd.isSome
  l : s.l.isSome → t.l.isSome
  r : s.r.isSome → t.r.isSome

theorem Write.staysHeld {i : Instr} {s₀ s a b : State} (hw : Write i s₀ a b) (h : StaysHeld s a) :
    StaysHeld s b where
  regs j hj := hw.get_isSome (h.regs j hj)
  cd hcd := hw.cd_isSome (h.cd hcd)
  l hl := hw.l_isSome (h.l hl)
  r hr := hw.r_isSome (h.r hr)

/-- Settles O19: a write puts a value and takes none away, and fault entry touches no register. -/
theorem noCommandEmptiesARegister : Obligations.NoCommandEmptiesARegister := by
  intro cw dw rest s hin
  have hsame : StaysHeld s { s with input := rest } := ⟨fun _ h => h, id, id, id⟩
  obtain ⟨t, ht, hheld⟩ := acceptCommand_keeps (Q := StaysHeld s) (s := { s with input := rest })
    (fun _ _ _ hw => hw.staysHeld) (fun _ _ => ⟨fun _ h => h, id, id, id⟩) hsame cw dw
  exact ⟨t, (step_of_command hin).trans ht, hheld.regs, hheld.cd, hheld.l, hheld.r⟩

/-! ### RESET (R38) and the write of a register (R24) -/

/-- Settles O1. -/
theorem resetPutsEveryElementAtItsResetValue : Obligations.ResetPutsEveryElementAtItsResetValue :=
  ⟨reset_get, rfl, rfl, rfl, rfl, rfl, rfl, rfl, rfl, rfl, rfl, rfl, rfl, rfl, rfl⟩

theorem writeV_writeV_self (s : State) (i : VReg) (x y : BV) : (s.writeV i y).writeV i x = s.writeV i x := by
  simp [State.writeV, Vector.set_set]

/-- Settles O20: besides the two reads after a write, an earlier write to the register leaves no trace, and a write
reaches no field but the registers. -/
theorem writingARegisterReplacesItWhole : Obligations.WritingARegisterReplacesItWhole :=
  fun s i x y =>
    ⟨writeV_get_self s i x, fun j hj => writeV_get_of_ne s i j x hj, writeV_writeV_self s i x y, rfl⟩

end Sys2Proof.Machine
end

section
/-! PROOFS. The statements of 20_memory.md: what the constant tables are (R54 to R61, R70), and that the parity
positions of a key have no effect (R58). -/

namespace Sys2Proof.Machine

/-! ### A gathered value depends on the selected positions only -/

section SelectedPositions

variable {x y : BV}

theorem getBit_congr (hw : x.w = y.w) {p : Nat} (h : x.at p = y.at p) : getBit x p = getBit y p := by
  simp only [getBit, bitOf_eq, hw, h]

theorem gather_congr (hw : x.w = y.w) : ∀ {t : List Nat}, (∀ p ∈ t, x.at p = y.at p) → gather x t = gather y t
  | [], _ => rfl
  | p :: t, h => by
    obtain ⟨hp, ht⟩ := List.forall_mem_cons.1 h
    simp only [gather, getBit_congr hw hp, gather_congr hw ht]

/-- What `permute` answers, a raised cause included, is decided by the width and the positions the table names. -/
theorem permute_congr (hw : x.w = y.w) {t : List Nat} (h : ∀ p ∈ t, x.at p = y.at p) :
    permute x t = permute y t := by
  simp only [permute, gather_congr hw h]

end SelectedPositions

/-! ### The permutation tables (R54 to R59) -/

theorem restores_tableIP_tableFP : restores tableIP tableFP = true ∧ restores tableFP tableIP = true := by
  have h := tableFacts_hold
  simp only [tableFacts, inverseTablesFact, Bool.and_eq_true] at h
  tauto

/-- A table that another one undoes names no position twice. -/
theorem nodup_of_restores {s t : List Nat} (h : restores s t = true) : t.Nodup := by
  refine List.nodup_iff_injective_get.2 fun i j hij => Fin.ext ?_
  have entry : ∀ k : Fin t.length, s.getD (t.get k - 1) 0 = k + 1 := fun k => by
    simpa [List.getD_eq_getElem _ _ k.isLt] using restores_iff.1 h k k.isLt
  have : i.val + 1 = j.val + 1 := by rw [← entry i, hij, entry j]
  omega

theorem tableP_nodup : tableP.Nodup := by decide
theorem tablePC1_nodup : tablePC1.Nodup := by decide
theorem tablePC2_nodup : tablePC2.Nodup := by decide

/-- E names the first and the last position of each group of four twice (R56). -/
theorem tableE_count : ∀ p ≤ 32, 1 ≤ p → tableE.count p = if p % 4 = 0 ∨ p % 4 = 1 then 2 else 1 := by decide

/-- PC1 drops the multiples of 8, the parity positions, and no other (R58). -/
theorem mem_tablePC1 {p : Nat} : p ∈ tablePC1 ↔ 1 ≤ p ∧ p ≤ 64 ∧ p % 8 ≠ 0 := by
  have named : ∀ p ∈ tablePC1, 1 ≤ p ∧ p ≤ 64 ∧ p % 8 ≠ 0 := by decide
  have complete : ∀ p ≤ 64, 1 ≤ p → p % 8 ≠ 0 → p ∈ tablePC1 := by decide
  exact ⟨named p, fun ⟨h1, h64, h8⟩ => complete p h64 h1 h8⟩

/-- PC2 takes its first half from C and its second from D (R59). -/
theorem tablePC2_halves :
    (∀ p ∈ tablePC2.take 24, 1 ≤ p ∧ p ≤ 28) ∧ ∀ p ∈ tablePC2.drop 24, 29 ≤ p ∧ p ≤ 56 := by decide

/-- IP and FP undo each other on every 64-bit value, in both orders (R55, R70 a). -/
theorem permute_tableIP_tableFP {x : BV} (hx : x.Fits) (hw : x.w = 64) :
    ∃ y z, permute x tableIP = .ok y ∧ permute y tableFP = .ok x ∧
      permute x tableFP = .ok z ∧ permute z tableIP = .ok x := by
  obtain ⟨hIF, hFI⟩ := restores_tableIP_tableFP
  have hI : tableIP.length = x.w := tableIP_length.trans hw.symm
  have hF : tableFP.length = x.w := tableFP_length.trans hw.symm
  have hIr : ∀ p ∈ tableIP, 1 ≤ p ∧ p ≤ x.w := hw ▸ tableIP_range
  have hFr : ∀ p ∈ tableFP, 1 ≤ p ∧ p ≤ x.w := hw ▸ tableFP_range
  obtain ⟨y, hy, hyx⟩ := permute_restores hx hI hF hIr hFr hIF
  obtain ⟨z, hz, hzx⟩ := permute_restores hx hF hI hFr hIr hFI
  exact ⟨y, z, hy, hyx, hz, hzx⟩

/-! ### The shift schedule and the substitution tables (R60, R61) -/

theorem shift_eq : ∀ i ≤ 16, 1 ≤ i → shift i = if i = 1 ∨ i = 2 ∨ i = 9 ∨ i = 16 then 1 else 2 := by decide

/-- Every 4-bit value stands in every row of every box (R61). -/
theorem exists_sbox_eq : ∀ j ≤ 8, 1 ≤ j → ∀ row < 4, ∀ value < 16, ∃ col < 16, sbox j row col = value := by
  decide +kernel

/-- The entries of a row are exactly the 4-bit values. -/
theorem lt_sixteen_iff_exists_sbox {j row value : Nat} (h1 : 1 ≤ j) (h8 : j ≤ 8) (hrow : row < 4) :
    value < 16 ↔ ∃ col, col < 16 ∧ sbox j row col = value := by
  constructor
  · exact exists_sbox_eq j h8 h1 row hrow value
  · rintro ⟨col, hcol, rfl⟩
    exact sbox_lt j (by omega) row hrow col hcol

/-- Settles O59, table by table; what IP and FP do to values follows from what they do to positions. -/
theorem tablesAreWhatTheSourceSaysOfThem : Obligations.TablesAreWhatTheSourceSaysOfThem := by
  obtain ⟨hIF, hFI⟩ := restores_tableIP_tableFP
  exact
    ⟨⟨nodup_of_restores hFI, nodup_of_restores hIF, fun i hi => ⟨restores_iff.1 hFI i hi, restores_iff.1 hIF i hi⟩,
        fun _ hx hw => permute_tableIP_tableFP hx hw⟩,
      ⟨tableP_nodup, tableP_length, tableP_range⟩,
      ⟨tableE_length, tableE_range, fun p h1 h32 => tableE_count p h32 h1⟩,
      ⟨tablePC1_nodup, tablePC1_length, fun _ => mem_tablePC1⟩,
      ⟨tablePC2_nodup, tablePC2_length, tablePC2_halves⟩,
      fun i h1 h16 => shift_eq i h16 h1,
      fun _ _ h1 h8 hrow _ => lt_sixteen_iff_exists_sbox h1 h8 hrow⟩

/-! ### The parity positions of the key (R58) -/

/-- Keys that agree outside the parity positions load one register. -/
theorem ksLoad_congr {key key' : BV} (hw : key.w = key'.w)
    (h : ∀ q, 1 ≤ q → q ≤ 64 → q % 8 ≠ 0 → key.at q = key'.at q) : ksLoad key = ksLoad key' :=
  permute_congr hw fun p hp => by
    obtain ⟨h1, h64, h8⟩ := mem_tablePC1.1 hp
    exact h p h1 h64 h8

/-- The key enters the schedule through the register loaded from it only (R160). -/
theorem derive_congr {key key' : BV} (h : ksLoad key = ksLoad key') (n : Nat) : derive key n = derive key' n := by
  simp only [derive, h]

/-- The key enters the encryption through its subkeys only (R200). -/
theorem encrypt_congr {key key' : BV} {n : Nat} (h : derive key n = derive key' n) (p : BV) :
    encrypt p key n = encrypt p key' n := by
  simp only [encrypt, h]

/-- Settles O51: PC1 names no parity position, and the key is read through PC1 only. -/
theorem parityPositionsOfTheKeyHaveNoEffect : Obligations.ParityPositionsOfTheKeyHaveNoEffect := by
  intro key key' p n _ _ hw hw' hagree
  have hload : ksLoad key = ksLoad key' := ksLoad_congr (hw.trans hw'.symm) hagree
  have hderive : derive key n = derive key' n := derive_congr hload n
  exact ⟨hload, hderive, encrypt_congr hderive p⟩

end Sys2Proof.Machine
end

section
/-! PROOFS. The statements of 30_encoding.md: the opcode map picks one row for a word, encoding and decoding undo each
other, exactly the words of R99 are illegal, DW belongs to `BV.NEW`, and listings assemble (R90 to R102). -/

namespace Sys2Proof.Machine

/-! ### A word and its row of the opcode map (R97, R98) -/

theorem opField_mask : ∀ row ∈ opcodeTable, opField row.mask = BitVec.allOnes 8 := by decide

/-- "the mask covers the opcode" (R97), so a word that matches a row has the row's opcode. -/
theorem opField_of_matches {row : OpRow} (hrow : row ∈ opcodeTable) {cw : CmdWord} (h : cw &&& row.mask = row.mtch) :
    opField row.mtch = opField cw :=
  calc opField row.mtch
      = opField cw &&& opField row.mask := by rw [← h]; exact BitVec.extractLsb'_and
    _ = opField cw := by rw [opField_mask row hrow, BitVec.and_allOnes]

theorem mem_of_rowOf {op : BitVec 8} {row : OpRow} (h : rowOf op = some row) :
    row ∈ opcodeTable ∧ opField row.mtch = op :=
  ⟨List.mem_of_find?_eq_some h, by simpa using List.find?_some h⟩

theorem rowOf_opField_mtch : ∀ row ∈ opcodeTable, rowOf (opField row.mtch) = some row :=
  List.forall_iff_forall_mem.1 (by repeat' constructor)

theorem rowOf_of_matches {row : OpRow} (hrow : row ∈ opcodeTable) {cw : CmdWord} (h : cw &&& row.mask = row.mtch) :
    rowOf (opField cw) = some row :=
  opField_of_matches hrow h ▸ rowOf_opField_mtch row hrow

theorem opcodes_distinct : opcodeTable.Pairwise fun a b => opField a.mtch ≠ opField b.mtch := by decide

/-- Settles O14: a word that matches two rows has the opcode of both, and no two rows have one opcode. -/
theorem noWordMatchesTwoRows : Obligations.NoWordMatchesTwoRows :=
  opcodes_distinct.imp_of_mem fun {_ _} ha hb hne _ ⟨hma, hmb⟩ =>
    hne ((opField_of_matches ha hma).trans (opField_of_matches hb hmb).symm)

/-! ### From a command to its word and back (R92, R93, R101) -/

/-- The word of every command matches a row of R97. -/
theorem encodesItsRow : ∀ i : Instr, Laws.EncodesItsRow.Statement i
  | .bvNew .. => Laws.EncodesItsRow.bvNew ..
  | .bvRead .. => Laws.EncodesItsRow.bvRead ..
  | .bvGet .. => Laws.EncodesItsRow.bvGet ..
  | .bvSet .. => Laws.EncodesItsRow.bvSet ..
  | .bvRange .. => Laws.EncodesItsRow.bvRange ..
  | .bvSplit .. => Laws.EncodesItsRow.bvSplit ..
  | .bvConcat .. => Laws.EncodesItsRow.bvConcat ..
  | .bvRotl .. => Laws.EncodesItsRow.bvRotl ..
  | .bvPerm .. => Laws.EncodesItsRow.bvPerm ..
  | .bvDot .. => Laws.EncodesItsRow.bvDot ..
  | .bvXor .. => Laws.EncodesItsRow.bvXor ..
  | .tblClr => Laws.EncodesItsRow.tblClr
  | .tblPush .. => Laws.EncodesItsRow.tblPush ..
  | .ksLoad .. => Laws.EncodesItsRow.ksLoad ..
  | .ksStep => Laws.EncodesItsRow.ksStep
  | .ksDerive .. => Laws.EncodesItsRow.ksDerive ..
  | .ksGetk .. => Laws.EncodesItsRow.ksGetk ..
  | .ksGetcd .. => Laws.EncodesItsRow.ksGetcd ..
  | .rfSbox .. => Laws.EncodesItsRow.rfSbox ..
  | .rfF .. => Laws.EncodesItsRow.rfF ..
  | .rfSb .. => Laws.EncodesItsRow.rfSb ..
  | .cInit .. => Laws.EncodesItsRow.cInit ..
  | .cRound => Laws.EncodesItsRow.cRound
  | .cFinal .. => Laws.EncodesItsRow.cFinal ..
  | .cEnck .. => Laws.EncodesItsRow.cEnck ..
  | .cEncrypt .. => Laws.EncodesItsRow.cEncrypt ..
  | .cGetlr .. => Laws.EncodesItsRow.cGetlr ..

theorem toFin_regBits (r : VReg) : (regBits r).toFin = r := rfl

/-- The row a command's opcode selects reads every operand from the place the encoder put it. The argument is the same
for all 27: the opcode is the word's top slice, so the row is known, and each field the row uses is one slice. -/
theorem build_fieldsOf_encodeWord {i : Instr} {row : OpRow} (h : rowOf (opField (encodeWord i)) = some row) :
    row.build (fieldsOf (encodeWord i) (encodeData i)) = i := by
  cases i <;>
  · simp (disch := decide) only [encodeWord, opField, BitVec.extractLsb'_append_eq_of_le, Nat.reduceSub,
      BitVec.extractLsb'_eq_self] at h
    obtain rfl := Option.some.inj h
    simp (disch := decide) only [encodeWord, encodeData, fieldsOf, regField, BitVec.extractLsb'_append_eq_of_le,
      Nat.reduceSub, BitVec.extractLsb'_append_eq_of_add_le, BitVec.extractLsb'_eq_self, toFin_regBits]

/-- Settles O11: a command's word matches a row, which its opcode selects, and that row's fields are the operands. -/
theorem decodingReadsBackEveryEncodedCommand : Obligations.DecodingReadsBackEveryEncodedCommand := by
  intro i hwf
  obtain ⟨row, hrow, hmatch⟩ := encodesItsRow i
  have hsel : rowOf (opField (encodeWord i)) = some row := rowOf_of_matches hrow hmatch
  have hbuild : row.build (fieldsOf (encodeWord i) (encodeData i)) = i := build_fieldsOf_encodeWord hsel
  exact decode_eq_ok.2 ⟨row, hsel, hmatch, by rwa [hbuild], hbuild⟩

/-! ### From a word to its command and back (R92, R93, R96) -/

/-- The layout of R93: the word with the opcode `op`, the fields of `f` that the format has, and 0 in every bit it marks
`0`. -/
def formatWord (op : BitVec 8) (f : Fields) : Format → CmdWord
  | .fN => op ++ 0#24
  | .fW => op ++ regBits f.rd ++ 0#4 ++ 0#9 ++ f.imm
  | .fA => op ++ 0#4 ++ regBits f.ra ++ 0#16
  | .fD => op ++ regBits f.rd ++ 0#20
  | .fU => op ++ regBits f.rd ++ regBits f.ra ++ 0#16
  | .fI => op ++ regBits f.rd ++ regBits f.ra ++ 0#9 ++ f.imm
  | .fB => op ++ regBits f.rd ++ regBits f.ra ++ 0#8 ++ f.b ++ f.imm
  | .fJ => op ++ regBits f.rd ++ regBits f.ra ++ 0#2 ++ f.imm2 ++ f.imm
  | .fS => op ++ regBits f.rd ++ regBits f.ra ++ regBits f.re ++ 0#5 ++ f.imm
  | .fR => op ++ regBits f.rd ++ regBits f.ra ++ regBits f.rb ++ 0#12
  | .fM => op ++ 0#17 ++ f.imm
  | .fAN => op ++ 0#4 ++ regBits f.ra ++ 0#11 ++ f.n
  | .fDN => op ++ regBits f.rd ++ 0#4 ++ 0#11 ++ f.n
  | .fUN => op ++ regBits f.rd ++ regBits f.ra ++ 0#11 ++ f.n
  | .fE => op ++ regBits f.rd ++ regBits f.ra ++ regBits f.rb ++ 0#7 ++ f.n
  | .fDD => op ++ regBits f.rd ++ 0#4 ++ regBits f.re ++ 0#12

/-- The encoder lays each row's command out as the row's format says. -/
theorem encodeWord_build (f : Fields) :
    ∀ row ∈ opcodeTable, encodeWord (row.build f) = formatWord (opField row.mtch) f row.fmt :=
  List.forall_iff_forall_mem.1 (by repeat' constructor)

theorem regBits_regField (cw : CmdWord) (lo : Nat) : regBits (regField cw lo) = cw.extractLsb' lo 4 := rfl

/-- Where a mask that the word meets in 0 has only ones, the word has only zeros. -/
theorem slice_eq_zero {cw m : CmdWord} (h : cw &&& m = 0) (lo len : Nat)
    (hm : m.extractLsb' lo len = BitVec.allOnes len := by decide) : 0#len = cw.extractLsb' lo len :=
  calc 0#len = (cw &&& m).extractLsb' lo len := by rw [h]; exact BitVec.extractLsb'_zero.symm
    _ = cw.extractLsb' lo len := by rw [BitVec.extractLsb'_and, hm, BitVec.and_allOnes]

/-- A word whose must-be-zero bits are 0 is laid out again from its own fields: in each format every zero is a slice of
the word, so the layout is the word's 32 bits, cut into slices. -/
theorem formatWord_fieldsOf {fmt : Format} {cw : CmdWord} (dw : DataWord) (h : cw &&& fmt.mustBeZero = 0) :
    formatWord (opField cw) (fieldsOf cw dw) fmt = cw := by
  cases fmt
  case' fN => rw [formatWord, slice_eq_zero h 0 24]
  case' fW => rw [formatWord, slice_eq_zero h 16 4, slice_eq_zero h 7 9]
  case' fA => rw [formatWord, slice_eq_zero h 20 4, slice_eq_zero h 0 16]
  case' fD => rw [formatWord, slice_eq_zero h 0 20]
  case' fU => rw [formatWord, slice_eq_zero h 0 16]
  case' fI => rw [formatWord, slice_eq_zero h 7 9]
  case' fB => rw [formatWord, slice_eq_zero h 8 8]
  case' fJ => rw [formatWord, slice_eq_zero h 14 2]
  case' fS => rw [formatWord, slice_eq_zero h 7 5]
  case' fR => rw [formatWord, slice_eq_zero h 0 12]
  case' fM => rw [formatWord, slice_eq_zero h 7 17]
  case' fAN => rw [formatWord, slice_eq_zero h 20 4, slice_eq_zero h 5 11]
  case' fDN => rw [formatWord, slice_eq_zero h 16 4, slice_eq_zero h 5 11]
  case' fUN => rw [formatWord, slice_eq_zero h 5 11]
  case' fE => rw [formatWord, slice_eq_zero h 5 7]
  case' fDD => rw [formatWord, slice_eq_zero h 16 4, slice_eq_zero h 0 12]
  all_goals
    simp (disch := decide) only [opField, fieldsOf, regBits_regField,
      BitVec.extractLsb'_append_extractLsb'_eq_extractLsb']
    exact BitVec.extractLsb'_eq_self

theorem mask_and_mustBeZero : ∀ row ∈ opcodeTable, row.mask &&& row.fmt.mustBeZero = row.fmt.mustBeZero ∧
    row.mtch &&& row.fmt.mustBeZero = 0 := by decide

/-- A row's mask is the opcode's bits and the must-be-zero bits, its match word the opcode above zeros (R97). -/
theorem mask_eq_or : ∀ row ∈ opcodeTable, row.mask = 0xFF000000 ||| row.fmt.mustBeZero ∧
    row.mtch = opField row.mtch ++ 0#24 := by decide

/-- A word is its opcode above its low 24 bits, which the mask of the opcode clears. -/
theorem and_opcodeMask (cw : CmdWord) : cw &&& 0xFF000000 = opField cw ++ 0#24 := by
  have hcw : cw = opField cw ++ cw.extractLsb' 0 24 := by
    simp (disch := decide) only [opField, BitVec.extractLsb'_append_extractLsb'_eq_extractLsb']
    exact BitVec.extractLsb'_eq_self.symm
  calc cw &&& 0xFF000000
      = (opField cw ++ cw.extractLsb' 0 24) &&& (BitVec.allOnes 8 ++ 0#24) := by rw [← hcw]; rfl
    _ = opField cw ++ 0#24 := by rw [BitVec.and_append, BitVec.and_allOnes, BitVec.and_zero]

/-- With the row's opcode, a word matches the row when its must-be-zero bits are 0 (R93, R97). -/
theorem matches_iff {row : OpRow} (hrow : row ∈ opcodeTable) {cw : CmdWord} (hop : opField row.mtch = opField cw) :
    cw &&& row.mask = row.mtch ↔ cw &&& row.fmt.mustBeZero = 0 := by
  obtain ⟨hmask, hmtch⟩ := mask_eq_or row hrow
  obtain ⟨hmask_zero, hmtch_zero⟩ := mask_and_mustBeZero row hrow
  constructor
  · intro h
    rw [← hmtch_zero, ← h, BitVec.and_assoc, hmask_zero]
  · intro h
    rw [hmask, BitVec.and_or_distrib_left, and_opcodeMask, h, hmtch, hop]
    exact BitVec.or_zero

/-- Only the row of opcode 0x10 reads DW, and the command it builds carries it (R96). -/
theorem build_dw (f : Fields) (dw : DataWord) : ∀ row ∈ opcodeTable,
    if opField row.mtch = 0x10 then encodeData (row.build f) = f.dw else row.build { f with dw := dw } = row.build f :=
  List.forall_iff_forall_mem.1 (by repeat' constructor)

/-- Settles O12: the word matches the row of its opcode, so it is that row's layout of its own fields, which is also
what the row's command encodes to. -/
theorem encodingGivesBackEveryLegalWord : Obligations.EncodingGivesBackEveryLegalWord := by
  intro cw dw i hd
  obtain ⟨row, hsel, hmatch, hwf, rfl⟩ := decode_eq_ok.1 hd
  obtain ⟨hrow, hop⟩ := mem_of_rowOf hsel
  refine ⟨hwf, ?_, ?_⟩
  · rw [encodeWord_build _ row hrow, hop, formatWord_fieldsOf dw ((matches_iff hrow hop).1 hmatch)]
  · by_cases h10 : opField cw = 0x10
    · exact .inl ((if_pos (hop.trans h10)).mp (build_dw (fieldsOf cw dw) dw row hrow))
    · exact .inr h10

/-- DW takes no part in legality, and only the command of opcode 0x10 carries it (R96, R98). -/
theorem decode_eq_of_opField_ne {cw : CmdWord} (h10 : opField cw ≠ 0x10) (dw dw' : DataWord) :
    decode cw dw = decode cw dw' := by
  unfold decode
  cases hsel : rowOf (opField cw) with
  | none => rfl
  | some row =>
    obtain ⟨hrow, hop⟩ := mem_of_rowOf hsel
    have hbuild : row.build (fieldsOf cw dw) = row.build (fieldsOf cw dw') :=
      (if_neg (hop ▸ h10)).mp (build_dw (fieldsOf cw dw') dw row hrow)
    simp only [hbuild]

/-- Settles O15: the step hands DW to the decoder alone, which ignores it for every other opcode. -/
theorem dataWordIsIgnoredButByBvNew : Obligations.DataWordIsIgnoredButByBvNew := by
  rintro cw dw dw' rest s s' h10 hin rfl
  rw [step_of_command hin, step_of_command rfl]
  simp only [acceptCommand, decode_eq_of_opField_ne h10 dw dw']

/-! ### The illegal words (R99) -/

/-- The opcodes R99 (a) lists are the ones without a row in R97. -/
theorem reservedOpcode_iff {op : BitVec 8} : reservedOpcode op.toNat = true ↔ rowOf op = none := by
  have hrows : rowOf op = none ↔ op ∉ opcodeTable.map (fun row => opField row.mtch) := by
    simp only [rowOf, List.find?_eq_none, List.mem_map, beq_iff_eq, not_exists, not_and]
  have hopcodes : opcodeTable.map (fun row => opField row.mtch) =
      [0x10, 0x11, 0x12, 0x13, 0x14, 0x15, 0x16, 0x17, 0x18, 0x19, 0x1A, 0x20, 0x21, 0x30, 0x31, 0x32, 0x33, 0x34,
        0x40, 0x41, 0x42, 0x50, 0x51, 0x52, 0x53, 0x54, 0x55] := by decide
  rw [hrows, hopcodes]
  simp only [reservedOpcode, Bool.or_eq_true, Bool.and_eq_true, decide_eq_true_eq, List.mem_cons, List.not_mem_nil,
    or_false, not_or]
  bv_omega

/-- R99 (b) reads the must-be-zero bits off the opcode, R97 off the row's format: they are the same bits. -/
theorem mustBeZero_eq_zeroBits :
    ∀ row ∈ opcodeTable, row.fmt.mustBeZero = zeroBits (opField row.mtch).toNat := by decide

/-- Two destination fields name one register when their bits are the same. -/
theorem sameDestination_eq (cw : CmdWord) :
    (cw.extractLsb' 20 4 == cw.extractLsb' 12 4) = !(regField cw 20 != regField cw 12) := by
  rw [bne, Bool.not_not, Bool.eq_iff_iff, beq_iff_eq, beq_iff_eq, regField, regField, BitVec.toFin_inj]

/-- A number is outside 1 to 8 exactly when it names no substitution table. -/
theorem noSuchBox_eq (n : Nat) : (n == 0 || decide (n > 8)) = !(decide (1 ≤ n) && decide (n ≤ 8)) := by
  rw [Bool.eq_iff_iff]
  simp

/-- R99 (c), read off the word's bits by opcode, fails exactly for the ill-formed commands. Only `BV.SPLIT`, `BV.PERM`,
`RF.SB` and `C.GETLR` have a check, and stand in this order in R97. -/
theorem failsFieldCheck_eq {cw : CmdWord} {row : OpRow} (hrow : row ∈ opcodeTable)
    (hop : opField row.mtch = opField cw) (dw : DataWord) :
    failsFieldCheck cw = !(row.build (fieldsOf cw dw)).wellFormed := by
  have hnat : (cw.extractLsb' 24 8).toNat = (opField row.mtch).toNat := congrArg BitVec.toNat hop.symm
  unfold failsFieldCheck
  rw [hnat]
  clear hop hnat
  fin_cases hrow
  any_goals rfl
  · exact sameDestination_eq cw
  · exact (decide_eq_decide.2 Nat.not_le.symm).trans decide_not
  · exact noSuchBox_eq _
  · exact sameDestination_eq cw

/-- The decoder accepts exactly the words R99 does not list. -/
theorem exists_decode_iff {cw : CmdWord} {dw : DataWord} :
    (∃ i, decode cw dw = .ok i) ↔ illegalWord cw = false := by
  have hill : illegalWord cw = (reservedOpcode (opField cw).toNat || cw &&& zeroBits (opField cw).toNat != 0 ||
    failsFieldCheck cw) := rfl
  simp only [hill, decode_eq_ok]
  cases hsel : rowOf (opField cw) with
  | none => simp [reservedOpcode_iff.2 hsel]
  | some row =>
    obtain ⟨hrow, hop⟩ := mem_of_rowOf hsel
    have hres : reservedOpcode (opField cw).toNat = false := by
      simp [← Bool.not_eq_true, reservedOpcode_iff, hsel]
    rw [hres, ← hop, ← mustBeZero_eq_zeroBits row hrow, failsFieldCheck_eq hrow hop dw]
    simp [matches_iff hrow hop]

/-- While FAULT = 0 a command whose word does not decode raises `IllegalCommand` (R98, R99). -/
theorem acceptCommand_of_decode_error {cw : CmdWord} {dw : DataWord} {e : DecodeError} {s : State}
    (hf : s.fault = false) (hd : decode cw dw = .error e) :
    acceptCommand cw dw s = .next (s.takeFault .illegalCommand cw) := by
  simp [acceptCommand, hf, hd]

/-- Settles O13: the decoder rejects exactly the words of R99, and a rejected word latches the fault record alone. -/
theorem illegalWordsRaiseIllegalCommand : Obligations.IllegalWordsRaiseIllegalCommand := by
  intro cw dw rest s hf hin
  rw [step_of_command hin]
  cases hd : decode cw dw with
  | ok i =>
    rw [if_neg (by simp [exists_decode_iff.1 ⟨i, hd⟩])]
    exact ⟨i, rfl, acceptCommand_of_decode hf hd⟩
  | error e =>
    have hill : illegalWord cw = true := by
      simp [← Bool.not_eq_false, ← exists_decode_iff (dw := dw), hd]
    rw [if_pos hill]
    exact acceptCommand_of_decode_error hf hd

/-! ### Listings (R101, R102) -/

theorem toImm_toNat (x : Imm) : toImm x.toNat = some x := by simp [toImm, x.isLt]

theorem toCount_toNat (x : Count) : toCount x.toNat = some x := by simp [toCount, x.isLt]

theorem toBit_toNat (x : BitVec 1) : toBit x.toNat = some x := by simp [toBit, x.isLt]

theorem assemble_of_assembleOp {m : Mnemonic} {args : List Arg} {data : Option DataWord} {i : Instr}
    (h : assembleOp m args data = some i) (hwf : i.wellFormed = true) :
    assemble (.op m args data) = some (encode i) := by
  simp [assemble, h, hwf]

/-- The line a command is listed as stands for that command: the registers are copied, and a number taken from a field
fits that field. The commands are grouped by the numbers they carry. -/
theorem assemble_listing (i : Instr) (hwf : i.wellFormed = true) : assemble (listing i) = some (encode i) := by
  cases i with
  | bvRead | bvConcat | bvDot | bvXor | tblClr | ksLoad | ksStep | ksGetcd | rfSbox | rfF | cInit | cRound | cFinal
  | cGetlr => exact assemble_of_assembleOp rfl hwf
  | bvNew | bvGet | bvSplit | bvRotl | bvPerm | tblPush | rfSb =>
    exact assemble_of_assembleOp (Option.bind_eq_some_iff.2 ⟨_, toImm_toNat _, rfl⟩) hwf
  | ksDerive | ksGetk | cEnck | cEncrypt =>
    exact assemble_of_assembleOp (Option.bind_eq_some_iff.2 ⟨_, toCount_toNat _, rfl⟩) hwf
  | bvSet =>
    exact assemble_of_assembleOp (Option.bind_eq_some_iff.2
      ⟨_, toImm_toNat _, Option.bind_eq_some_iff.2 ⟨_, toBit_toNat _, rfl⟩⟩) hwf
  | bvRange =>
    exact assemble_of_assembleOp (Option.bind_eq_some_iff.2
      ⟨_, toImm_toNat _, Option.bind_eq_some_iff.2 ⟨_, toImm_toNat _, rfl⟩⟩) hwf

/-- Settles O60: every listing assembles by `assemble_listing`; `C.DES` and `BV.EXPAND` stand for their expansions,
which are well formed. -/
theorem listingsAssembleToTheirCommands : Obligations.ListingsAssembleToTheirCommands :=
  ⟨assemble_listing, fun _ _ _ => assemble_of_assembleOp rfl rfl, fun _ _ => assemble_of_assembleOp rfl rfl,
    fun _ => rfl⟩

end Sys2Proof.Machine
end

section
/-! PROOFS. How a command's word decodes and how a command ends, in the forms the statements about single commands
use (30_encoding.md R96, R98; 60_exceptions.md R233, R235). -/

namespace Sys2Proof.Machine

/-! ### The word of one command (R96, R98) -/

/-- Opcode 0x10 is `BV.NEW`'s alone (R97). -/
theorem opField_encodeWord_ne {i : Instr} (hi : ∀ rd w value, i ≠ .bvNew rd w value) :
    opField (encodeWord i) ≠ 0x10 := by
  cases i with
  | bvNew rd w value => exact absurd rfl (hi rd w value)
  | _ =>
    simp (disch := decide) only [encodeWord, opField, BitVec.extractLsb'_append_eq_of_le, Nat.reduceSub,
      BitVec.extractLsb'_eq_self]
    decide

/-- The word of a command that takes no data word decodes to it whatever DW is (R96). -/
theorem decode_encodeWord (i : Instr) (hwf : i.wellFormed = true) (hi : ∀ rd w value, i ≠ .bvNew rd w value)
    (dw : DataWord) : decode (encodeWord i) dw = .ok i :=
  (decode_eq_of_opField_ne (opField_encodeWord_ne hi) dw (encodeData i)).trans
    (decodingReadsBackEveryEncodedCommand i hwf)

/-- R93 marks bits 19:7 of format W as 0; the encoder lays them out as an absent `ra` and nine zeros. -/
theorem encodeWord_bvNew (rd : VReg) (w : Imm) (value : DataWord) :
    encodeWord (.bvNew rd w value) = 0x10#8 ++ regBits rd ++ 0#13 ++ w := by
  have hzeros : 0x10#8 ++ regBits rd ++ (0#4 ++ 0#9) = 0x10#8 ++ regBits rd ++ 0#4 ++ 0#9 := by
    rw [BitVec.append_assoc', BitVec.cast_eq]
  exact congrArg (· ++ w) hzeros.symm

/-! ### How a command ends (R13, R233) -/

section Endings

variable {i : Instr} {s t : State} {res : Checked State} {c : Cause}

theorem exec_of_ok (hexec : exec i s = conclude i s res) (hres : res = .ok t) : exec i s = .next t := by
  rw [hexec, hres, conclude_ok]

theorem traps_of_error (hexec : exec i s = conclude i s res) (hres : res = .error c) : Traps i s c := by
  rw [Traps, hexec, hres]
  rfl

end Endings

/-! ### The sources of a command (R23, R235) -/

section Sources

variable {α : Type} {s : State} {ra rb : VReg} {a : BV}

theorem readV_bind_of_some (h : s.v.get ra = some a) (f : BV → Checked α) : (s.readV ra >>= f) = f a := by
  rw [readV_eq_ok.2 h, ok_bind]

theorem readV_bind_of_none (h : s.v.get ra = none) (f : BV → Checked α) :
    (s.readV ra >>= f) = .error .emptyRegister := by
  rw [readV_eq_error.2 ⟨h, rfl⟩, error_bind]

/-- Two sources are read before anything else, so either one Empty ends the command (R235). -/
theorem readV_readV_bind_of_none (h : s.v.get ra = none ∨ s.v.get rb = none) (f : BV → BV → Checked α) :
    (s.readV ra >>= fun x => s.readV rb >>= f x) = .error .emptyRegister := by
  cases ha : s.v.get ra with
  | none => exact readV_bind_of_none ha _
  | some a => exact (readV_bind_of_some ha _).trans (readV_bind_of_none (h.resolve_left (by simp [ha])) _)

end Sources

end Sys2Proof.Machine
end

section
/-! PROOFS. The statements of 40_bitvector.md: each BV command by its rule (R131 to R141), and the laws of the
bit-vector algebra (R142). -/

namespace Sys2Proof.Machine

/-! ### The values of the pure functions, as the rules describe them (R124 to R130) -/

section Values

variable {x a b : BV}

theorem split_partsOf (hx : x.Fits) {mid : Nat} (h1 : 1 ≤ mid) (h2 : mid < x.w) :
    ∃ hi lo, split x mid = .ok (hi, lo) ∧ PartsOf x mid hi lo := by
  obtain ⟨hi, lo, hsplit, hhi, hlo, hfhi, hflo, hhigh, hlow⟩ := split_of_bounds hx h1 h2
  exact ⟨hi, lo, hsplit, hfhi, hflo, hhi, by omega, hhigh, fun q hq hq' => hlow q hq (by omega)⟩

theorem concat_joinOf (ha : a.Fits) (hb : b.Fits) (h : a.w + b.w ≤ 64) :
    ∃ y, concat a b = .ok y ∧ JoinOf a b y := by
  obtain ⟨y, hconcat, hw, hf, hat⟩ := concat_of_bound ha hb h
  refine ⟨y, hconcat, hf, hw, fun q h1 h2 => ?_, fun q h1 h2 => ?_⟩
  · rw [hat q h1 (by omega), if_pos h2]
  · rw [hat _ (by omega) (by omega), if_neg (by omega), Nat.add_sub_cancel_left]

theorem rotl_rotationOf (hx : x.Fits) (n : Nat) : RotationOf x n (rotl x n) :=
  ⟨rotl_fits hx n, rotl_w x n, fun _ h1 h2 => rotl_at hx n h1 h2⟩

theorem permute_permutedBy {t : List Nat} (h1 : 1 ≤ t.length) (h64 : t.length ≤ 64)
    (ht : ∀ p ∈ t, 1 ≤ p ∧ p ≤ x.w) : ∃ y, permute x t = .ok y ∧ PermutedBy x t y := by
  obtain ⟨y, hperm, hw, hf, hat⟩ := permute_of_mem h1 h64 ht
  exact ⟨y, hperm, hf, hw, hat⟩

theorem xorBV_xorOf (ha : a.Fits) (hb : b.Fits) (h : a.w = b.w) : ∃ y, xorBV a b = .ok y ∧ XorOf a b y := by
  obtain ⟨y, hxor, hw, -, hf, hat⟩ := xorBV_of_width ha hb h
  exact ⟨y, hxor, hf, hw, hat⟩

/-- Counting bit indices from 0 up is counting positions from the last one down (R10). -/
theorem countP_range_reflect (p : Nat → Bool) (n : Nat) :
    (List.range n).countP p = (List.range n).countP fun q => p (n - (q + 1)) := by
  calc (List.range n).countP p
      = (List.range n).reverse.countP p := List.countP_reverse.symm
    _ = ((List.range n).map fun q => n - (q + 1)).countP p := by
        rw [List.range_eq_range', List.reverse_range', ← List.range_eq_range']
        simp only [Nat.zero_add, Nat.sub_sub, Nat.add_comm 1]
    _ = (List.range n).countP fun q => p (n - (q + 1)) := List.countP_map

/-- R129 by positions: the 1 bits of the bitwise and are the positions at which both operands have a 1. -/
theorem popcount_and_eq_countP (ha : a.Fits) (hw : a.w = b.w) :
    popcount (a.v &&& b.v) = (List.range a.w).countP fun q => a.at (q + 1) && b.at (q + 1) := by
  have hlt : a.v &&& b.v < 2 ^ a.w := Nat.and_le_left.trans_lt ha.2.2
  rw [popcount_eq_onesBelow hlt, onesBelow_eq_countP, countP_range_reflect]
  simp only [Nat.testBit_and, BV.at, hw]

end Values

/-! ### The tables an id names (20_memory.md R52) -/

section TableIds

variable {s : State} {tid : Imm}

theorem table_of_le (h : tid.toNat ≤ 6) : ∃ t, [tableIP, tableFP, tableE, tableP, tablePC1, tablePC2,
    s.ut.map BitVec.toNat][tid.toNat]? = some t ∧ s.table tid = .ok t := by
  unfold State.table
  generalize tid.toNat = n at h
  interval_cases n <;> exact ⟨_, rfl, rfl⟩

theorem table_of_lt (h : 6 < tid.toNat) : s.table tid = .error .illegalCommand := by
  cases ht : s.table tid with
  | error c => rw [(table_eq_error ht).2]
  | ok t => rcases table_eq_ok ht with ⟨h6, -⟩ | ⟨hlt, -⟩ <;> omega

end TableIds

/-! ### The BV commands (R131 to R141)

Each proof has one shape: the word decodes to the command, an Empty source ends it, and the pure function of its rule
answers under the rule's condition and raises the rule's cause otherwise. -/

/-- Settles O21: the condition is that width and data word make a value of R21, which is `construct`'s check. -/
theorem bvNewConstructsTheDataWordAtItsWidth : Obligations.BvNewConstructsTheDataWordAtItsWidth := by
  intro rd w value s _
  refine ⟨encodeWord_bvNew rd w value ▸ decodingReadsBackEveryEncodedCommand (.bvNew rd w value) rfl, ?_⟩
  split
  case isTrue h =>
    have hconstruct : construct value.toNat w.toNat = .ok ⟨w.toNat, value.toNat⟩ := construct_eq_ok.2 ⟨h, rfl⟩
    exact exec_of_ok rfl (by rw [hconstruct, ok_bind])
  case isFalse h =>
    have hconstruct : construct value.toNat w.toNat = .error .widthViolation := construct_eq_error.2 ⟨h, rfl⟩
    exact traps_of_error rfl (by rw [hconstruct, error_bind])

/-- Settles O22: a fitting value is cut off neither at the value port nor at the width port. -/
theorem bvReadPresentsTheRegister : Obligations.BvReadPresentsTheRegister := by
  intro ra s _
  refine ⟨decode_encodeWord (.bvRead ra) rfl nofun, fun h => traps_of_error rfl (readV_bind_of_none h _),
    fun x ⟨hx, hfits⟩ => ?_⟩
  obtain ⟨-, hw, hv⟩ := hfits
  have hv64 : x.v < 2 ^ 64 := hv.trans_le (Nat.pow_le_pow_right (by decide) hw)
  exact ⟨BitVec.ofNat 64 x.v, BitVec.ofNat 7 x.w, Nat.mod_eq_of_lt hv64, Nat.mod_eq_of_lt (by omega),
    exec_of_ok rfl (readV_bind_of_some hx _)⟩

/-- Settles O23. -/
theorem bvGetReadsTheBitAtThePosition : Obligations.BvGetReadsTheBitAtThePosition := by
  intro rd ra pos s _
  refine ⟨decode_encodeWord (.bvGet rd ra pos) rfl nofun, fun h => traps_of_error rfl (readV_bind_of_none h _),
    fun x ⟨hx, _⟩ => ?_⟩
  split
  case isTrue h => exact exec_of_ok rfl (by rw [readV_bind_of_some hx, getBit_of_mem h.1 h.2, ok_bind])
  case isFalse h => exact traps_of_error rfl (by rw [readV_bind_of_some hx, getBit_eq_error.2 ⟨h, rfl⟩, error_bind])

/-- Settles O24. -/
theorem bvSetStoresTheBitAtThePosition : Obligations.BvSetStoresTheBitAtThePosition := by
  intro rd ra pos b s _
  refine ⟨decode_encodeWord (.bvSet rd ra pos b) rfl nofun, fun h => traps_of_error rfl (readV_bind_of_none h _),
    fun x ⟨hx, hfits⟩ => ?_⟩
  split
  case isTrue h =>
    obtain ⟨y, hset, hw, hf, hat⟩ := setBit_of_mem hfits h.1 h.2 b.isLt
    have hb : b.toNat = 1 ↔ b = 1 := BitVec.toNat_inj (y := 1#1)
    refine ⟨y, hf, hw, ?_, fun q h1 h2 hq => by rw [hat q h1 h2, if_neg hq], ?_⟩
    · simp only [hat _ h.1 h.2, if_true, hb]
    · exact exec_of_ok rfl (by rw [readV_bind_of_some hx, hset, ok_bind])
  case isFalse h => exact traps_of_error rfl (by rw [readV_bind_of_some hx, setBit_eq_error.2 ⟨h, rfl⟩, error_bind])

/-- Settles O25. -/
theorem bvRangeExtractsThePositions : Obligations.BvRangeExtractsThePositions := by
  intro rd ra first last s _
  refine ⟨decode_encodeWord (.bvRange rd ra first last) rfl nofun, fun h => traps_of_error rfl (readV_bind_of_none h _),
    fun x ⟨hx, hfits⟩ => ?_⟩
  split
  case isTrue h =>
    obtain ⟨h0, h1, h2⟩ := h
    obtain ⟨y, hrange, hw, hf, hat⟩ := range_of_bounds hfits h0 h1 h2
    exact ⟨y, hf, hw, fun q hq hq' => hat q hq (hw ▸ hq'),
      exec_of_ok rfl (by rw [readV_bind_of_some hx, hrange, ok_bind])⟩
  case isFalse h => exact traps_of_error rfl (by rw [readV_bind_of_some hx, range_eq_error.2 ⟨h, rfl⟩, error_bind])

/-- Settles O26: the check of the destinations comes first, whatever the source holds (R235). -/
theorem bvSplitWritesBothParts : Obligations.BvSplitWritesBothParts := by
  intro rd re ra mid s _
  refine ⟨fun h => traps_of_error rfl (by rw [require_eq_error.2 ⟨not_not.2 h, rfl⟩, error_bind]), fun hne => ?_⟩
  have hreq : require (rd ≠ re) .illegalCommand = .ok () := require_eq_ok.2 hne
  refine ⟨decode_encodeWord (.bvSplit rd re ra mid) (bne_iff_ne.2 hne) nofun,
    fun h => traps_of_error rfl (by rw [hreq, ok_bind, readV_bind_of_none h]), fun x ⟨hx, hfits⟩ => ?_⟩
  split
  case isTrue h =>
    obtain ⟨hi, lo, hsplit, hparts⟩ := split_partsOf hfits h.1 h.2
    exact ⟨hi, lo, hparts, exec_of_ok rfl (by rw [hreq, ok_bind, readV_bind_of_some hx, hsplit, ok_bind])⟩
  case isFalse h =>
    exact traps_of_error rfl (by rw [hreq, ok_bind, readV_bind_of_some hx, split_eq_error.2 ⟨h, rfl⟩, error_bind])

/-- Settles O27. -/
theorem bvConcatJoinsTheRegisters : Obligations.BvConcatJoinsTheRegisters := by
  intro rd ra rb s _
  refine ⟨decode_encodeWord (.bvConcat rd ra rb) rfl nofun, fun h => traps_of_error rfl (readV_readV_bind_of_none h _),
    fun a b ⟨ha, hfa⟩ ⟨hb, hfb⟩ => ?_⟩
  split
  case isTrue h =>
    obtain ⟨y, hconcat, hjoin⟩ := concat_joinOf hfa hfb h
    exact ⟨y, hjoin, exec_of_ok rfl (by rw [readV_bind_of_some ha, readV_bind_of_some hb, hconcat, ok_bind])⟩
  case isFalse h =>
    exact traps_of_error rfl
      (by rw [readV_bind_of_some ha, readV_bind_of_some hb, concat_eq_error.2 ⟨h, rfl⟩, error_bind])

/-- Settles O28. -/
theorem bvRotlRotatesWithinTheWidth : Obligations.BvRotlRotatesWithinTheWidth := by
  intro rd ra n s _
  refine ⟨decode_encodeWord (.bvRotl rd ra n) rfl nofun, fun h => traps_of_error rfl (readV_bind_of_none h _),
    fun x ⟨hx, hfits⟩ => ⟨rotl x n.toNat, rotl_rotationOf hfits n.toNat, ?_⟩⟩
  exact exec_of_ok rfl (readV_bind_of_some hx _)

/-- Settles O29: the table is looked up before the source is read (R235); only the user table can be empty, and it is
within `permute`'s bound of 64 by the premise. -/
theorem bvPermAppliesTheTable : Obligations.BvPermAppliesTheTable := by
  intro rd ra tid s _ hut
  refine ⟨fun h => traps_of_error rfl (by rw [table_of_lt h, error_bind]), fun htid => ?_⟩
  obtain ⟨t, hget, htable⟩ := table_of_le (s := s) htid
  have h64 : t.length ≤ 64 := table_length_le htable hut
  refine ⟨decode_encodeWord (.bvPerm rd ra tid) (decide_eq_true htid) nofun,
    fun h => traps_of_error rfl (by rw [htable, ok_bind, readV_bind_of_none h]), fun x ⟨hx, _⟩ => ⟨t, hget, ?_⟩⟩
  split_ifs with hnil hmem
  · have hperm : permute x t = .error .widthViolation := permute_eq_error.2 (.inl ⟨by simp [hnil], rfl⟩)
    exact traps_of_error rfl (by rw [htable, ok_bind, readV_bind_of_some hx, hperm, error_bind])
  · obtain ⟨y, hperm, hy⟩ := permute_permutedBy (List.length_pos_iff.2 hnil) h64 hmem
    exact ⟨y, hy, exec_of_ok rfl (by rw [htable, ok_bind, readV_bind_of_some hx, hperm, ok_bind])⟩
  · have hperm : permute x t = .error .indexOutOfRange := permute_eq_error.2
      (.inr ⟨⟨List.length_pos_iff.2 hnil, h64⟩, by simpa only [not_forall, exists_prop] using hmem, rfl⟩)
    exact traps_of_error rfl (by rw [htable, ok_bind, readV_bind_of_some hx, hperm, error_bind])

/-- Settles O30. -/
theorem bvDotGivesTheParityOfTheAnd : Obligations.BvDotGivesTheParityOfTheAnd := by
  intro rd ra rb s _
  refine ⟨decode_encodeWord (.bvDot rd ra rb) rfl nofun, fun h => traps_of_error rfl (readV_readV_bind_of_none h _),
    fun a b ⟨ha, hfa⟩ ⟨hb, _⟩ => ?_⟩
  split
  case isTrue h =>
    rw [← popcount_and_eq_countP hfa h]
    exact exec_of_ok rfl
      (by rw [readV_bind_of_some ha, readV_bind_of_some hb, dot_eq_ok.2 ⟨h, rfl⟩, ok_bind])
  case isFalse h =>
    exact traps_of_error rfl
      (by rw [readV_bind_of_some ha, readV_bind_of_some hb, dot_eq_error.2 ⟨h, rfl⟩, error_bind])

/-- Settles O31. -/
theorem bvXorAddsBitByBit : Obligations.BvXorAddsBitByBit := by
  intro rd ra rb s _
  refine ⟨decode_encodeWord (.bvXor rd ra rb) rfl nofun, fun h => traps_of_error rfl (readV_readV_bind_of_none h _),
    fun a b ⟨ha, hfa⟩ ⟨hb, hfb⟩ => ?_⟩
  split
  case isTrue h =>
    obtain ⟨y, hxor, hy⟩ := xorBV_xorOf hfa hfb h
    exact ⟨y, hy, exec_of_ok rfl (by rw [readV_bind_of_some ha, readV_bind_of_some hb, hxor, ok_bind])⟩
  case isFalse h =>
    exact traps_of_error rfl
      (by rw [readV_bind_of_some ha, readV_bind_of_some hb, xorBV_eq_error.2 ⟨h, rfl⟩, error_bind])

/-! ### The laws of the algebra (R142) -/

section Laws

variable {x y hi lo : BV}

/-- The parts of a value, joined again, are the value: every position lies in the one part or the other. -/
theorem JoinOf.eq_of_partsOf {mid : Nat} (hy : JoinOf hi lo y) (hp : PartsOf x mid hi lo) (hx : x.Fits) : y = x := by
  have hwidth : y.w = x.w := by rw [hy.width, hp.widthHigh, hp.widthLow]
  refine bv_ext hy.fits hx hwidth fun q h1 h2 => ?_
  by_cases hq : q ≤ mid
  · rw [hy.high q h1 (hp.widthHigh.symm ▸ hq), hp.high q h1 hq]
  · obtain ⟨r, rfl⟩ := Nat.exists_eq_add_of_le (Nat.le_of_not_le hq)
    have hr := hp.widthLow
    have hlow := hy.low r (by omega) (by omega)
    rw [hp.widthHigh] at hlow
    rw [hlow, hp.low r (by omega) (by omega)]

theorem concat_of_split (hx : x.Fits) {mid : Nat} (h1 : 1 ≤ mid) (h2 : mid < x.w) :
    ∃ hi lo, split x mid = .ok (hi, lo) ∧ concat hi lo = .ok x := by
  obtain ⟨hi, lo, hsplit, hparts⟩ := split_partsOf hx h1 h2
  have hsum : hi.w + lo.w = x.w := by rw [hparts.widthHigh, hparts.widthLow]
  obtain ⟨y, hconcat, hjoin⟩ := concat_joinOf hparts.fitsHigh hparts.fitsLow (hsum.trans_le hx.2.1)
  obtain rfl := hjoin.eq_of_partsOf hparts hx
  exact ⟨hi, lo, hsplit, hconcat⟩

theorem rotl_width (hx : x.Fits) : rotl x x.w = x := by
  refine bv_ext (rotl_fits hx _) hx (rotl_w x _) fun q h1 h2 => ?_
  rw [rotl_w] at h2
  rw [rotl_at hx _ h1 h2, Nat.add_mod_right, Nat.mod_eq_of_lt (by omega), Nat.sub_add_cancel h1]

/-- Rotations add up, modulo the width: position q comes from q - 1 + b, and that one from a further on. -/
theorem rotl_rotl (hx : x.Fits) (a b : Nat) : rotl (rotl x a) b = rotl x ((a + b) % x.w) := by
  refine bv_ext (rotl_fits (rotl_fits hx a) b) (rotl_fits hx _) rfl fun q h1 (h2 : q ≤ x.w) => ?_
  have hlt : (q - 1 + b) % x.w < x.w := Nat.mod_lt _ (by omega)
  calc (rotl (rotl x a) b).at q
      = (rotl x a).at ((q - 1 + b) % x.w + 1) := rotl_at (rotl_fits hx a) b h1 h2
    _ = x.at (((q - 1 + b) % x.w + a) % x.w + 1) := rotl_at hx a (Nat.le_add_left _ _) hlt
    _ = x.at ((q - 1 + (a + b) % x.w) % x.w + 1) := by
        rw [Nat.mod_add_mod, Nat.add_mod_mod, Nat.add_assoc, Nat.add_comm b a]
    _ = (rotl x ((a + b) % x.w)).at q := (rotl_at hx _ h1 h2).symm

theorem dot_comm (a b : BV) : dot a b = dot b a := by
  simp only [dot, Nat.and_comm a.v, ne_comm (a := a.w)]

end Laws

/-- Settles O49: (a) is what the tables IP and FP do to each other's positions, (b) and (c) hold position by position,
and (d) is the symmetry of the bitwise and. -/
theorem algebraLawsOfTheSource : Obligations.AlgebraLawsOfTheSource := by
  refine ⟨fun x hx hw => ?_, fun x m hx => concat_of_split hx, fun x a b hx => ⟨rotl_width hx, rotl_rotl hx a b⟩,
    fun a b hw => ?_⟩
  · obtain ⟨y, z, hy, hyx, hz, hzx⟩ := permute_tableIP_tableFP hx hw
    exact ⟨⟨y, hy, hyx⟩, ⟨z, hz, hzx⟩⟩
  · have hdot : dot a b = .ok (popcount (a.v &&& b.v) % 2) := dot_eq_ok.2 ⟨hw, rfl⟩
    exact ⟨_, hdot, dot_comm b a ▸ hdot, Nat.mod_lt _ (by decide)⟩

end Sys2Proof.Machine
end

section
/-! PROOFS. The statements of 41_tables.md: the commands that write the user table (R151, R152), and that `BV.PERM`
knows a table by its entries alone (R153). -/

namespace Sys2Proof.Machine

/-! ### Telling from the end of a command whether it completed (R233) -/

section Endings

variable {i : Instr} {s t : State} {res : Checked State} {c : Cause}

/-- The codes count the causes of R231 from 1 in order. -/
theorem ofNat_code (c : Cause) : Cause.ofNat (c.code.toNat - 1) = c := by
  cases c <;> rfl

/-- FCAUSE tells the cause. -/
theorem code_injective : Function.Injective Cause.code :=
  Function.LeftInverse.injective (g := fun code : BitVec 4 => Cause.ofNat (code.toNat - 1)) ofNat_code

/-- A state with FAULT = 0 is the end of a command that completed. -/
theorem exec_eq_next_iff_ok (hexec : exec i s = conclude i s res) (ht : t.fault = false) :
    exec i s = .next t ↔ res = .ok t := by
  refine ⟨fun h => ?_, exec_of_ok hexec⟩
  rcases conclude_eq_next (hexec.symm.trans h) with hok | ⟨c, -, rfl⟩
  · exact hok
  · simp at ht

/-- A command whose completions leave FAULT = 0 ends with a fault record only where it raises that record's cause. -/
theorem traps_iff_error (hexec : exec i s = conclude i s res) (hres : ∀ t, res = .ok t → t.fault = false) :
    Traps i s c ↔ res = .error c := by
  refine ⟨fun h => ?_, traps_of_error hexec⟩
  rcases conclude_eq_next (hexec.symm.trans h) with hok | ⟨d, herr, heq⟩
  · simpa using hres _ hok
  · have hcode : c.code = d.code := congrArg State.fcause heq
    rw [herr, code_injective hcode]

end Endings

/-! ### `BV.PERM` with the entries in place of the id (R139, R153) -/

/-- What `BV.PERM Vd, Va` does with the entries `t`: no table id takes part. -/
def State.permuteInto (s : State) (rd ra : VReg) (t : List Nat) : Checked State := do
  let x ← s.readV ra
  let y ← permute x t
  .ok (s.writeV rd y)

section PermuteInto

variable {rd ra : VReg} {tid : Imm} {t : List Nat} {s u : State}

/-- A table id takes part in `BV.PERM` only through the entries it names. -/
theorem exec_bvPerm_of_table (h : s.table tid = .ok t) :
    exec (.bvPerm rd ra tid) s = conclude (.bvPerm rd ra tid) s (s.permuteInto rd ra t) :=
  congrArg (fun entries => conclude (.bvPerm rd ra tid) s (entries >>= s.permuteInto rd ra)) h

theorem permuteInto_fault (h : s.permuteInto rd ra t = .ok u) : u.fault = s.fault := by
  obtain ⟨x, -, h⟩ := bind_eq_ok.1 h
  obtain ⟨y, -, h⟩ := bind_eq_ok.1 h
  cases h
  rfl

/-- Id 6 names the user table (R52). -/
theorem table_user (s : State) : s.table 6 = .ok (s.ut.map BitVec.toNat) := rfl

end PermuteInto

/-- Settles O58: the two commands are one sequence over one list of entries, and differ only in the word that fault
entry latches. -/
theorem userTableActsAsTheConstantTableItEquals : Obligations.UserTableActsAsTheConstantTableItEquals := by
  intro rd ra tid t s hf _ htable hut
  have huser : exec (.bvPerm rd ra 6) s = conclude (.bvPerm rd ra 6) s (s.permuteInto rd ra t) :=
    exec_bvPerm_of_table (hut ▸ table_user s)
  have hconst : exec (.bvPerm rd ra tid) s = conclude (.bvPerm rd ra tid) s (s.permuteInto rd ra t) :=
    exec_bvPerm_of_table htable
  have hfault : ∀ u, s.permuteInto rd ra t = .ok u → u.fault = false := fun _ h => (permuteInto_fault h).trans hf
  have hwrite : ∀ y, (s.writeV rd y).fault = false := fun _ => hf
  exact ⟨fun y => (exec_eq_next_iff_ok huser (hwrite y)).trans (exec_eq_next_iff_ok hconst (hwrite y)).symm,
    fun _ => (traps_iff_error huser hfault).trans (traps_iff_error hconst hfault).symm⟩

/-! ### The TBL commands (R151, R152) -/

/-- Settles O33: the one check is that there is room, and below 64 entries there is. -/
theorem tblPushAppendsTheEntry : Obligations.TblPushAppendsTheEntry := by
  intro e s _ hut
  refine ⟨decode_encodeWord (.tblPush e) rfl nofun, ?_⟩
  split
  case isTrue h =>
    have hfull : ¬ s.utlen < Config.maxTable := h.not_lt
    exact traps_of_error rfl (by rw [require_eq_error.2 ⟨hfull, rfl⟩, error_bind])
  case isFalse h =>
    have hroom : s.utlen < Config.maxTable := Nat.lt_of_le_of_ne hut h
    have hpush : exec (.tblPush e) s = .next { s with ut := s.ut ++ [e] } :=
      exec_of_ok rfl (by rw [require_eq_ok (u := ()).2 hroom, ok_bind])
    exact ⟨_, hpush, rfl, List.length_append, List.getElem?_concat_length⟩

/-- Settles O32: with no entries `permute` has no width to give its result (R128). -/
theorem tblClrEmptiesTheUserTable : Obligations.TblClrEmptiesTheUserTable := by
  intro s _
  refine ⟨decode_encodeWord .tblClr rfl nofun, _, rfl, rfl, rfl, fun rd ra x hx => ?_⟩
  have hperm : permute x [] = .error .widthViolation := permute_eq_error.2 (.inl ⟨by simp, rfl⟩)
  exact traps_of_error (exec_bvPerm_of_table (table_user _))
    ((readV_bind_of_some hx _).trans (by rw [List.map_nil, hperm, error_bind]))

end Sys2Proof.Machine
end

section
/-! PROOFS. The statements of 42_keyschedule.md: each KS command by its rule (R161 to R165), the closed form of the
register C‖D (R166), and that fewer rounds use the first subkeys of the schedule (R163; 44_cipher.md R210). -/

namespace Sys2Proof.Machine

/-! ### The checks of a command, in sequence (R235) -/

section Checks

variable {α : Type} {p : Prop} [Decidable p] {c : Cause} {x : BV} {w : Nat} {s : State}

theorem require_bind_of_pos (h : p) (f : Unit → Checked α) : (require p c >>= f) = f () := by
  rw [require_eq_ok (u := ()).2 h, ok_bind]

theorem require_bind_of_neg (h : ¬ p) (f : Unit → Checked α) : (require p c >>= f) = .error c := by
  rw [require_eq_error.2 ⟨h, rfl⟩, error_bind]

theorem hasWidth_bind_of_eq (h : x.w = w) (f : Unit → Checked α) : (hasWidth x w >>= f) = f () :=
  require_bind_of_pos h f

theorem hasWidth_bind_of_ne (h : x.w ≠ w) (f : Unit → Checked α) : (hasWidth x w >>= f) = .error .widthMismatch :=
  require_bind_of_neg h f

theorem readCD_bind_of_some (h : s.cd = some x) (f : BV → Checked α) : (s.readCD >>= f) = f x := by
  rw [readCD_eq_ok.2 h, ok_bind]

theorem readCD_bind_of_none (h : s.cd = none) (f : BV → Checked α) : (s.readCD >>= f) = .error .emptyRegister := by
  rw [readCD_eq_error.2 ⟨h, rfl⟩, error_bind]

end Checks

/-! ### The register C‖D by positions (R160) -/

section Register

variable {key cd : BV}

theorem ksLoad_permutedBy (hw : key.w = 64) : ∃ cd, ksLoad key = .ok cd ∧ PermutedBy key tablePC1 cd :=
  permute_permutedBy (by simp) (by simp) (hw ▸ tablePC1_range)

theorem ksNext_scheduleStepOf (hf : cd.Fits) (hw : cd.w = 56) (i : Nat) :
    ∃ cd' k, ksNext cd i = .ok (cd', k) ∧ ScheduleStepOf cd (shift i) cd' k := by
  obtain ⟨c, d, hsplit, hparts⟩ := split_partsOf hf (mid := 28) (by decide) (by omega)
  have hsum : (rotl c (shift i)).w + (rotl d (shift i)).w = 56 := by
    rw [rotl_w, rotl_w, hparts.widthHigh, hparts.widthLow, hw]
  obtain ⟨cd', hconcat, hjoin⟩ := concat_joinOf (rotl_fits hparts.fitsHigh (shift i))
    (rotl_fits hparts.fitsLow (shift i)) (by omega)
  obtain ⟨k, hperm, hk⟩ := permute_permutedBy (x := cd') (t := tablePC2) (by simp) (by simp)
    (hjoin.width.trans hsum ▸ tablePC2_range)
  refine ⟨cd', k, ?_, c, d, _, _, hparts, rotl_rotationOf hparts.fitsHigh _, rotl_rotationOf hparts.fitsLow _,
    hjoin, hk⟩
  simp only [ksNext, hsplit, ok_bind, hconcat, hperm]

theorem ScheduleStepOf.permutedBy {n : Nat} {cd' k : BV} (h : ScheduleStepOf cd n cd' k) :
    PermutedBy cd' tablePC2 k := by
  obtain ⟨_, _, _, _, _, _, _, _, hk⟩ := h
  exact hk

end Register

/-! ### The subkeys derived from a register (R160, R163) -/

section Subkeys

variable {key cd : BV} {ks : List BV}

theorem deriveFrom_succ_eq_ok {n i : Nat} : deriveFrom (n + 1) i cd = .ok ks ↔
    ∃ cd' k rest, ksNext cd i = .ok (cd', k) ∧ deriveFrom n (i + 1) cd' = .ok rest ∧ ks = k :: rest := by
  constructor
  · intro h
    obtain ⟨⟨cd', k⟩, hnext, h⟩ := bind_eq_ok.1 h
    obtain ⟨rest, hrest, h⟩ := bind_eq_ok.1 h
    cases h
    exact ⟨cd', k, rest, hnext, hrest, rfl⟩
  · rintro ⟨cd', k, rest, hnext, hrest, rfl⟩
    simp only [deriveFrom, hnext, ok_bind, hrest]

theorem deriveFrom_of_width (hf : cd.Fits) (hw : cd.w = 56) (n i : Nat) :
    ∃ ks, deriveFrom n i cd = .ok ks ∧ ks.length = n ∧ ∀ k ∈ ks, k.Fits ∧ k.w = 48 := by
  induction n generalizing i cd with
  | zero => exact ⟨[], rfl, rfl, nofun⟩
  | succ n ih =>
    obtain ⟨cd', k, hnext, ⟨hf', hw'⟩, hk⟩ := ksNext_ok hf hw i
    obtain ⟨rest, hrest, hlen, hall⟩ := ih hf' hw' (i + 1)
    exact ⟨k :: rest, deriveFrom_succ_eq_ok.2 ⟨cd', k, rest, hnext, hrest, rfl⟩, congrArg (· + 1) hlen,
      List.forall_mem_cons.2 ⟨hk, hall⟩⟩

/-- The subkey of a round is decided before the rounds after it (R163). -/
theorem deriveFrom_take {n m i : Nat} (hn : n ≤ m) (h : deriveFrom m i cd = .ok ks) :
    deriveFrom n i cd = .ok (ks.take n) := by
  induction n generalizing m i cd ks with
  | zero => rfl
  | succ n ih =>
    obtain ⟨m, rfl⟩ := Nat.exists_eq_add_of_le' (Nat.one_le_of_lt hn)
    obtain ⟨cd', k, rest, hnext, hrest, rfl⟩ := deriveFrom_succ_eq_ok.1 h
    exact deriveFrom_succ_eq_ok.2 ⟨cd', k, rest.take n, hnext, ih (Nat.le_of_succ_le_succ hn) hrest, rfl⟩

theorem derive_of_ksLoad (h : ksLoad key = .ok cd) (n : Nat) : derive key n = deriveFrom n 1 cd := by
  simp only [derive, h, ok_bind]

theorem derive_of_width (hw : key.w = 64) (n : Nat) :
    ∃ ks, derive key n = .ok ks ∧ ks.length = n ∧ ∀ k ∈ ks, k.Fits ∧ k.w = 48 := by
  obtain ⟨cd, hload, hf, hcw, -⟩ := ksLoad_of_width hw
  rw [derive_of_ksLoad hload]
  exact deriveFrom_of_width hf hcw n 1

theorem derive_take {n m : Nat} (hn : n ≤ m) (h : derive key m = .ok ks) : derive key n = .ok (ks.take n) := by
  obtain ⟨cd, hload, h⟩ := bind_eq_ok.1 h
  rw [derive_of_ksLoad hload]
  exact deriveFrom_take hn h

theorem exists_subkey {i : Nat} (h1 : 1 ≤ i) (h : i ≤ ks.length) : ∃ k, subkey ks i = .ok k :=
  ⟨ks[i - 1], subkey_eq_ok.2 ⟨h1, List.getElem?_eq_getElem (by omega)⟩⟩

theorem subkey_take {n i : Nat} (h : i ≤ n) : subkey (ks.take n) i = subkey ks i := by
  unfold subkey
  split
  · rfl
  · rw [List.getElem?_take_of_lt (by omega)]

end Subkeys

/-! ### KS.LOAD and KS.STEP where their checks pass (R161, R162) -/

section Bodies

variable {ra : VReg} {key cd : BV} {s t : State}

theorem loadKey_of_ksLoad (h : ksLoad key = .ok cd) : s.loadKey key = .ok { s with cd := some cd, k := [] } := by
  simp only [State.loadKey, h, ok_bind]

theorem scheduleStep_of_ksNext {cd' k : BV} (hcd : s.cd = some cd) (h : ksNext cd (s.kn + 1) = .ok (cd', k)) :
    s.scheduleStep = .ok { s with cd := some cd', k := s.k ++ [k] } := by
  simp only [State.scheduleStep, readCD_bind_of_some hcd, h, ok_bind]

theorem exec_ksLoad_of_ok (hkey : s.v.get ra = some key) (hw : key.w = 64) (h : s.loadKey key = .ok t) :
    exec (.ksLoad ra) s = .next t :=
  exec_of_ok rfl (by rw [readV_bind_of_some hkey, hasWidth_bind_of_eq hw, h])

theorem exec_ksStep_of_ok (hkn : s.kn < 16) (h : s.scheduleStep = .ok t) : exec .ksStep s = .next t := by
  obtain ⟨cd, hcd, -⟩ := bind_eq_ok.1 h
  exact exec_of_ok rfl (by rw [hcd, ok_bind, require_bind_of_pos hkn, h])

theorem scheduleStep_kn (h : s.scheduleStep = .ok t) : t.kn = s.kn + 1 := by
  obtain ⟨cd, -, h⟩ := bind_eq_ok.1 h
  obtain ⟨⟨cd', k⟩, -, h⟩ := bind_eq_ok.1 h
  cases h
  exact List.length_append

/-- The loop of `KS.DERIVE` leaves the subkeys of `derive`'s loop behind those there were (R160, R163). -/
theorem repeatTimes_scheduleStep {n : Nat} {ks : List BV} (hcd : s.cd = some cd)
    (h : deriveFrom n (s.kn + 1) cd = .ok ks) :
    ∃ cd', repeatTimes State.scheduleStep n s = .ok { s with cd := some cd', k := s.k ++ ks } := by
  induction n generalizing s cd ks with
  | zero =>
    cases h
    exact ⟨cd, by rw [List.append_nil, ← hcd]; rfl⟩
  | succ n ih =>
    obtain ⟨cd', k, rest, hnext, hrest, rfl⟩ := deriveFrom_succ_eq_ok.1 h
    have hstep := scheduleStep_of_ksNext hcd hnext
    obtain ⟨cd'', hloop⟩ := ih (s := { s with cd := some cd', k := s.k ++ [k] }) rfl
      (scheduleStep_kn hstep ▸ hrest)
    exact ⟨cd'', by rw [repeatTimes, hstep, ok_bind, hloop, List.append_assoc, List.singleton_append]⟩

theorem deriveKeys_of_ksLoad (h : ksLoad key = .ok cd) (n : Nat) :
    s.deriveKeys key n = repeatTimes State.scheduleStep n { s with cd := some cd, k := [] } := by
  rw [State.deriveKeys, loadKey_of_ksLoad h, ok_bind]

/-- The body of `KS.DERIVE`: K is what `derive` answers (R163). -/
theorem deriveKeys_of_derive {n : Nat} {ks : List BV} (h : derive key n = .ok ks) :
    ∃ cd, s.deriveKeys key n = .ok { s with cd := some cd, k := ks } := by
  obtain ⟨cd, hload, h⟩ := bind_eq_ok.1 h
  obtain ⟨cd', hloop⟩ := repeatTimes_scheduleStep (s := { s with cd := some cd, k := [] }) rfl h
  exact ⟨cd', (deriveKeys_of_ksLoad hload n).trans hloop⟩

end Bodies

/-! ### The commands one after the other (R76, R163) -/

section Sequences

variable {i : Instr} {ra : VReg} {key : BV} {s t : State}

theorem execAll_cons_of_next (h : exec i s = .next t) (rest : List Instr) :
    execAll (i :: rest) s = execAll rest t := by
  rw [execAll, h]

theorem execAll_ksStep {n : Nat} (hn : s.kn + n ≤ 16) (h : repeatTimes State.scheduleStep n s = .ok t) :
    execAll (List.replicate n .ksStep) s = .next t := by
  induction n generalizing s with
  | zero =>
    cases h
    rfl
  | succ n ih =>
    obtain ⟨u, hstep, h⟩ := bind_eq_ok.1 h
    have hkn := scheduleStep_kn hstep
    rw [List.replicate_succ, execAll_cons_of_next (exec_ksStep_of_ok (by omega) hstep)]
    exact ih (by omega) h

/-- R163: the body of `KS.DERIVE` does what the separate commands do. -/
theorem execAll_ksLoad_ksStep {n : Nat} (hkey : s.v.get ra = some key) (hw : key.w = 64) (hn : n ≤ 16)
    (h : s.deriveKeys key n = .ok t) : execAll (.ksLoad ra :: List.replicate n .ksStep) s = .next t := by
  obtain ⟨u, hload, h⟩ := bind_eq_ok.1 h
  have hkn : u.kn = 0 := by
    obtain ⟨cd, -, hload⟩ := bind_eq_ok.1 hload
    cases hload
    rfl
  rw [execAll_cons_of_next (exec_ksLoad_of_ok hkey hw hload)]
  exact execAll_ksStep (by omega) h

end Sequences

/-! ### The KS commands (R161 to R165) -/

/-- The encoder lays the zeros of bits 19:5 out as an absent `ra` and eleven zeros. -/
theorem encodeWord_ksGetk (rd : VReg) (i : Count) :
    encodeWord (.ksGetk rd i) = 0x33#8 ++ regBits rd ++ 0#15 ++ i := by
  have hzeros : 0x33#8 ++ regBits rd ++ (0#4 ++ 0#11) = 0x33#8 ++ regBits rd ++ 0#4 ++ 0#11 := by
    rw [BitVec.append_assoc', BitVec.cast_eq]
  exact congrArg (· ++ i) hzeros.symm

/-- Settles O34: the width check is all that PC1 needs, since it names positions 1 to 64 only. -/
theorem ksLoadTakesTheKeyThroughPC1 : Obligations.KsLoadTakesTheKeyThroughPC1 := by
  intro ra s _
  refine ⟨decode_encodeWord (.ksLoad ra) rfl nofun, fun h => traps_of_error rfl (readV_bind_of_none h _),
    fun key ⟨hkey, _⟩ => ?_⟩
  split
  case isTrue hw =>
    obtain ⟨cd, hload, hcd⟩ := ksLoad_permutedBy hw
    exact ⟨cd, hcd, exec_ksLoad_of_ok hkey hw (loadKey_of_ksLoad hload)⟩
  case isFalse hw => exact traps_of_error rfl (by rw [readV_bind_of_some hkey, hasWidth_bind_of_ne hw])

/-- Settles O35. -/
theorem ksStepRotatesAndAppendsASubkey : Obligations.KsStepRotatesAndAppendsASubkey := by
  intro s _
  refine ⟨decode_encodeWord .ksStep rfl nofun, fun h => traps_of_error rfl (readCD_bind_of_none h _),
    fun hcd hkn => ?_, fun cd hcd hf hw hkn => ?_⟩
  · obtain ⟨cd, hcd⟩ := Option.isSome_iff_exists.1 hcd
    exact traps_of_error rfl (by rw [readCD_bind_of_some hcd, require_bind_of_neg (hkn ▸ Nat.lt_irrefl 16)])
  · obtain ⟨cd', k, hnext, hstep⟩ := ksNext_scheduleStepOf hf hw (s.kn + 1)
    exact ⟨cd', k, hstep, exec_ksStep_of_ok hkn (scheduleStep_of_ksNext hcd hnext)⟩

/-- Settles O36: the command's body is the sequence's, and either leaves the first n subkeys of the sixteen. -/
theorem ksDeriveIsLoadThenSteps : Obligations.KsDeriveIsLoadThenSteps := by
  intro ra n s _
  refine ⟨decode_encodeWord (.ksDerive ra n) rfl nofun, fun h => traps_of_error rfl (readV_bind_of_none h _),
    fun key ⟨hkey, _⟩ => ⟨fun hw => ?_, fun hw hn => ?_, fun hw hn => ?_⟩⟩
  · exact traps_of_error rfl (by rw [readV_bind_of_some hkey, hasWidth_bind_of_ne hw])
  · exact traps_of_error rfl
      (by rw [readV_bind_of_some hkey, hasWidth_bind_of_eq hw, require_bind_of_neg hn.not_ge])
  · obtain ⟨all, hall, hlen, -⟩ := derive_of_width hw 16
    have hks : derive key n.toNat = .ok (all.take n.toNat) := derive_take hn hall
    obtain ⟨cd, hbody⟩ := deriveKeys_of_derive (s := s) hks
    refine ⟨cd, _, all, ?_, execAll_ksLoad_ksStep hkey hw hn hbody, hks, ?_, hall, rfl⟩
    · exact exec_of_ok rfl
        (by rw [readV_bind_of_some hkey, hasWidth_bind_of_eq hw, require_bind_of_pos hn, hbody])
    · exact List.length_take_of_le (hlen.symm ▸ hn)

/-- Settles O37: an index the schedule cannot have is refused before one it does not have yet. -/
theorem ksGetkCopiesTheSubkey : Obligations.KsGetkCopiesTheSubkey := by
  intro rd i s _
  refine ⟨encodeWord_ksGetk rd i ▸ decode_encodeWord (.ksGetk rd i) rfl nofun, ?_⟩
  split_ifs with hrange hkn
  · have hout : ¬ (1 ≤ i.toNat ∧ i.toNat ≤ 16) := by omega
    exact traps_of_error rfl (require_bind_of_neg hout _)
  · have hin : 1 ≤ i.toNat ∧ i.toNat ≤ 16 := by omega
    have hempty : subkey s.k i.toNat = .error .emptyRegister := subkey_eq_error.2 ⟨.inr hkn, rfl⟩
    exact traps_of_error rfl (by rw [require_bind_of_pos hin, hempty, error_bind])
  · have hin : 1 ≤ i.toNat ∧ i.toNat ≤ 16 := by omega
    obtain ⟨x, hx⟩ := exists_subkey hin.1 (Nat.le_of_not_lt hkn)
    obtain ⟨-, hget⟩ := subkey_eq_ok.1 hx
    exact ⟨x, hget, exec_of_ok rfl (by rw [require_bind_of_pos hin, hx, ok_bind])⟩

/-- Settles O38. -/
theorem ksGetcdCopiesTheRegister : Obligations.KsGetcdCopiesTheRegister := by
  intro rd s _
  exact ⟨decode_encodeWord (.ksGetcd rd) rfl nofun, fun h => traps_of_error rfl (readCD_bind_of_none h _),
    fun cd hcd => exec_of_ok rfl (readCD_bind_of_some hcd _)⟩

/-! ### The closed form of the schedule (R166) -/

section ClosedForm

variable {x y z hi lo hi' lo' c0 d0 cd cd' k : BV} {a b n : Nat}

theorem rotationOf_zero (hx : x.Fits) : RotationOf x 0 x :=
  ⟨hx, rfl, fun q h1 h2 => by rw [Nat.add_zero, Nat.mod_eq_of_lt (by omega), Nat.sub_add_cancel h1]⟩

/-- The positions of a rotation fix it (R127). -/
theorem RotationOf.eq_rotl (h : RotationOf x n y) (hx : x.Fits) : y = rotl x n := by
  refine bv_ext h.fits (rotl_fits hx n) h.width fun q h1 h2 => ?_
  rw [h.width] at h2
  rw [h.bits q h1 h2, rotl_at hx n h1 h2]

theorem rotl_mod (x : BV) (n : Nat) : rotl x (n % x.w) = rotl x n := by
  simp only [rotl, Nat.mod_mod]

theorem RotationOf.trans (hxy : RotationOf x a y) (hyz : RotationOf y b z) (hx : x.Fits) :
    RotationOf x (a + b) z := by
  obtain rfl := hxy.eq_rotl hx
  obtain rfl := hyz.eq_rotl hxy.fits
  rw [rotl_rotl hx, rotl_mod]
  exact rotl_rotationOf hx (a + b)

theorem RotationOf.eq_of_width (h : RotationOf x x.w y) (hx : x.Fits) : y = x :=
  (h.eq_rotl hx).trans (rotl_width hx)

/-- Splitting where two values were joined gives the two values. -/
theorem PartsOf.eq_of_joinOf (hp : PartsOf y hi.w hi' lo') (hy : JoinOf hi lo y) (hhi : hi.Fits) (hlo : lo.Fits) :
    hi' = hi ∧ lo' = lo := by
  have hwidth : lo'.w = lo.w := Nat.add_left_cancel (hp.widthLow.trans hy.width)
  constructor
  · refine bv_ext hp.fitsHigh hhi hp.widthHigh fun q h1 h2 => ?_
    rw [hp.widthHigh] at h2
    rw [hp.high q h1 h2, hy.high q h1 h2]
  · refine bv_ext hp.fitsLow hlo hwidth fun q h1 h2 => ?_
    have hle : hi.w + q ≤ y.w := hp.widthLow ▸ Nat.add_le_add_left h2 _
    rw [hp.low q h1 hle, hy.low q h1 (hwidth ▸ h2)]

theorem PartsOf.joinOf (hp : PartsOf x n hi lo) (hx : x.Fits) : JoinOf hi lo x := by
  obtain ⟨hfhi, hflo, hhi, hlo, hhigh, hlow⟩ := hp
  subst hhi
  exact ⟨hx, hlo.symm, fun q h1 h2 => (hhigh q h1 h2).symm, fun q h1 h2 => (hlow q h1 (by omega)).symm⟩

/-- `cd` is C‖D with both halves rotated by `n` from `c0` and `d0`: the register of R166 with `n = s(i)`. -/
def HalvesRotated (c0 d0 : BV) (n : Nat) (cd : BV) : Prop :=
  ∃ c d, RotationOf c0 n c ∧ RotationOf d0 n d ∧ JoinOf c d cd

theorem PartsOf.halvesRotated_zero (hp : PartsOf cd n c0 d0) (hcd : cd.Fits) : HalvesRotated c0 d0 0 cd :=
  ⟨c0, d0, rotationOf_zero hp.fitsHigh, rotationOf_zero hp.fitsLow, hp.joinOf hcd⟩

theorem HalvesRotated.width (h : HalvesRotated c0 d0 n cd) : cd.w = c0.w + d0.w := by
  obtain ⟨c, d, hc, hd, hjoin⟩ := h
  rw [hjoin.width, hc.width, hd.width]

theorem HalvesRotated.fits (h : HalvesRotated c0 d0 n cd) : cd.Fits := by
  obtain ⟨_, _, _, _, hjoin⟩ := h
  exact hjoin.fits

/-- One step of R160 turns each half further by its shift. -/
theorem HalvesRotated.step (h : HalvesRotated c0 d0 a cd) (hc0 : c0.Fits ∧ c0.w = 28) (hd0 : d0.Fits)
    (hs : ScheduleStepOf cd b cd' k) : HalvesRotated c0 d0 (a + b) cd' := by
  obtain ⟨c, d, hc, hd, hjoin⟩ := h
  obtain ⟨c₁, d₁, c', d', hparts, hc', hd', hjoin', -⟩ := hs
  rw [← hc0.2, ← hc.width] at hparts
  obtain ⟨rfl, rfl⟩ := hparts.eq_of_joinOf hjoin hc.fits hd.fits
  exact ⟨c', d', hc.trans hc' hc0.1, hd.trans hd' hd0, hjoin'⟩

/-- After a whole turn of both halves the register is the one they were taken from. -/
theorem HalvesRotated.eq_of_turn (h : HalvesRotated c0 d0 28 cd) (hp : PartsOf x 28 c0 d0) (hx : x.Fits)
    (hd0 : d0.w = 28) : cd = x := by
  obtain ⟨c, d, hc, hd, hjoin⟩ := h
  obtain rfl := RotationOf.eq_of_width (hp.widthHigh.symm ▸ hc) hp.fitsHigh
  obtain rfl := RotationOf.eq_of_width (hd0.symm ▸ hd) hp.fitsLow
  exact hjoin.eq_of_partsOf hp hx

end ClosedForm

/-- R166 as an invariant of `KS.STEP`: with KN = i the halves are those first loaded rotated by s(i), and the last
subkey is taken from them. -/
def State.InClosedForm (s : State) (c0 d0 : BV) : Prop :=
  ∃ cd, s.cd = some cd ∧ HalvesRotated c0 d0 (shiftSum s.kn) cd ∧
    (1 ≤ s.kn → ∃ k, s.k[s.kn - 1]? = some k ∧ PermutedBy cd tablePC2 k)

theorem inClosedForm_loaded (s : State) {cd c0 d0 : BV} (hp : PartsOf cd 28 c0 d0) (hcd : cd.Fits) :
    State.InClosedForm { s with cd := some cd, k := [] } c0 d0 :=
  ⟨cd, rfl, hp.halvesRotated_zero hcd, nofun⟩

theorem State.InClosedForm.scheduleStep {s t : State} {c0 d0 : BV} (hc : c0.Fits ∧ c0.w = 28)
    (hd : d0.Fits ∧ d0.w = 28) (hs : s.InClosedForm c0 d0) (h : s.scheduleStep = .ok t) : t.InClosedForm c0 d0 := by
  obtain ⟨cd, hcd, hrot, -⟩ := hs
  have hw : cd.w = 56 := by rw [hrot.width, hc.2, hd.2]
  obtain ⟨cd', k, hnext, hstep⟩ := ksNext_scheduleStepOf hrot.fits hw (s.kn + 1)
  have hkn := scheduleStep_kn h
  cases (scheduleStep_of_ksNext hcd hnext).symm.trans h
  refine ⟨cd', rfl, hkn ▸ hrot.step hc hd.1 hstep, fun _ => ⟨k, ?_, hstep.permutedBy⟩⟩
  rw [hkn]
  exact List.getElem?_concat_length

/-- The sum of all sixteen shifts is one turn of a half. -/
theorem shiftSum_sixteen : shiftSum 16 = 28 := by decide

/-- Settles O50: `KS.LOAD` establishes the closed form with s(0) = 0, every `KS.STEP` keeps it, and s(16) = 28 is one
turn of each half. -/
theorem scheduleHasTheClosedForm : Obligations.ScheduleHasTheClosedForm := by
  refine ⟨by decide, fun ra key i s _ ⟨hkey, _⟩ hw hi => ?_⟩
  obtain ⟨cd0, hload, hcd0⟩ := ksLoad_permutedBy hw
  have hw0 : cd0.w = 56 := hcd0.width
  obtain ⟨c0, d0, -, hparts⟩ := split_partsOf hcd0.fits (mid := 28) (by decide) (by omega)
  have hlow := hparts.widthLow
  have hc0 : c0.Fits ∧ c0.w = 28 := ⟨hparts.fitsHigh, hparts.widthHigh⟩
  have hd0 : d0.Fits ∧ d0.w = 28 := ⟨hparts.fitsLow, by omega⟩
  obtain ⟨ks, hks, hlen, -⟩ := derive_of_width hw i
  obtain ⟨cd', hbody⟩ := deriveKeys_of_derive (s := s) hks
  obtain ⟨cd, hcd, hrot, hlast⟩ := repeatTimes_keeps
    (P := fun u => u.InClosedForm c0 d0) (fun _ _ => State.InClosedForm.scheduleStep hc0 hd0) i _ _
    (inClosedForm_loaded s hparts hcd0.fits) ((deriveKeys_of_ksLoad hload i).symm.trans hbody)
  have hkn : State.kn { s with cd := some cd', k := ks } = i := hlen
  rw [hkn] at hrot hlast
  have ⟨c, d, hc, hd, hjoin⟩ := hrot
  refine ⟨cd0, c0, d0, _, cd, c, d, hcd0, hparts, execAll_ksLoad_ksStep hkey hw hi hbody, hcd, hkn, hc, hd, hjoin,
    hlast, fun hall => ?_⟩
  rw [hall, shiftSum_sixteen] at hrot
  exact hrot.eq_of_turn hparts hcd0.fits hd0.2

/-! ### Fewer rounds (R163; 44_cipher.md R210) -/

section Rounds

variable {ks ks' : List BV} {lr : BV × BV}

/-- Rounds read the subkeys of their own numbers only (R200). -/
theorem roundsFrom_congr {m i : Nat} (h : ∀ j < i + m, subkey ks j = subkey ks' j) :
    roundsFrom ks m i lr = roundsFrom ks' m i lr := by
  induction m generalizing i lr with
  | zero => rfl
  | succ m ih =>
    have hrest : ∀ lr, roundsFrom ks m (i + 1) lr = roundsFrom ks' m (i + 1) lr :=
      fun _ => ih fun j hj => h j (by omega)
    simp only [roundsFrom, h i (by omega), hrest]

/-- Rounds whose subkeys are there do not raise, and leave halves of width 32 (R200). -/
theorem roundsFrom_of_halves {m i : Nat} (hks : ∀ k ∈ ks, k.Fits ∧ k.w = 48) (h1 : 1 ≤ i)
    (hm : i + m ≤ ks.length + 1) (hl : lr.1.Fits ∧ lr.1.w = 32) (hr : lr.2.Fits ∧ lr.2.w = 32) :
    ∃ lr', roundsFrom ks m i lr = .ok lr' ∧ (lr'.1.Fits ∧ lr'.1.w = 32) ∧ (lr'.2.Fits ∧ lr'.2.w = 32) := by
  induction m generalizing i lr with
  | zero => exact ⟨lr, rfl, hl, hr⟩
  | succ m ih =>
    obtain ⟨k, hk⟩ := exists_subkey h1 (by omega : i ≤ ks.length)
    obtain ⟨hkf, hkw⟩ := hks k (mem_of_subkey hk)
    obtain ⟨-, r', -, -, hround, -, hr', -⟩ := cRound_of_width hl.1 hl.2 hr.2 hkf hkw
    simp only [roundsFrom, hk, ok_bind, hround]
    exact ih (Nat.le_add_left 1 i) (by omega) hr hr'

end Rounds

/-- Settles O52: a round up to n reads a subkey up to n, and those are in both lists. -/
theorem reducedRoundsUseAPrefixOfTheSchedule : Obligations.ReducedRoundsUseAPrefixOfTheSchedule := by
  intro key p n i _ hw _ hpw hn hi
  obtain ⟨full, hfull, hlen, hks⟩ := derive_of_width hw 16
  obtain ⟨l, r, hinit, hl, hr, -, -⟩ := cInit_of_width hpw
  obtain ⟨lr', hrounds, -, -⟩ := roundsFrom_of_halves (lr := (l, r)) (m := i) hks le_rfl (by omega) hl hr
  have hshort : roundsFrom (full.take n) i 1 (l, r) = roundsFrom full i 1 (l, r) :=
    roundsFrom_congr fun j hj => subkey_take (by omega)
  exact ⟨full, full.take n, (l, r), lr', hfull, derive_take hn hfull, rfl, hlen, hinit, hshort.trans hrounds,
    hrounds⟩

end Sys2Proof.Machine
end

section
/-! PROOFS. The statements of 43_roundfunction.md: the substitution network and the round function by positions (R181
to R183), the RF commands by their rules (R184 to R186), and `RF.F` as four commands (R186). -/

namespace Sys2Proof.Machine

/-! ### The bits at listed positions, read as a number (R10) -/

section Numbers

variable {x y : BV}

/-- Where `y` shows at its positions the bits of `x` at other positions, the numbers read there agree. -/
theorem numberAt_map {f : Nat → Nat} {n : Nat} {ps : List Nat} (hps : ∀ p ∈ ps, 1 ≤ p ∧ p ≤ n)
    (h : ∀ q, 1 ≤ q → q ≤ n → y.at q = x.at (f q)) : numberAt x (ps.map f) = numberAt y ps := by
  rw [numberAt, List.foldl_map]
  exact List.foldl_ext _ _ _ fun acc p hp => by rw [h p (hps p hp).1 (hps p hp).2]

/-- The first `n` positions read as a number are the backing integer without the bits after them (R10). -/
theorem numberAt_first (hx : x.Fits) {n : Nat} (hn : n ≤ x.w) :
    numberAt x (List.range' 1 n) = x.v / 2 ^ (x.w - n) := by
  induction n with
  | zero => exact (Nat.div_eq_of_lt hx.2.2).symm
  | succ n ih =>
    have hpow : 2 ^ (x.w - n) = 2 ^ (x.w - (n + 1)) * 2 := by rw [← Nat.pow_succ]; congr 1; omega
    have hprev : numberAt x (List.range' 1 n) = x.v / 2 ^ (x.w - (n + 1)) / 2 := by
      rw [ih (by omega), hpow, Nat.div_div_eq_div_mul]
    have hlast : (x.at (1 + n)).toNat = x.v / 2 ^ (x.w - (n + 1)) % 2 := by
      rw [BV.at, Nat.toNat_testBit, Nat.add_comm 1 n]
    calc numberAt x (List.range' 1 (n + 1))
        = 2 * numberAt x (List.range' 1 n) + (x.at (1 + n)).toNat := by
          rw [numberAt, List.range'_1_concat, List.foldl_concat, ← numberAt]
      _ = x.v / 2 ^ (x.w - (n + 1)) := by rw [hprev, hlast, Nat.div_add_mod]

/-- All positions of a value read as a number are its backing integer (R10). -/
theorem numberAt_all (hx : x.Fits) : numberAt x (List.range' 1 x.w) = x.v := by
  rw [numberAt_first hx le_rfl, Nat.sub_self, Nat.pow_zero, Nat.div_one]

end Numbers

/-! ### The substitution network by positions (R181, R182) -/

section Substitution

variable {x c : BV}

theorem sbox6_of_positions (hc : c.Fits) (hw : c.w = 6) {j : Nat} (hj : j < 9) :
    sbox6 c j = .ok ⟨4, sbox j (numberAt c [1, 6]) (numberAt c [2, 3, 4, 5])⟩ ∧
      BV.Fits ⟨4, sbox j (numberAt c [1, 6]) (numberAt c [2, 3, 4, 5])⟩ := by
  obtain ⟨mid, hmid, -, hsbox, hfits⟩ := sbox6_of_width hc hw hj
  obtain ⟨hmw, hmf, hat⟩ := prop_of_ok (range_of_bounds hc (by decide) (by decide) (by omega)) hmid
  have hrow : 2 * (c.at 1).toNat + (c.at 6).toNat = numberAt c [1, 6] := by simp [numberAt]
  have hcol : mid.v = numberAt c [2, 3, 4, 5] := by
    have hmap : numberAt c ([1, 2, 3, 4].map fun q => 2 + q - 1) = numberAt mid [1, 2, 3, 4] :=
      numberAt_map (by decide) hat
    rw [← numberAt_all hmf, hmw]
    exact hmap.symm
  rw [← hrow, ← hcol]
  exact ⟨hsbox, hfits⟩

/-- The entry that chunk `j + 1` of `x` selects in its own table, by the positions of `x` (R182). -/
def chunkEntry (x : BV) (j : Nat) : Nat :=
  sbox (j + 1) (numberAt x [6 * j + 1, 6 * j + 6]) (numberAt x [6 * j + 2, 6 * j + 3, 6 * j + 4, 6 * j + 5])

theorem sboxChunk_of_positions (hx : x.Fits) (hw : x.w = 48) {j : Nat} (hj : j < 8) :
    sboxChunk x (j + 1) = .ok ⟨4, chunkEntry x j⟩ ∧ BV.Fits ⟨4, chunkEntry x j⟩ := by
  obtain ⟨c, hrange, hcw, hcf, hat⟩ :=
    range_of_bounds hx (first := 6 * j + 1) (last := 6 * (j + 1)) (by omega) (by omega) (by omega)
  have hat : ∀ q, 1 ≤ q → q ≤ 6 → c.at q = x.at (6 * j + q) := fun q h1 h6 => by
    rw [hat q h1 (by omega), Nat.add_right_comm, Nat.add_sub_cancel]
  have hrow : numberAt x ([1, 6].map (6 * j + ·)) = numberAt c [1, 6] := numberAt_map (by decide) hat
  have hcol : numberAt x ([2, 3, 4, 5].map (6 * j + ·)) = numberAt c [2, 3, 4, 5] :=
    numberAt_map (by decide) hat
  have hentry : chunkEntry x j = sbox (j + 1) (numberAt c [1, 6]) (numberAt c [2, 3, 4, 5]) := by
    rw [← hrow, ← hcol]
    rfl
  obtain ⟨hsbox, hfits⟩ := sbox6_of_positions hcf (by omega) (j := j + 1) (by omega)
  rw [hentry]
  exact ⟨by rw [sboxChunk, Nat.add_sub_cancel, hrange, ok_bind, hsbox], hfits⟩

/-- `y` holds the outputs of the last `n + 1` chunks of `x`, four positions each: `SubstitutionOf` while the
concatenation is under way (R182). -/
structure LastChunksOf (x : BV) (n : Nat) (y : BV) : Prop where
  fits : y.Fits
  width : y.w = 4 * (n + 1)
  chunks : ∀ i ≤ n, numberAt y [4 * i + 1, 4 * i + 2, 4 * i + 3, 4 * i + 4] = chunkEntry x (7 - n + i)

theorem numberAt_four {v : Nat} (h : BV.Fits ⟨4, v⟩) : numberAt ⟨4, v⟩ [1, 2, 3, 4] = v := numberAt_all h

/-- A chunk's output in front of those of the chunks after it. -/
theorem LastChunksOf.cons {n : Nat} {y z : BV} (hn : n < 7) (hy : LastChunksOf x n y)
    (hf : BV.Fits ⟨4, chunkEntry x (7 - (n + 1))⟩) (hz : JoinOf ⟨4, chunkEntry x (7 - (n + 1))⟩ y z) :
    LastChunksOf x (n + 1) z := by
  refine ⟨hz.fits, ?_, fun i hi => ?_⟩
  · rw [hz.width, hy.width, Nat.mul_succ 4 (n + 1), Nat.add_comm]
  · cases i with
    | zero =>
      have hmap := numberAt_map (f := id) (n := 4) (ps := [1, 2, 3, 4]) (by decide) hz.high
      exact hmap.symm.trans (numberAt_four hf)
    | succ i =>
      have hps : ∀ p ∈ [4 * i + 1, 4 * i + 2, 4 * i + 3, 4 * i + 4], 1 ≤ p ∧ p ≤ y.w := by
        simp [hy.width]
        omega
      have hmap := numberAt_map hps fun q h1 h2 => (hz.low q h1 h2).symm
      have hindex : 7 - (n + 1) + (i + 1) = 7 - n + i := by omega
      rw [hindex, ← hy.chunks i (Nat.le_of_succ_le_succ hi), ← hmap]
      simp only [List.map_cons, List.map_nil, Nat.mul_succ, Nat.add_comm 4, Nat.add_right_comm _ _ 4]

theorem sboxLast_lastChunksOf (hx : x.Fits) (hw : x.w = 48) {n : Nat} (hn : n ≤ 7) :
    ∃ y, sboxLast x n = .ok y ∧ LastChunksOf x n y := by
  induction n with
  | zero =>
    obtain ⟨hchunk, hf⟩ := sboxChunk_of_positions hx hw (j := 7) (by decide)
    refine ⟨_, hchunk, hf, rfl, fun i hi => ?_⟩
    obtain rfl := Nat.le_zero.1 hi
    exact numberAt_four hf
  | succ n ih =>
    obtain ⟨y, hlast, hy⟩ := ih (Nat.le_of_succ_le hn)
    obtain ⟨hchunk, hf⟩ := sboxChunk_of_positions hx hw (j := 7 - (n + 1)) (by omega)
    have hsum : 4 + y.w ≤ 64 := by have := hy.width; omega
    obtain ⟨z, hconcat, hz⟩ := concat_joinOf hf hy.fits hsum
    have hindex : 7 - n = 7 - (n + 1) + 1 := by omega
    exact ⟨z, by rw [sboxLast, hindex, hchunk, ok_bind, hlast, ok_bind, hconcat], hy.cons hn hf hz⟩

theorem sbox48_substitutionOf (hx : x.Fits) (hw : x.w = 48) : ∃ y, sbox48 x = .ok y ∧ SubstitutionOf x y := by
  obtain ⟨y, hlast, hy⟩ := sboxLast_lastChunksOf hx hw le_rfl
  refine ⟨y, hlast, hy.fits, hy.width, fun j hj => ?_⟩
  rw [hy.chunks j (Nat.le_of_lt_succ hj), Nat.sub_self, Nat.zero_add]
  rfl

end Substitution

/-! ### The round function by positions (R183) -/

section RoundFunction

variable {r k : BV}

/-- The four stages of `f`, each with the value it hands to the next. -/
theorem roundF_stages (hr : r.w = 32) (hk : k.Fits) (hkw : k.w = 48) :
    ∃ e m t y, (permute r tableE = .ok e ∧ PermutedBy r tableE e) ∧ (xorBV e k = .ok m ∧ XorOf e k m) ∧
      (sbox48 m = .ok t ∧ SubstitutionOf m t) ∧ (permute t tableP = .ok y ∧ PermutedBy t tableP y) := by
  obtain ⟨e, hexp, he⟩ := permute_permutedBy (x := r) (t := tableE) (by simp) (by simp) (hr ▸ tableE_range)
  have hew : e.w = 48 := he.width
  obtain ⟨m, hxor, hm⟩ := xorBV_xorOf he.fits hk (hew.trans hkw.symm)
  obtain ⟨t, hsbox, ht⟩ := sbox48_substitutionOf hm.fits (hm.width.trans hew)
  obtain ⟨y, hperm, hy⟩ := permute_permutedBy (x := t) (t := tableP) (by simp) (by simp) (ht.width ▸ tableP_range)
  exact ⟨e, m, t, y, ⟨hexp, he⟩, ⟨hxor, hm⟩, ⟨hsbox, ht⟩, ⟨hperm, hy⟩⟩

theorem roundF_of_stages {e m t y : BV} (hexp : permute r tableE = .ok e) (hxor : xorBV e k = .ok m)
    (hsbox : sbox48 m = .ok t) (hperm : permute t tableP = .ok y) : roundF r k = .ok y := by
  rw [roundF, hexp, ok_bind, hxor, ok_bind, hsbox, ok_bind, hperm]

theorem roundF_roundFunctionOf (hr : r.w = 32) (hk : k.Fits) (hkw : k.w = 48) :
    ∃ y, roundF r k = .ok y ∧ RoundFunctionOf r k y := by
  obtain ⟨e, m, t, y, ⟨hexp, he⟩, ⟨hxor, hm⟩, ⟨hsbox, ht⟩, ⟨hperm, hy⟩⟩ := roundF_stages hr hk hkw
  exact ⟨y, roundF_of_stages hexp hxor hsbox hperm, e, m, t, he, hm, ht, hy⟩

end RoundFunction

/-! ### Commands whose checks pass (R139, R141, R185, R186) -/

section Completions

variable {rd ra rb : VReg} {s : State} {x a b y : BV}

theorem exec_bvPerm_of_ok {tid : Imm} {t : List Nat} (htable : s.table tid = .ok t) (hx : s.v.get ra = some x)
    (h : permute x t = .ok y) : exec (.bvPerm rd ra tid) s = .next (s.writeV rd y) :=
  exec_of_ok (exec_bvPerm_of_table htable) (by rw [State.permuteInto, readV_bind_of_some hx, h, ok_bind])

theorem exec_bvXor_of_ok (ha : s.v.get ra = some a) (hb : s.v.get rb = some b) (h : xorBV a b = .ok y) :
    exec (.bvXor rd ra rb) s = .next (s.writeV rd y) :=
  exec_of_ok rfl (by rw [readV_bind_of_some ha, readV_bind_of_some hb, h, ok_bind])

theorem exec_rfSbox_of_ok (hx : s.v.get ra = some x) (hw : x.w = 48) (h : sbox48 x = .ok y) :
    exec (.rfSbox rd ra) s = .next (s.writeV rd y) :=
  exec_of_ok rfl (by rw [readV_bind_of_some hx, hasWidth_bind_of_eq hw, h, ok_bind])

theorem exec_rfF_of_ok (ha : s.v.get ra = some a) (hb : s.v.get rb = some b) (haw : a.w = 32) (hbw : b.w = 48)
    (h : roundF a b = .ok y) : exec (.rfF rd ra rb) s = .next (s.writeV rd y) :=
  exec_of_ok rfl (by rw [readV_bind_of_some ha, readV_bind_of_some hb, hasWidth_bind_of_eq haw,
    hasWidth_bind_of_eq hbw, h, ok_bind])

end Completions

/-! ### The RF commands (R184 to R186) -/

/-- Settles O39: the number of the box is checked before the source is read (R235). -/
theorem rfSbLooksUpOneChunk : Obligations.RfSbLooksUpOneChunk := by
  intro rd ra j s _
  refine ⟨fun hj => ?_, fun h1 h8 => ?_⟩
  · have hbox : ¬ (1 ≤ j.toNat ∧ j.toNat ≤ 8) := by omega
    exact traps_of_error rfl (require_bind_of_neg hbox _)
  have hbox : 1 ≤ j.toNat ∧ j.toNat ≤ 8 := ⟨h1, h8⟩
  refine ⟨decode_encodeWord (.rfSb rd ra j) (by simp [Instr.wellFormed, hbox]) nofun,
    fun h => traps_of_error rfl (by rw [require_bind_of_pos hbox, readV_bind_of_none h]), fun x ⟨hx, hf⟩ => ?_⟩
  split
  case isTrue hw =>
    obtain ⟨hsbox, -⟩ := sbox6_of_positions hf hw (Nat.lt_succ_of_le h8)
    exact exec_of_ok rfl
      (by rw [require_bind_of_pos hbox, readV_bind_of_some hx, hasWidth_bind_of_eq hw, hsbox, ok_bind])
  case isFalse hw =>
    exact traps_of_error rfl (by rw [require_bind_of_pos hbox, readV_bind_of_some hx, hasWidth_bind_of_ne hw])

/-- Settles O40: the width check is all that the eight chunks need. -/
theorem rfSboxSubstitutesEightChunks : Obligations.RfSboxSubstitutesEightChunks := by
  intro rd ra s _
  refine ⟨decode_encodeWord (.rfSbox rd ra) rfl nofun, fun h => traps_of_error rfl (readV_bind_of_none h _),
    fun x ⟨hx, hf⟩ => ?_⟩
  split
  case isTrue hw =>
    obtain ⟨y, hsbox, hy⟩ := sbox48_substitutionOf hf hw
    exact ⟨y, hy, exec_rfSbox_of_ok hx hw hsbox⟩
  case isFalse hw => exact traps_of_error rfl (by rw [readV_bind_of_some hx, hasWidth_bind_of_ne hw])

/-- Settles O41: either source of another width ends the command with the one cause, whichever check finds it. -/
theorem rfFComputesTheRoundFunction : Obligations.RfFComputesTheRoundFunction := by
  intro rd ra rb s _
  refine ⟨decode_encodeWord (.rfF rd ra rb) rfl nofun, fun h => traps_of_error rfl (readV_readV_bind_of_none h _),
    fun r k ⟨hr, _⟩ ⟨hk, hkf⟩ => ?_⟩
  split
  case isTrue hw =>
    obtain ⟨hrw, hkw⟩ := hw
    obtain ⟨y, hround, hy⟩ := roundF_roundFunctionOf hrw hkf hkw
    exact ⟨y, hy, exec_rfF_of_ok hr hk hrw hkw hround⟩
  case isFalse hw =>
    by_cases hrw : r.w = 32
    · have hkw : k.w ≠ 48 := fun hkw => hw ⟨hrw, hkw⟩
      exact traps_of_error rfl (by rw [readV_bind_of_some hr, readV_bind_of_some hk, hasWidth_bind_of_eq hrw,
        hasWidth_bind_of_ne hkw])
    · exact traps_of_error rfl (by rw [readV_bind_of_some hr, readV_bind_of_some hk, hasWidth_bind_of_ne hrw])

/-- Settles O42: each command of the sequence is one stage of `f`; the subkey outlives the first, whose destination is
another register. -/
theorem rfFIsFourCommandsThroughAScratchRegister : Obligations.RfFIsFourCommandsThroughAScratchRegister := by
  intro rd ra rb rt r k s _ ⟨hr, _⟩ ⟨hk, hkf⟩ hrw hkw hne
  obtain ⟨e, m, t, y, ⟨hexp, he⟩, ⟨hxor, hm⟩, ⟨hsbox, -⟩, ⟨hperm, -⟩⟩ := roundF_stages hrw hkf hkw
  have hmw : m.w = 48 := hm.width.trans he.width
  have hk' : (s.writeV rt e).v.get rb = some k := (writeV_get_of_ne s rt rb e hne.symm).trans hk
  refine ⟨y, t, exec_rfF_of_ok hr hk hrw hkw (roundF_of_stages hexp hxor hsbox hperm), ?_⟩
  rw [execAll_cons_of_next (exec_bvPerm_of_ok rfl hr hexp),
    execAll_cons_of_next (exec_bvXor_of_ok (writeV_get_self s rt e) hk' hxor), writeV_writeV_self,
    execAll_cons_of_next (exec_rfSbox_of_ok (writeV_get_self s rt m) hmw hsbox), writeV_writeV_self,
    execAll_cons_of_next (exec_bvPerm_of_ok rfl (writeV_get_self s rt t) hperm), execAll]

end Sys2Proof.Machine
end

section
/-! PROOFS. The pure functions of the cipher (44_cipher.md R200, R201): their values by positions, how each stage is
undone, and with it that the encryption loses nothing of the plaintext; what no rounds give (R209). -/

namespace Sys2Proof.Machine

/-! ### The stages by positions (R200, R201) -/

section Stages

variable {p l r k : BV}

theorem cInit_partsOf (hw : p.w = 64) :
    ∃ y l r, cInit p = .ok (l, r) ∧ PermutedBy p tableIP y ∧ PartsOf y 32 l r := by
  obtain ⟨y, hperm, hy⟩ := permute_permutedBy (x := p) (t := tableIP) (by simp) (by simp) (hw ▸ tableIP_range)
  have hyw : y.w = 64 := hy.width
  obtain ⟨l, r, hsplit, hparts⟩ := split_partsOf hy.fits (mid := 32) (by decide) (by omega)
  exact ⟨y, l, r, by rw [cInit, hperm, ok_bind, hsplit], hy, hparts⟩

theorem RoundFunctionOf.fits_width {m : BV} (h : RoundFunctionOf r k m) : m.Fits ∧ m.w = 32 := by
  obtain ⟨_, _, _, _, _, _, hm⟩ := h
  exact ⟨hm.fits, hm.width⟩

theorem cRound_mixes (hl : l.Fits ∧ l.w = 32) (hr : r.w = 32) (hk : k.Fits) (hkw : k.w = 48) :
    ∃ m r', cRound l r k = .ok (r, r') ∧ RoundFunctionOf r k m ∧ XorOf l m r' := by
  obtain ⟨m, hround, hm⟩ := roundF_roundFunctionOf hr hk hkw
  obtain ⟨hmf, hmw⟩ := hm.fits_width
  obtain ⟨r', hxor, hr'⟩ := xorBV_xorOf hl.1 hmf (hl.2.trans hmw.symm)
  exact ⟨m, r', by rw [cRound, hround, ok_bind, hxor, ok_bind], hm, hr'⟩

theorem cFinal_permutedBy (hl : l.Fits ∧ l.w = 32) (hr : r.Fits ∧ r.w = 32) :
    ∃ x y, cFinal l r = .ok y ∧ JoinOf r l x ∧ PermutedBy x tableFP y := by
  have hsum : r.w + l.w = 64 := by rw [hl.2, hr.2]
  obtain ⟨x, hconcat, hx⟩ := concat_joinOf hr.1 hl.1 hsum.le
  obtain ⟨y, hperm, hy⟩ := permute_permutedBy (x := x) (t := tableFP) (by simp) (by simp)
    (hx.width.trans hsum ▸ tableFP_range)
  exact ⟨x, y, by rw [cFinal, hconcat, ok_bind, hperm], hx, hy⟩

end Stages

/-! ### The whole encryption (R200) -/

section Encryption

variable {p key c : BV} {ks ks' : List BV} {n : Nat}

/-- The three phases of an encryption. -/
theorem enck_eq_ok : enck p ks n = .ok c ↔ ∃ lr lr', cInit p = .ok lr ∧ roundsFrom ks n 1 lr = .ok lr' ∧
    cFinal lr'.1 lr'.2 = .ok c := by
  simp only [enck, bind_eq_ok, exists_and_left]

/-- The halves after the rounds, with the widths the final permutation needs. -/
theorem roundsFrom_of_cInit (hw : p.w = 64) (hks : ∀ k ∈ ks, k.Fits ∧ k.w = 48) (hn : n ≤ ks.length) :
    ∃ lr lr', cInit p = .ok lr ∧ roundsFrom ks n 1 lr = .ok lr' ∧ (lr'.1.Fits ∧ lr'.1.w = 32) ∧
      (lr'.2.Fits ∧ lr'.2.w = 32) := by
  obtain ⟨l, r, hinit, hl, hr, -, -⟩ := cInit_of_width hw
  obtain ⟨lr', hrounds, hl', hr'⟩ :=
    roundsFrom_of_halves (lr := (l, r)) (m := n) hks le_rfl (by omega) hl hr
  exact ⟨(l, r), lr', hinit, hrounds, hl', hr'⟩

theorem enck_of_width (hw : p.w = 64) (hks : ∀ k ∈ ks, k.Fits ∧ k.w = 48) (hn : n ≤ ks.length) :
    ∃ c, enck p ks n = .ok c := by
  obtain ⟨lr, lr', hinit, hrounds, hl, hr⟩ := roundsFrom_of_cInit hw hks hn
  obtain ⟨-, c, hfinal, -, -⟩ := cFinal_permutedBy hl hr
  exact ⟨c, enck_eq_ok.2 ⟨lr, lr', hinit, hrounds, hfinal⟩⟩

theorem encrypt_of_derive (h : derive key n = .ok ks) (p : BV) : encrypt p key n = enck p ks n := by
  rw [encrypt, h, ok_bind]

/-- The encryption reads the first n subkeys only (R200). -/
theorem enck_congr (h : ks.take n = ks'.take n) (p : BV) : enck p ks n = enck p ks' n := by
  have hrounds : ∀ lr, roundsFrom ks n 1 lr = roundsFrom ks' n 1 lr := fun lr =>
    roundsFrom_congr fun j hj => by rw [← subkey_take (ks := ks) (n := n) (by omega), h, subkey_take (by omega)]
  simp only [enck, hrounds]

end Encryption

/-! ### Each stage undone (R55, R201)

The permutations and the exchange of the halves undo each other; a round run on the exchanged halves takes its own
mixing away again, because the half it was computed from is still there. -/

section Undone

variable {p x a b c l r l' r' k : BV}

/-- Splitting at the joint gives back what was joined. -/
theorem split_of_concat (ha : a.Fits) (hb : b.Fits) (h : concat a b = .ok x) : split x a.w = .ok (a, b) := by
  have hsum : a.w + b.w ≤ 64 := check_of_ok (fun _ => concat_eq_error) h
  have hjoin : JoinOf a b x := prop_of_ok (concat_joinOf ha hb hsum) h
  have hlt : a.w < x.w := by
    have := hb.1
    rw [hjoin.width]
    omega
  obtain ⟨hi, lo, hsplit, hparts⟩ := split_partsOf hjoin.fits ha.1 hlt
  obtain ⟨rfl, rfl⟩ := hparts.eq_of_joinOf hjoin ha hb
  exact hsplit

theorem cFinal_of_cInit (hp : p.Fits) (hw : p.w = 64) (h : cInit p = .ok (l, r)) : cFinal r l = .ok p := by
  obtain ⟨y, -, hperm, hundo, -, -⟩ := permute_tableIP_tableFP hp hw
  rw [cInit, hperm, ok_bind] at h
  have ⟨hmid, hlt⟩ : 1 ≤ 32 ∧ 32 < y.w := check_of_ok (fun _ => split_eq_error) h
  obtain ⟨hi, lo, hsplit, hconcat⟩ := concat_of_split (permute_fits hperm) hmid hlt
  cases hsplit.symm.trans h
  rw [cFinal, hconcat, ok_bind, hundo]

theorem cInit_of_cFinal (hl : l.Fits ∧ l.w = 32) (hr : r.Fits ∧ r.w = 32) (h : cFinal l r = .ok c) :
    cInit c = .ok (r, l) := by
  obtain ⟨x, hconcat, hperm⟩ := bind_eq_ok.1 h
  have hsplit := split_of_concat hr.1 hl.1 hconcat
  have hxw : x.w = 64 := by
    have hjoin : JoinOf r l x := prop_of_ok (concat_joinOf hr.1 hl.1 (by omega)) hconcat
    rw [hjoin.width, hr.2, hl.2]
  obtain ⟨-, z, -, -, hz, hundo⟩ := permute_tableIP_tableFP (concat_fits hr.1 hl.1 hconcat) hxw
  cases hz.symm.trans hperm
  rw [hr.2] at hsplit
  rw [cInit, hundo, ok_bind]
  exact hsplit

theorem xorBV_xorBV (h : xorBV a b = .ok x) : xorBV x b = .ok a := by
  have hw : a.w = b.w := check_of_ok (P := a.w = b.w) (fun _ => xorBV_eq_error) h
  simp only [xorBV, hw, ne_eq, not_true_eq_false, if_false, Except.ok.injEq] at h
  subst h
  simp only [xorBV, ne_eq, not_true_eq_false, if_false, Nat.xor_assoc, Nat.xor_self, Nat.xor_zero, ← hw]

theorem cRound_of_cRound (h : cRound l r k = .ok (l', r')) : cRound r' l' k = .ok (r, l) := by
  obtain ⟨m, hround, h⟩ := bind_eq_ok.1 h
  obtain ⟨x, hxor, h⟩ := bind_eq_ok.1 h
  cases h
  rw [cRound, hround, ok_bind, xorBV_xorBV hxor, ok_bind]

end Undone

/-! ### Nothing of the plaintext is lost -/

section Injective

variable {p p' : BV} {lr lr' out : BV × BV} {ks : List BV}

theorem cInit_injective (hp : p.Fits ∧ p.w = 64) (hp' : p'.Fits ∧ p'.w = 64) (h : cInit p = .ok lr)
    (h' : cInit p' = .ok lr) : p = p' :=
  Except.ok.inj ((cFinal_of_cInit hp.1 hp.2 h).symm.trans (cFinal_of_cInit hp'.1 hp'.2 h'))

/-- Each round is undone from its result, the last one first. -/
theorem roundsFrom_injective {m i : Nat} (h : roundsFrom ks m i lr = .ok out)
    (h' : roundsFrom ks m i lr' = .ok out) : lr = lr' := by
  induction m generalizing i lr lr' with
  | zero => exact Except.ok.inj (h.trans h'.symm)
  | succ m ih =>
    obtain ⟨k, hk, h⟩ := bind_eq_ok.1 h
    obtain ⟨mid, hround, h⟩ := bind_eq_ok.1 h
    rw [roundsFrom, hk, ok_bind] at h'
    obtain ⟨mid', hround', h'⟩ := bind_eq_ok.1 h'
    have hmid := ih h h'
    subst hmid
    have hback := Except.ok.inj ((cRound_of_cRound hround).symm.trans (cRound_of_cRound hround'))
    exact Prod.swap_injective hback

theorem enck_injective {n : Nat} {c : BV} (hp : p.Fits ∧ p.w = 64) (hp' : p'.Fits ∧ p'.w = 64)
    (hks : ∀ k ∈ ks, k.Fits ∧ k.w = 48) (hn : n ≤ ks.length) (h : enck p ks n = .ok c)
    (h' : enck p' ks n = .ok c) : p = p' := by
  obtain ⟨a, b, ha, hab, hb, hb'⟩ := roundsFrom_of_cInit hp.2 hks hn
  obtain ⟨a', d, ha', had, hd, hd'⟩ := roundsFrom_of_cInit hp'.2 hks hn
  rw [enck, ha, ok_bind, hab, ok_bind] at h
  rw [enck, ha', ok_bind, had, ok_bind] at h'
  have hfinal := Except.ok.inj ((cInit_of_cFinal hb hb' h).symm.trans (cInit_of_cFinal hd hd' h'))
  obtain rfl : b = d := Prod.swap_injective hfinal
  obtain rfl := roundsFrom_injective hab had
  exact cInit_injective hp hp' ha ha'

end Injective

/-- Settles O56: from one ciphertext the halves before `C.FINAL` come back, from those the halves before each round, and
from those the plaintext. -/
theorem encryptionIsInjectiveInThePlaintext : Obligations.EncryptionIsInjectiveInThePlaintext := by
  intro p p' key c n hp hw hp' hw' _ hkw _ h h'
  obtain ⟨ks, hderive, hlen, hks⟩ := derive_of_width hkw n
  rw [encrypt_of_derive hderive] at h h'
  exact enck_injective ⟨hp, hw⟩ ⟨hp', hw'⟩ hks hlen.ge h h'

/-! ### Zero rounds (R209) -/

/-- Halves exchanged are the value turned by its half. -/
theorem PartsOf.rotationOf_of_joinOf {x hi lo y : BV} (hp : PartsOf x 32 hi lo) (hx : x.w = 64)
    (hy : JoinOf lo hi y) : RotationOf x 32 y := by
  have hlo : lo.w = 32 := by have := hp.widthLow; omega
  have hwidth : y.w = x.w := by rw [hy.width, hlo, hp.widthHigh, hx]
  refine ⟨hy.fits, hwidth, fun q h1 h2 => ?_⟩
  rw [hx] at h2 ⊢
  by_cases hq : q ≤ 32
  · rw [hy.high q h1 (by omega), hp.low q h1 (by omega)]
    congr 1
    omega
  · obtain ⟨t, rfl⟩ := Nat.exists_eq_add_of_le (Nat.le_of_not_le hq)
    have hjoined := hy.low t (by omega) (by rw [hp.widthHigh]; omega)
    rw [hlo] at hjoined
    rw [hjoined, hp.high t (by omega) (by omega)]
    congr 1
    omega

/-- FP after a turn by 32 after IP fetches every position from the other one of its pair. -/
theorem tableIP_turn_tableFP : ∀ k ≤ 32, 1 ≤ k →
    tableIP.getD ((tableFP.getD (2 * k - 2) 0 - 1 + 32) % 64) 0 = 2 * k ∧
      tableIP.getD ((tableFP.getD (2 * k - 1) 0 - 1 + 32) % 64) 0 = 2 * k - 1 := by decide

/-- IP, the exchange of the halves and FP, position by position (R209). -/
theorem at_of_turn {p x y c : BV} (hx : PermutedBy p tableIP x) (hy : RotationOf x 32 y)
    (hc : PermutedBy y tableFP c) {q : Nat} (h1 : 1 ≤ q) (h2 : q ≤ 64) :
    c.at q = p.at (tableIP.getD ((tableFP.getD (q - 1) 0 - 1 + 32) % 64) 0) := by
  have hxw : x.w = 64 := hx.width
  have hmem : tableFP.getD (q - 1) 0 ∈ tableFP := by
    rw [List.getD_eq_getElem _ _ (by rw [tableFP_length]; omega)]
    exact List.getElem_mem _
  obtain ⟨hf1, hf2⟩ := tableFP_range _ hmem
  have hlt : (tableFP.getD (q - 1) 0 - 1 + 32) % 64 < 64 := Nat.mod_lt _ (by decide)
  calc c.at q = y.at (tableFP.getD (q - 1) 0) := hc.bits q h1 h2
    _ = x.at ((tableFP.getD (q - 1) 0 - 1 + 32) % 64 + 1) := by rw [hy.bits _ hf1 (hxw ▸ hf2), hxw]
    _ = _ := hx.bits _ (Nat.le_add_left 1 _) hlt

/-- Settles O54: with no rounds the encryption is `C.FINAL` after `C.INIT`. -/
theorem zeroRoundsExchangeAdjacentPositions : Obligations.ZeroRoundsExchangeAdjacentPositions := by
  intro p key _ hw _ hkw
  obtain ⟨ks, hderive, -, -⟩ := derive_of_width hkw 0
  obtain ⟨x, l, r, hinit, hx, hparts⟩ := cInit_partsOf hw
  have hxw : x.w = 64 := hx.width
  have hrw : r.w = 32 := by have := hparts.widthLow; omega
  obtain ⟨y, c, hfinal, hy, hc⟩ := cFinal_permutedBy ⟨hparts.fitsHigh, hparts.widthHigh⟩ ⟨hparts.fitsLow, hrw⟩
  have hturn := hparts.rotationOf_of_joinOf hxw hy
  refine ⟨c, (encrypt_of_derive hderive p).trans (enck_eq_ok.2 ⟨_, _, hinit, rfl, hfinal⟩), hc.fits, hc.width,
    fun k h1 h2 => ?_⟩
  obtain ⟨hodd, heven⟩ := tableIP_turn_tableFP k h2 h1
  exact ⟨by rw [at_of_turn hx hturn hc (by omega) (by omega), Nat.sub_sub, hodd],
    by rw [at_of_turn hx hturn hc (by omega) (by omega), heven]⟩

/-- Settles O57, by running the model. -/
theorem knownAnswerVectorsHold : Obligations.KnownAnswerVectorsHold := by
  constructor <;> decide +kernel
end Sys2Proof.Machine
end

section
/-! PROOFS. The statements of 44_cipher.md about commands: each C command by its rule (R202 to R206, R208), and what the
ciphertext depends on (R207). -/

namespace Sys2Proof.Machine

/-! ### C.INIT, C.ROUND and C.FINAL where their checks pass (R202 to R204) -/

section Bodies

variable {α : Type} {rd ra : VReg} {p c l r k : BV} {lr lr' : BV × BV} {n : Nat} {s t : State}

theorem readLR_bind_of_some (hl : s.l = some l) (hr : s.r = some r) (f : BV × BV → Checked α) :
    (s.readLR >>= f) = f (l, r) := by
  rw [readLR_eq_ok (p := (l, r)).2 ⟨hl, hr⟩, ok_bind]

theorem readLR_bind_of_none (h : s.l = none ∨ s.r = none) (f : BV × BV → Checked α) :
    (s.readLR >>= f) = .error .emptyRegister := by
  rw [readLR_eq_error.2 ⟨h, rfl⟩, error_bind]

theorem initHalves_of_cInit (h : cInit p = .ok lr) :
    s.initHalves p = .ok { s with l := some lr.1, r := some lr.2, rn := 0 } := by
  rw [State.initHalves, h, ok_bind]

theorem roundStep_of_cRound (hl : s.l = some l) (hr : s.r = some r) (hk : subkey s.k (s.rn + 1) = .ok k)
    (h : cRound l r k = .ok lr') :
    s.roundStep = .ok { s with l := some lr'.1, r := some lr'.2, rn := s.rn + 1 } := by
  simp only [State.roundStep, readLR_bind_of_some hl hr, hk, ok_bind, h]

theorem finalInto_of_cFinal (hl : s.l = some l) (hr : s.r = some r) (h : cFinal l r = .ok c) :
    s.finalInto rd = .ok (s.writeV rd c) := by
  simp only [State.finalInto, readLR_bind_of_some hl hr, h, ok_bind]

theorem exec_cInit_of_ok (hp : s.v.get ra = some p) (hw : p.w = 64) (h : s.initHalves p = .ok t) :
    exec (.cInit ra) s = .next t :=
  exec_of_ok rfl (by rw [readV_bind_of_some hp, hasWidth_bind_of_eq hw, h])

theorem exec_cRound_of_ok (hrn : s.rn < 16) (h : s.roundStep = .ok t) : exec .cRound s = .next t := by
  obtain ⟨lr, hlr, hrest⟩ := bind_eq_ok.1 h
  obtain ⟨k, hk, -⟩ := bind_eq_ok.1 hrest
  have hkn : s.rn + 1 ≤ s.kn := by
    obtain ⟨-, hget⟩ := subkey_eq_ok.1 hk
    obtain ⟨hlt, -⟩ := List.getElem?_eq_some_iff.1 hget
    exact hlt
  exact exec_of_ok rfl (by rw [hlr, ok_bind, require_bind_of_pos hrn, require_bind_of_pos hkn, h])

theorem roundStep_rn (h : s.roundStep = .ok t) : t.rn = s.rn + 1 := by
  obtain ⟨lr, -, h⟩ := bind_eq_ok.1 h
  obtain ⟨k, -, h⟩ := bind_eq_ok.1 h
  obtain ⟨lr', -, h⟩ := bind_eq_ok.1 h
  cases h
  rfl

/-- The loop of `C.ENCK` runs the rounds from the one after RN on (R200, R205). -/
theorem repeatTimes_roundStep (hl : s.l = some lr.1) (hr : s.r = some lr.2)
    (h : roundsFrom s.k n (s.rn + 1) lr = .ok lr') :
    repeatTimes State.roundStep n s = .ok { s with l := some lr'.1, r := some lr'.2, rn := s.rn + n } := by
  induction n generalizing s lr with
  | zero =>
    cases h
    rw [← hl, ← hr]
    rfl
  | succ n ih =>
    obtain ⟨k, hk, h⟩ := bind_eq_ok.1 h
    obtain ⟨mid, hround, h⟩ := bind_eq_ok.1 h
    have hloop := ih (s := { s with l := some mid.1, r := some mid.2, rn := s.rn + 1 }) rfl rfl h
    rw [repeatTimes, roundStep_of_cRound hl hr hk hround, ok_bind, hloop, Nat.add_right_comm, Nat.add_assoc]

/-- The body of `C.ENCK`: `Vd` gets what `enck` answers, and RN counts its rounds (R205). -/
theorem encryptStored_of_enck (h : enck p s.k n = .ok c) : ∃ l r, s.encryptStored rd p n =
    .ok (State.writeV { s with l := some l, r := some r, rn := n } rd c) := by
  obtain ⟨lr, lr', hinit, hrounds, hfinal⟩ := enck_eq_ok.1 h
  have hloop := repeatTimes_roundStep (s := { s with l := some lr.1, r := some lr.2, rn := 0 }) rfl rfl hrounds
  rw [Nat.zero_add] at hloop
  refine ⟨lr'.1, lr'.2, ?_⟩
  rw [State.encryptStored, initHalves_of_cInit hinit, ok_bind, hloop, ok_bind]
  exact finalInto_of_cFinal rfl rfl hfinal

end Bodies

/-! ### The macro commands where their checks pass (R205, R206) -/

section Macros

variable {rd ra rb : VReg} {p key c : BV} {n : Count} {ks : List BV} {s t : State}

theorem exec_cEnck_of_ok (hp : s.v.get ra = some p) (hw : p.w = 64) (hn : n.toNat ≤ 16) (hkn : n.toNat ≤ s.kn)
    (h : s.encryptStored rd p n.toNat = .ok t) : exec (.cEnck rd ra n) s = .next t :=
  exec_of_ok rfl (by rw [readV_bind_of_some hp, hasWidth_bind_of_eq hw, require_bind_of_pos hn,
    require_bind_of_pos hkn, h])

theorem exec_ksDerive_of_ok (hkey : s.v.get ra = some key) (hw : key.w = 64) (hn : n.toNat ≤ 16)
    (h : s.deriveKeys key n.toNat = .ok t) : exec (.ksDerive ra n) s = .next t :=
  exec_of_ok rfl (by rw [readV_bind_of_some hkey, hasWidth_bind_of_eq hw, require_bind_of_pos hn, h])

/-- `C.ENCRYPT` is `KS.DERIVE` and `C.ENCK` in one: what one list of subkeys makes both do (R206). -/
theorem exec_cEncrypt_of_enck (hp : s.v.get ra = some p) (hkey : s.v.get rb = some key) (hpw : p.w = 64)
    (hkw : key.w = 64) (hn : n.toNat ≤ 16) (hderive : derive key n.toNat = .ok ks) (hlen : ks.length = n.toNat)
    (h : enck p ks n.toNat = .ok c) :
    ∃ cd l r t,
      t = State.writeV { s with cd := some cd, k := ks, l := some l, r := some r, rn := n.toNat } rd c ∧
      exec (.cEncrypt rd ra rb n) s = .next t ∧ execAll [.ksDerive rb n, .cEnck rd ra n] s = .next t := by
  obtain ⟨cd, hkeys⟩ := deriveKeys_of_derive (s := s) hderive
  obtain ⟨l, r, hstored⟩ := encryptStored_of_enck (s := { s with cd := some cd, k := ks }) (rd := rd) h
  refine ⟨cd, l, r, _, rfl, ?_, ?_⟩
  · exact exec_of_ok rfl (by rw [readV_bind_of_some hp, readV_bind_of_some hkey, hasWidth_bind_of_eq hpw,
      hasWidth_bind_of_eq hkw, require_bind_of_pos hn, hkeys, ok_bind, hstored])
  · have henck := exec_cEnck_of_ok (s := { s with cd := some cd, k := ks }) hp hpw hn hlen.ge hstored
    rw [execAll_cons_of_next (exec_ksDerive_of_ok hkey hkw hn hkeys), execAll_cons_of_next henck, execAll]

end Macros

/-! ### The commands one after the other (R76, R205) -/

section Sequences

variable {i : Instr} {first : List Instr} {rd ra : VReg} {p : BV} {s t : State}

theorem execAll_append_of_next (h : execAll first s = .next t) (rest : List Instr) :
    execAll (first ++ rest) s = execAll rest t := by
  induction first generalizing s with
  | nil =>
    cases h
    rfl
  | cons i first ih =>
    obtain ⟨u, hu, -⟩ := exec_endsAsListed i s
    rw [execAll_cons_of_next hu] at h
    rw [List.cons_append, execAll_cons_of_next hu, ih h]

/-- A loop of a macro command is its command repeated, where that command completes while a counter it advances is
below 16 (R212). -/
theorem execAll_replicate_of_repeatTimes {f : State → Checked State} {count : State → Nat}
    (hf : ∀ u v, count u < 16 → f u = .ok v → exec i u = .next v ∧ count v = count u + 1) {n : Nat}
    (hn : count s + n ≤ 16) (h : repeatTimes f n s = .ok t) : execAll (List.replicate n i) s = .next t := by
  induction n generalizing s with
  | zero =>
    cases h
    rfl
  | succ n ih =>
    obtain ⟨u, hu, h⟩ := bind_eq_ok.1 h
    obtain ⟨hexec, hcount⟩ := hf s u (by omega) hu
    rw [List.replicate_succ, execAll_cons_of_next hexec]
    exact ih (by omega) h

/-- R205: the body of `C.ENCK` does what the separate commands do. -/
theorem execAll_cInit_cRound_cFinal {n : Nat} (hp : s.v.get ra = some p) (hw : p.w = 64) (hn : n ≤ 16)
    (h : s.encryptStored rd p n = .ok t) :
    execAll (.cInit ra :: (List.replicate n .cRound ++ [.cFinal rd])) s = .next t := by
  obtain ⟨u, hinit, h⟩ := bind_eq_ok.1 h
  obtain ⟨v, hrounds, hfinal⟩ := bind_eq_ok.1 h
  have hrn : u.rn = 0 := by
    obtain ⟨lr, -, hinit⟩ := bind_eq_ok.1 hinit
    cases hinit
    rfl
  have hloop : execAll (List.replicate n .cRound) u = .next v :=
    execAll_replicate_of_repeatTimes (count := State.rn)
      (fun _ _ hlt hround => ⟨exec_cRound_of_ok hlt hround, roundStep_rn hround⟩) (by omega) hrounds
  have hexec : exec (.cFinal rd) v = .next t := exec_of_ok rfl hfinal
  rw [execAll_cons_of_next (exec_cInit_of_ok hp hw hinit), execAll_append_of_next hloop,
    execAll_cons_of_next hexec, execAll]

end Sequences

/-! ### The C commands (R202 to R206, R208) -/

/-- Settles O43: the width check is all that IP and the split need. -/
theorem cInitSplitsThePermutedPlaintext : Obligations.CInitSplitsThePermutedPlaintext := by
  intro ra s _
  refine ⟨decode_encodeWord (.cInit ra) rfl nofun, fun h => traps_of_error rfl (readV_bind_of_none h _),
    fun p ⟨hp, _⟩ => ?_⟩
  split
  case isTrue hw =>
    obtain ⟨y, l, r, hinit, hy, hparts⟩ := cInit_partsOf hw
    exact ⟨y, l, r, hy, hparts, exec_cInit_of_ok hp hw (initHalves_of_cInit hinit)⟩
  case isFalse hw => exact traps_of_error rfl (by rw [readV_bind_of_some hp, hasWidth_bind_of_ne hw])

/-- Settles O44: a seventeenth round is refused before a missing subkey (R203). -/
theorem cRoundMixesAndSwapsTheHalves : Obligations.CRoundMixesAndSwapsTheHalves := by
  intro s _
  refine ⟨decode_encodeWord .cRound rfl nofun, fun h => traps_of_error rfl (readLR_bind_of_none h _),
    fun l r ⟨hl, hr, hlf, hrf⟩ => ⟨fun hrn => ?_, fun hrn hkn => ?_, fun hrn k hk hkf hkw => ?_⟩⟩
  · exact traps_of_error rfl
      (by rw [readLR_bind_of_some hl hr, require_bind_of_neg (hrn ▸ Nat.lt_irrefl 16)])
  · exact traps_of_error rfl
      (by rw [readLR_bind_of_some hl hr, require_bind_of_pos hrn, require_bind_of_neg hkn.not_ge])
  · obtain ⟨m, r', hround, hm, hr'⟩ := cRound_mixes hlf hrf.2 hkf hkw
    have hk' : subkey s.k (s.rn + 1) = .ok k := subkey_eq_ok.2 ⟨Nat.succ_pos _, hk⟩
    exact ⟨m, r', hm, hr', exec_cRound_of_ok hrn (roundStep_of_cRound hl hr hk' hround)⟩

/-- Settles O45. -/
theorem cFinalPermutesTheSwappedHalves : Obligations.CFinalPermutesTheSwappedHalves := by
  intro rd s _
  refine ⟨decode_encodeWord (.cFinal rd) rfl nofun, fun h => traps_of_error rfl (readLR_bind_of_none h _),
    fun l r ⟨hl, hr, hlf, hrf⟩ => ?_⟩
  obtain ⟨x, y, hfinal, hx, hy⟩ := cFinal_permutedBy hlf hrf
  exact ⟨x, y, hx, hy, exec_of_ok rfl (finalInto_of_cFinal hl hr hfinal)⟩

/-- Settles O46: the command's body is the sequence's, and with n subkeys of their width no round can fail. -/
theorem cEnckIsInitThenRoundsThenFinal : Obligations.CEnckIsInitThenRoundsThenFinal := by
  intro rd ra n s hs _
  refine ⟨decode_encodeWord (.cEnck rd ra n) rfl nofun, fun h => traps_of_error rfl (readV_bind_of_none h _),
    fun p hp => ⟨fun hw => ?_, fun hw hn => ?_, fun hw hn hkn => ?_, fun hw hn hkn => ?_⟩⟩
  · exact traps_of_error rfl (by rw [readV_bind_of_some hp, hasWidth_bind_of_ne hw])
  · exact traps_of_error rfl
      (by rw [readV_bind_of_some hp, hasWidth_bind_of_eq hw, require_bind_of_neg hn.not_ge])
  · exact traps_of_error rfl (by rw [readV_bind_of_some hp, hasWidth_bind_of_eq hw, require_bind_of_pos hn,
      require_bind_of_neg hkn.not_ge])
  · obtain ⟨c, hc⟩ := enck_of_width hw hs.subkeys hkn
    obtain ⟨l, r, hstored⟩ := encryptStored_of_enck (rd := rd) hc
    exact ⟨l, r, c, exec_cEnck_of_ok hp hw hn hkn hstored, execAll_cInit_cRound_cFinal hp hw hn hstored, hc⟩

/-- Settles O47: either way the subkeys are those `derive` answers, which are as many as the rounds. -/
theorem cEncryptIsDeriveThenEnck : Obligations.CEncryptIsDeriveThenEnck := by
  intro rd ra rb n s _
  refine ⟨decode_encodeWord (.cEncrypt rd ra rb n) rfl nofun,
    fun h => traps_of_error rfl (readV_readV_bind_of_none h _),
    fun p key ⟨hp, _⟩ ⟨hkey, _⟩ => ⟨fun hw => ?_, fun hpw hkw hn => ?_, fun hpw hkw hn => ?_⟩⟩
  · by_cases hpw : p.w = 64
    · have hkw : key.w ≠ 64 := hw.resolve_left (not_not.2 hpw)
      exact traps_of_error rfl (by rw [readV_bind_of_some hp, readV_bind_of_some hkey, hasWidth_bind_of_eq hpw,
        hasWidth_bind_of_ne hkw])
    · exact traps_of_error rfl (by rw [readV_bind_of_some hp, readV_bind_of_some hkey, hasWidth_bind_of_ne hpw])
  · exact traps_of_error rfl (by rw [readV_bind_of_some hp, readV_bind_of_some hkey, hasWidth_bind_of_eq hpw,
      hasWidth_bind_of_eq hkw, require_bind_of_neg hn.not_ge])
  · obtain ⟨ks, hderive, hlen, hks⟩ := derive_of_width hkw n.toNat
    obtain ⟨c, hc⟩ := enck_of_width hpw hks hlen.ge
    obtain ⟨cd, l, r, _, rfl, hexec, hall⟩ := exec_cEncrypt_of_enck (rd := rd) hp hkey hpw hkw hn hderive hlen hc
    exact ⟨_, c, hexec, hall, (encrypt_of_derive hderive p).trans hc, writeV_get_self _ rd c, hlen, rfl, rfl⟩

/-- Settles O48: the check of the destinations comes first (R235). -/
theorem cGetlrCopiesTheHalves : Obligations.CGetlrCopiesTheHalves := by
  intro rd re s _
  refine ⟨fun h => traps_of_error rfl (require_bind_of_neg (not_not.2 h) _), fun hne => ?_⟩
  refine ⟨decode_encodeWord (.cGetlr rd re) (bne_iff_ne.2 hne) nofun,
    fun h => traps_of_error rfl (by rw [require_bind_of_pos hne, readLR_bind_of_none h]), fun l r hl hr => ?_⟩
  exact exec_of_ok rfl (by rw [require_bind_of_pos hne, readLR_bind_of_some hl hr])

/-- Settles O53: what is written is the answer of `encrypt` or of `enck`, and no other part of the state is an argument
of theirs. -/
theorem encryptionDependsOnItsOperandsAlone : Obligations.EncryptionDependsOnItsOperandsAlone := by
  constructor
  · intro rd ra rb rd' ra' rb' n p key s s' _ _ ⟨hp, _⟩ ⟨hkey, _⟩ ⟨hp', _⟩ ⟨hkey', _⟩ hpw hkw hn
    obtain ⟨ks, hderive, hlen, hks⟩ := derive_of_width hkw n.toNat
    obtain ⟨c, hc⟩ := enck_of_width hpw hks hlen.ge
    obtain ⟨_, _, _, _, rfl, hexec, -⟩ := exec_cEncrypt_of_enck (rd := rd) hp hkey hpw hkw hn hderive hlen hc
    obtain ⟨_, _, _, _, rfl, hexec', -⟩ := exec_cEncrypt_of_enck (rd := rd') hp' hkey' hpw hkw hn hderive hlen hc
    exact ⟨_, _, c, hexec, hexec', writeV_get_self _ rd c, writeV_get_self _ rd' c⟩
  · intro rd ra rd' ra' n p s s' hs _ _ _ hp hp' hw hn hkn hkn' hks
    obtain ⟨c, hc⟩ := enck_of_width hw hs.subkeys hkn
    obtain ⟨_, _, hstored⟩ := encryptStored_of_enck (rd := rd) hc
    obtain ⟨_, _, hstored'⟩ := encryptStored_of_enck (rd := rd') ((enck_congr hks p).symm.trans hc)
    exact ⟨_, _, c, exec_cEnck_of_ok hp hw hn hkn hstored, exec_cEnck_of_ok hp' hw hn hkn' hstored',
      writeV_get_self _ rd c, writeV_get_self _ rd' c⟩

end Sys2Proof.Machine
end

section
/-! PROOFS. The statements of 60_exceptions.md: which causes a command can raise (R232), the three outcomes of a command
presented (R233, R274), the faulted engine (R234) and the engine with nothing presented (R247). -/

namespace Sys2Proof.Machine

/-! ### The causes of a command (R232) -/

/-- What R232 and R233 say of the body of the command `i`, run in `s`: it completes and leaves FAULT as it was, or
raises a cause of the row of `i`. -/
def EndsInItsRow (i : Instr) (s : State) : Checked State → Prop
  | .ok t => t.fault = s.fault
  | .error c => c ∈ mayRaise i

/-- The command `i` in `s` is the conclusion of a body that ends in its row. -/
def KeepsToItsRow (i : Instr) (s : State) : Prop := ∃ res, exec i s = conclude i s res ∧ EndsInItsRow i s res

section Sequence

variable {α : Type} {i : Instr} {s t : State} {x : Checked α} {f : α → Checked State} {a : α} {e : Cause} {P : Prop}

theorem EndsInItsRow.bind (hx : ∀ c, x = .error c → c ∈ mayRaise i) (hf : ∀ a, x = .ok a → EndsInItsRow i s (f a)) :
    EndsInItsRow i s (x >>= f) := by
  cases x with
  | ok a => exact hf a rfl
  | error c => exact hx c rfl

/-- A part of a body with one cause to raise, which the row lists: the checks, the reads and the pure functions. -/
theorem EndsInItsRow.check (hx : ∀ c, x = .error c ↔ P ∧ c = e) (hf : ∀ a, x = .ok a → EndsInItsRow i s (f a))
    (he : e ∈ mayRaise i := by simp [mayRaise]) : EndsInItsRow i s (x >>= f) :=
  .bind (fun c h => by obtain ⟨-, rfl⟩ := (hx c).1 h; exact he) hf

/-- A source register is read (R23). -/
theorem EndsInItsRow.source {ra : VReg} {f : BV → Checked State}
    (hf : ∀ x, s.v.get ra = some x → EndsInItsRow i s (f x)) (he : .emptyRegister ∈ mayRaise i := by simp [mayRaise]) :
    EndsInItsRow i s (s.readV ra >>= f) :=
  .check (fun _ => readV_eq_error) (fun x hx => hf x (readV_eq_ok.1 hx)) he

/-- The width of an operand is checked (92_eei_decisions.md D29). -/
theorem EndsInItsRow.width {x : BV} {w : Nat} {f : Unit → Checked State} (hf : x.w = w → EndsInItsRow i s (f ()))
    (he : .widthMismatch ∈ mayRaise i := by simp [mayRaise]) : EndsInItsRow i s (hasWidth x w >>= f) :=
  .check (fun _ => hasWidth_eq_error) (fun _ hw => hf (hasWidth_eq_ok.1 hw)) he

/-- A count or the room for an entry is checked. -/
theorem EndsInItsRow.bound {p : Prop} [Decidable p] {f : Unit → Checked State} (hf : p → EndsInItsRow i s (f ()))
    (he : e ∈ mayRaise i := by simp [mayRaise]) : EndsInItsRow i s (require p e >>= f) :=
  .check (fun _ => require_eq_error) (fun _ hp => hf (require_eq_ok.1 hp)) he

/-- A part of a body that cannot raise. -/
theorem EndsInItsRow.next (hx : x = .ok a) (hf : EndsInItsRow i s (f a)) : EndsInItsRow i s (x >>= f) := by
  rwa [hx, ok_bind]

theorem EndsInItsRow.done {res : Checked State} (h : res = .ok t) (ht : t.fault = s.fault) : EndsInItsRow i s res := by
  rwa [h]

end Sequence

/-- Every constant table has a width that `permute` can give its result (R54 to R59). -/
theorem constantTable_length {t : List Nat}
    (h : t = tableIP ∨ t = tableFP ∨ t = tableE ∨ t = tableP ∨ t = tablePC1 ∨ t = tablePC2) :
    1 ≤ t.length ∧ t.length ≤ 64 := by
  rcases h with rfl | rfl | rfl | rfl | rfl | rfl <;> decide

/-- The row of `BV.PERM`: a length violation is the user table's alone. -/
theorem mem_mayRaise_bvPerm {rd ra : VReg} {tid : Imm} {c : Cause} : c ∈ mayRaise (.bvPerm rd ra tid) ↔
    (tid.toNat = 6 ∧ c = .widthViolation) ∨ c = .indexOutOfRange ∨ c = .emptyRegister := by
  by_cases h : tid.toNat = 6 <;> simp [mayRaise, h]

section Commands

variable (rd re ra rb : VReg) (s : State)

theorem bvNew_keepsToItsRow (w : Imm) (value : DataWord) : KeepsToItsRow (.bvNew rd w value) s :=
  ⟨_, rfl, .check (fun _ => construct_eq_error) fun _ _ => rfl⟩

theorem bvRead_keepsToItsRow : KeepsToItsRow (.bvRead ra) s := ⟨_, rfl, .source fun _ _ => rfl⟩

theorem bvGet_keepsToItsRow (pos : Imm) : KeepsToItsRow (.bvGet rd ra pos) s :=
  ⟨_, rfl, .source fun _ _ => .check (fun _ => getBit_eq_error) fun _ _ => rfl⟩

theorem bvSet_keepsToItsRow (pos : Imm) (b : BitVec 1) : KeepsToItsRow (.bvSet rd ra pos b) s :=
  ⟨_, rfl, .source fun _ _ => .check (fun _ => setBit_eq_error) fun _ _ => rfl⟩

theorem bvRange_keepsToItsRow (first last : Imm) : KeepsToItsRow (.bvRange rd ra first last) s :=
  ⟨_, rfl, .source fun _ _ => .check (fun _ => range_eq_error) fun _ _ => rfl⟩

/-- The check of the destinations is the decoder's, so a legal command passes it. -/
theorem bvSplit_keepsToItsRow (mid : Imm) (hwf : (Instr.bvSplit rd re ra mid).wellFormed = true) :
    KeepsToItsRow (.bvSplit rd re ra mid) s :=
  ⟨_, rfl, .next (require_eq_ok (u := ()).2 (bne_iff_ne.1 hwf)) <|
    .source fun _ _ => .check (fun _ => split_eq_error) fun _ _ => rfl⟩

theorem bvConcat_keepsToItsRow : KeepsToItsRow (.bvConcat rd ra rb) s :=
  ⟨_, rfl, .source fun _ _ => .source fun _ _ => .check (fun _ => concat_eq_error) fun _ _ => rfl⟩

theorem bvRotl_keepsToItsRow (n : Imm) : KeepsToItsRow (.bvRotl rd ra n) s := ⟨_, rfl, .source fun _ _ => rfl⟩

/-- Only the user table can be of a length that `permute` refuses. -/
theorem bvPerm_keepsToItsRow (tid : Imm) (hwf : (Instr.bvPerm rd ra tid).wellFormed = true) :
    KeepsToItsRow (.bvPerm rd ra tid) s := by
  have htid : tid.toNat ≤ 6 := of_decide_eq_true hwf
  obtain ⟨t, -, htable⟩ := table_of_le (s := s) htid
  have hempty : .emptyRegister ∈ mayRaise (.bvPerm rd ra tid) := mem_mayRaise_bvPerm.2 (.inr (.inr rfl))
  refine ⟨_, rfl, .next htable <|
    .source (fun x _ => .bind (fun c hc => mem_mayRaise_bvPerm.2 ?_) fun _ _ => rfl) hempty⟩
  rcases permute_eq_error.1 hc with ⟨hlen, rfl⟩ | ⟨-, -, rfl⟩
  · rcases table_eq_ok htable with ⟨huser, -⟩ | ⟨-, hconst⟩
    · exact .inl ⟨huser, rfl⟩
    · exact absurd (constantTable_length hconst) hlen
  · exact .inr (.inl rfl)

theorem bvDot_keepsToItsRow : KeepsToItsRow (.bvDot rd ra rb) s :=
  ⟨_, rfl, .source fun _ _ => .source fun _ _ => .check (fun _ => dot_eq_error) fun _ _ => rfl⟩

theorem bvXor_keepsToItsRow : KeepsToItsRow (.bvXor rd ra rb) s :=
  ⟨_, rfl, .source fun _ _ => .source fun _ _ => .check (fun _ => xorBV_eq_error) fun _ _ => rfl⟩

theorem tblClr_keepsToItsRow : KeepsToItsRow .tblClr s := ⟨.ok { s with ut := [] }, rfl, rfl⟩

theorem tblPush_keepsToItsRow (e : Imm) : KeepsToItsRow (.tblPush e) s := ⟨_, rfl, .bound fun _ => rfl⟩

theorem ksLoad_keepsToItsRow : KeepsToItsRow (.ksLoad ra) s :=
  ⟨_, rfl, .source fun _ _ => .width fun hw => by
    obtain ⟨_, -, -, -, hload⟩ := loadKey_of_width s hw
    exact .done hload rfl⟩

theorem ksStep_keepsToItsRow (hs : s.Inv) : KeepsToItsRow .ksStep s :=
  ⟨_, rfl, .check (fun _ => readCD_eq_error) fun cd hcd => .bound fun _ => by
    have hcd : s.cd = some cd := readCD_eq_ok.1 hcd
    obtain ⟨hf, hw⟩ := hs.cdWidth cd hcd
    obtain ⟨_, _, -, -, -, hstep⟩ := scheduleStep_of_cd s hcd hf hw
    exact .done hstep rfl⟩

theorem ksDerive_keepsToItsRow (n : Count) : KeepsToItsRow (.ksDerive ra n) s :=
  ⟨_, rfl, .source fun _ _ => .width fun hw => .bound fun _ => by
    obtain ⟨_, hderive, -⟩ := derive_of_width hw n.toNat
    obtain ⟨_, hkeys⟩ := deriveKeys_of_derive (s := s) hderive
    exact .done hkeys rfl⟩

theorem ksGetk_keepsToItsRow (idx : Count) : KeepsToItsRow (.ksGetk rd idx) s :=
  ⟨_, rfl, .bound fun _ => .check (fun _ => subkey_eq_error) fun _ _ => rfl⟩

theorem ksGetcd_keepsToItsRow : KeepsToItsRow (.ksGetcd rd) s :=
  ⟨_, rfl, .check (fun _ => readCD_eq_error) fun _ _ => rfl⟩

theorem rfSbox_keepsToItsRow (hs : s.Inv) : KeepsToItsRow (.rfSbox rd ra) s :=
  ⟨_, rfl, .source fun _ hx => .width fun hw => by
    obtain ⟨_, hsbox, -⟩ := sbox48_of_width (fits_of_get hs hx) hw
    exact .next hsbox rfl⟩

theorem rfF_keepsToItsRow (hs : s.Inv) : KeepsToItsRow (.rfF rd ra rb) s :=
  ⟨_, rfl, .source fun _ _ => .source fun _ hk => .width fun hrw => .width fun hkw => by
    obtain ⟨_, _, _, _, -, -, -, -, hround, -⟩ := roundF_of_width hrw (fits_of_get hs hk) hkw
    exact .next hround rfl⟩

/-- The box number is checked by the decoder, so a legal command passes it. -/
theorem rfSb_keepsToItsRow (j : Imm) (hs : s.Inv) (hwf : (Instr.rfSb rd ra j).wellFormed = true) :
    KeepsToItsRow (.rfSb rd ra j) s := by
  have hj : 1 ≤ j.toNat ∧ j.toNat ≤ 8 := by simpa [Instr.wellFormed] using hwf
  refine ⟨_, rfl, .next (require_eq_ok (u := ()).2 hj) <| .source fun _ hc => .width fun hw => ?_⟩
  obtain ⟨_, -, -, hsbox, -⟩ := sbox6_of_width (fits_of_get hs hc) hw (Nat.lt_succ_of_le hj.2)
  exact .next hsbox rfl

theorem cInit_keepsToItsRow : KeepsToItsRow (.cInit ra) s :=
  ⟨_, rfl, .source fun _ _ => .width fun hw => by
    obtain ⟨_, _, -, -, -, hinit⟩ := initHalves_of_width s hw
    exact .done hinit rfl⟩

theorem cRound_keepsToItsRow (hs : s.Inv) : KeepsToItsRow .cRound s :=
  ⟨_, rfl, .check (fun _ => readLR_eq_error) fun lr hlr => .bound fun _ => .bound fun hkn => by
    obtain ⟨hl, hr⟩ := readLR_eq_ok.1 hlr
    obtain ⟨hlf, hlw⟩ := hs.lWidth _ hl
    obtain ⟨-, hrw⟩ := hs.rWidth _ hr
    obtain ⟨k, hk⟩ := exists_subkey (Nat.succ_pos s.rn) hkn
    obtain ⟨hkf, hkw⟩ := hs.subkeys k (mem_of_subkey hk)
    obtain ⟨_, _, -, -, -, -, hround⟩ := roundStep_of_halves s hl hr hk hlf hlw hrw hkf hkw
    exact .done hround rfl⟩

theorem cFinal_keepsToItsRow (hs : s.Inv) : KeepsToItsRow (.cFinal rd) s :=
  ⟨_, rfl, .check (fun _ => readLR_eq_error) fun lr hlr => by
    obtain ⟨hl, hr⟩ := readLR_eq_ok.1 hlr
    obtain ⟨hlf, hlw⟩ := hs.lWidth _ hl
    obtain ⟨hrf, hrw⟩ := hs.rWidth _ hr
    obtain ⟨_, _, -, hfinal, -⟩ := cFinal_of_width hlf hlw hrf hrw
    exact .next hfinal rfl⟩

theorem cEnck_keepsToItsRow (n : Count) (hs : s.Inv) : KeepsToItsRow (.cEnck rd ra n) s :=
  ⟨_, rfl, .source fun _ _ => .width fun hw => .bound fun _ => .bound fun hkn => by
    obtain ⟨_, henck⟩ := enck_of_width hw hs.subkeys hkn
    obtain ⟨_, _, hstored⟩ := encryptStored_of_enck (rd := rd) henck
    exact .done hstored rfl⟩

/-- The subkeys are those the command itself derives, so nothing is asked of the state. -/
theorem cEncrypt_keepsToItsRow (n : Count) : KeepsToItsRow (.cEncrypt rd ra rb n) s :=
  ⟨_, rfl, .source fun _ _ => .source fun _ _ => .width fun hpw => .width fun hkw => .bound fun _ => by
    obtain ⟨ks, hderive, hlen, hks⟩ := derive_of_width hkw n.toNat
    obtain ⟨cd, hkeys⟩ := deriveKeys_of_derive (s := s) hderive
    obtain ⟨_, henck⟩ := enck_of_width hpw hks hlen.ge
    obtain ⟨_, _, hstored⟩ := encryptStored_of_enck (s := { s with cd := some cd, k := ks }) (rd := rd) henck
    exact .next hkeys (.done hstored rfl)⟩

/-- The check of the destinations is the decoder's, so a legal command passes it. -/
theorem cGetlr_keepsToItsRow (hwf : (Instr.cGetlr rd re).wellFormed = true) : KeepsToItsRow (.cGetlr rd re) s :=
  ⟨_, rfl, .next (require_eq_ok (u := ()).2 (bne_iff_ne.1 hwf)) <| .check (fun _ => readLR_eq_error) fun _ _ => rfl⟩

end Commands

/-- Every legal command, in every state with the invariants, keeps to its row. -/
theorem exec_keepsToItsRow (i : Instr) (s : State) (hs : s.Inv) (hwf : i.wellFormed = true) : KeepsToItsRow i s :=
  match i with
  | .bvNew rd w value => bvNew_keepsToItsRow rd s w value
  | .bvRead ra => bvRead_keepsToItsRow ra s
  | .bvGet rd ra pos => bvGet_keepsToItsRow rd ra s pos
  | .bvSet rd ra pos b => bvSet_keepsToItsRow rd ra s pos b
  | .bvRange rd ra first last => bvRange_keepsToItsRow rd ra s first last
  | .bvSplit rd re ra mid => bvSplit_keepsToItsRow rd re ra s mid hwf
  | .bvConcat rd ra rb => bvConcat_keepsToItsRow rd ra rb s
  | .bvRotl rd ra n => bvRotl_keepsToItsRow rd ra s n
  | .bvPerm rd ra tid => bvPerm_keepsToItsRow rd ra s tid hwf
  | .bvDot rd ra rb => bvDot_keepsToItsRow rd ra rb s
  | .bvXor rd ra rb => bvXor_keepsToItsRow rd ra rb s
  | .tblClr => tblClr_keepsToItsRow s
  | .tblPush e => tblPush_keepsToItsRow s e
  | .ksLoad ra => ksLoad_keepsToItsRow ra s
  | .ksStep => ksStep_keepsToItsRow s hs
  | .ksDerive ra n => ksDerive_keepsToItsRow ra s n
  | .ksGetk rd idx => ksGetk_keepsToItsRow rd s idx
  | .ksGetcd rd => ksGetcd_keepsToItsRow rd s
  | .rfSbox rd ra => rfSbox_keepsToItsRow rd ra s hs
  | .rfF rd ra rb => rfF_keepsToItsRow rd ra rb s hs
  | .rfSb rd ra j => rfSb_keepsToItsRow rd ra s j hs hwf
  | .cInit ra => cInit_keepsToItsRow ra s
  | .cRound => cRound_keepsToItsRow s hs
  | .cFinal rd => cFinal_keepsToItsRow rd s hs
  | .cEnck rd ra n => cEnck_keepsToItsRow rd ra s n hs
  | .cEncrypt rd ra rb n => cEncrypt_keepsToItsRow rd ra rb s n
  | .cGetlr rd re => cGetlr_keepsToItsRow rd re s hwf

/-- Settles O17: the checks raise what the row lists, and behind them no computation can raise. -/
theorem commandsRaiseOnlyTheCausesOfTheirRow : Obligations.CommandsRaiseOnlyTheCausesOfTheirRow := by
  intro i s hs hf hwf
  obtain ⟨res, hexec, hrow⟩ := exec_keepsToItsRow i s hs hwf
  cases res with
  | ok t => exact .inl ⟨t, exec_of_ok hexec rfl, hrow.trans hf⟩
  | error c => exact .inr ⟨c, hrow, traps_of_error hexec rfl⟩

/-! ### The outcomes of a command presented (R233, R234, R274) -/

/-- While FAULT = 1 a command presented is ignored (R234). -/
theorem acceptCommand_of_fault {s : State} (hf : s.fault = true) (cw : CmdWord) (dw : DataWord) :
    acceptCommand cw dw s = .next s := if_pos hf

/-- Settles O5: a completing command has written elements of its own, which the fault record and the host's list are
not; a faulting one latches its own word, which is the word presented. -/
theorem everyCommandHasOneOfThreeOutcomes : Obligations.EveryCommandHasOneOfThreeOutcomes := by
  intro cw dw rest s hin
  rw [step_of_command hin]
  refine ⟨fun hf => acceptCommand_of_fault (s := { s with input := rest }) hf cw dw, fun hf => ?_⟩
  rcases acceptCommand_cases cw dw { s with input := rest } with ⟨hf', -⟩ | ⟨-, _, -, h⟩ | ⟨-, i, hd, h⟩
  · exact absurd hf' (by simp [hf])
  · exact .inr ⟨.illegalCommand, h⟩
  · obtain ⟨t, ht, hreach | ⟨c, rfl⟩⟩ := exec_endsAsListed i { s with input := rest }
    · have hrec := hreach.leaves (f := fun u => (u.fault, u.fcause, u.fcmd, u.input)) fun _ _ hw => hw.faultRecord_eq
      simp only [Prod.mk.injEq] at hrec
      obtain ⟨hfault, hcause, hcmd, hinput⟩ := hrec
      exact .inl ⟨t, h.trans ht, hfault.trans hf, hcause, hcmd, hinput⟩
    · obtain ⟨-, rfl, -⟩ := encodingGivesBackEveryLegalWord cw dw i hd
      exact .inr ⟨c, h.trans ht⟩

/-! ### Nothing presented (R247), and the faulted engine (R234) -/

theorem step_of_nil {s : State} (h : s.input = []) : step s = .next s := by
  simp only [step, acceptNext, h]

/-- Settles O9. -/
theorem stepWithNothingPresentedChangesNothing : Obligations.StepWithNothingPresentedChangesNothing :=
  fun _ => step_of_nil

/-- A faulted step only takes the event presented, if there is one and it is no RESET, off the list. -/
theorem step_of_fault {s : State} (hf : s.fault = true) (hno : ∀ e ∈ s.input, e ≠ .reset) :
    step s = .next { s with input := s.input.tail } := by
  match hin : s.input with
  | [] => rw [step_of_nil hin, List.tail_nil, ← hin]
  | .reset :: rest => exact absurd rfl (hno .reset (by simp [hin]))
  | .command cw dw :: rest =>
    rw [step_of_command hin, List.tail_cons]
    exact acceptCommand_of_fault (s := { s with input := rest }) hf cw dw

theorem run_succ_of_step {s t : State} (h : step s = .next t) (n : Nat) :
    Host.Core.run Sys2Proof.core (n + 1) s = Host.Core.run Sys2Proof.core n t := by
  have hcore : Sys2Proof.core.step s = .next t := h
  simp only [Host.Core.run, hcore]

/-- Settles O6, by induction on the number of steps: each takes one command off the list. -/
theorem faultRecordStaysUntilReset : Obligations.FaultRecordStaysUntilReset := by
  intro n
  induction n with
  | zero => exact fun _ _ _ => rfl
  | succ n ih =>
    intro s hf hno
    calc Host.Core.run Sys2Proof.core (n + 1) s
        = Host.Core.run Sys2Proof.core n { s with input := s.input.tail } := run_succ_of_step (step_of_fault hf hno) n
      _ = .next { s with input := s.input.tail.drop n } :=
        ih { s with input := s.input.tail } hf fun e he => hno e (List.mem_of_mem_tail he)
      _ = .next { s with input := s.input.drop (n + 1) } := by rw [List.drop_tail]

end Sys2Proof.Machine
end

section
/-! PROOFS. The statement of 70_reset_and_hazards.md: RESET presented to a running machine (R238, R270). -/

namespace Sys2Proof.Machine

/-- RESET asks for no element of the state it is taken in, FAULT included: it comes before the check of R234, which is
a command's. -/
theorem step_of_reset {s : State} {rest : List HostEvent} (h : s.input = .reset :: rest) :
    step s = .next (State.resetByHost { s with input := rest }) := by
  simp only [step, acceptNext, acceptEvent, h]

/-- What the host still presents is all that RESET keeps (R38, R270). -/
theorem resetByHost_withInput (s : State) (rest : List HostEvent) :
    State.resetByHost { s with input := rest } = { State.reset with input := rest } := rfl

/-- Settles O8: the step is RESET's own, and RESET keeps the list alone. -/
theorem resetLeavesTheResetStateFromAnyState : Obligations.ResetLeavesTheResetStateFromAnyState := by
  intro s rest hin
  rw [step_of_reset hin, resetByHost_withInput]

end Sys2Proof.Machine
end

section
/-! PROOFS. The statements of 96_test_programs.md: the words of its encoding tables D-E1 and D-E2, and the
complementation property D-C5. -/

namespace Sys2Proof.Machine

/-- Settles O16, by running the decoder on each listed word. -/
theorem listedWordsDecodeAsListed : Obligations.ListedWordsDecodeAsListed := by
  unfold Obligations.ListedWordsDecodeAsListed
  decide

/-! ### Every bit inverted -/

section Complement

variable {x : BV}

@[simp] theorem complement_w (x : BV) : (complement x).w = x.w := rfl

theorem complement_fits (hx : x.Fits) : (complement x).Fits := by
  have := hx.2.2
  exact ⟨hx.1, hx.2.1, by simp only [complement]; omega⟩

theorem complement_at (hx : x.Fits) {q : Nat} (h1 : 1 ≤ q) (h2 : q ≤ x.w) : (complement x).at q = !x.at q := by
  have hlt : x.w - q < x.w := by omega
  simp only [BV.at, complement, Nat.sub_sub, Nat.add_comm 1, Nat.testBit_two_pow_sub_succ hx.2.2, hlt, decide_true,
    Bool.true_and]

end Complement

/-! ### The bit-vector functions on complements (R126 to R130)

A function that only moves bits commutes with the complement. Under xor one complement comes out and two cancel. -/

section Vectors

variable {x y a b hi lo : BV}

/-- What the checks of `permute` let pass (R128). -/
theorem checks_of_permute {t : List Nat} (h : permute x t = .ok y) :
    (1 ≤ t.length ∧ t.length ≤ 64) ∧ ∀ p ∈ t, 1 ≤ p ∧ p ≤ x.w := by
  have hlen : 1 ≤ t.length ∧ t.length ≤ 64 := by
    by_contra hlen
    cases h.symm.trans (permute_eq_error.2 (.inl ⟨hlen, rfl⟩))
  refine ⟨hlen, fun p hp => ?_⟩
  by_contra hout
  cases h.symm.trans (permute_eq_error.2 (.inr ⟨hlen, ⟨p, hp, hout⟩, rfl⟩))

theorem permute_complement {t : List Nat} (hx : x.Fits) (h : permute x t = .ok y) :
    permute (complement x) t = .ok (complement y) := by
  obtain ⟨⟨h1, h64⟩, ht⟩ := checks_of_permute h
  have hy : PermutedBy x t y := prop_of_ok (permute_permutedBy h1 h64 ht) h
  obtain ⟨z, hperm, hz⟩ := permute_permutedBy (x := complement x) h1 h64 ht
  rw [hperm]
  refine congrArg _ (bv_ext hz.fits (complement_fits hy.fits) (hz.width.trans hy.width.symm) fun q hq1 hq2 => ?_)
  rw [hz.width] at hq2
  have hmem : t.getD (q - 1) 0 ∈ t := by
    rw [List.getD_eq_getElem _ _ (by omega)]
    exact List.getElem_mem _
  obtain ⟨hp1, hp2⟩ := ht _ hmem
  rw [hz.bits q hq1 hq2, complement_at hx hp1 hp2, complement_at hy.fits hq1 (hy.width.symm ▸ hq2),
    hy.bits q hq1 hq2]

theorem concat_complement (ha : a.Fits) (hb : b.Fits) (h : concat a b = .ok y) :
    concat (complement a) (complement b) = .ok (complement y) := by
  have hsum : a.w + b.w ≤ 64 := check_of_ok (fun _ => concat_eq_error) h
  obtain ⟨hyw, hyf, hyat⟩ := prop_of_ok (concat_of_bound ha hb hsum) h
  obtain ⟨z, hconcat, hzw, hzf, hzat⟩ := concat_of_bound (complement_fits ha) (complement_fits hb) hsum
  rw [hconcat]
  refine congrArg _ (bv_ext hzf (complement_fits hyf) (hzw.trans hyw.symm) fun q h1 h2 => ?_)
  rw [hzw] at h2
  rw [hzat q h1 h2, complement_at hyf h1 (hyw.symm ▸ h2), hyat q h1 h2, complement_w]
  split_ifs with hq
  · exact complement_at ha h1 hq
  · rw [complement_w, complement_w] at h2
    exact complement_at hb (by omega) (by omega)

/-- The parts of the complement join to it, and splitting takes the join apart. -/
theorem split_complement {mid : Nat} (hx : x.Fits) (h : split x mid = .ok (hi, lo)) :
    split (complement x) mid = .ok (complement hi, complement lo) := by
  obtain ⟨h1, h2⟩ := check_of_ok (fun _ => split_eq_error) h
  obtain ⟨_, _, hsplit, hparts⟩ := split_partsOf hx h1 h2
  cases hsplit.symm.trans h
  obtain ⟨_, _, hsplit', hconcat⟩ := concat_of_split hx h1 h2
  cases hsplit'.symm.trans h
  have hjoin := concat_complement hparts.fitsHigh hparts.fitsLow hconcat
  have hback := split_of_concat (complement_fits hparts.fitsHigh) (complement_fits hparts.fitsLow) hjoin
  rwa [complement_w, hparts.widthHigh] at hback

theorem rotl_complement (hx : x.Fits) (n : Nat) : rotl (complement x) n = complement (rotl x n) := by
  refine bv_ext (rotl_fits (complement_fits hx) n) (complement_fits (rotl_fits hx n)) rfl fun q h1 h2 => ?_
  rw [rotl_w, complement_w] at h2
  have hlt : (q - 1 + n) % x.w < x.w := Nat.mod_lt _ hx.1
  rw [rotl_at (complement_fits hx) n h1 h2, complement_at (rotl_fits hx n) h1 h2, rotl_at hx n h1 h2, complement_w,
    complement_at hx (Nat.le_add_left 1 _) hlt]

theorem xorBV_complement_left (ha : a.Fits) (hb : b.Fits) (h : xorBV a b = .ok y) :
    xorBV (complement a) b = .ok (complement y) := by
  have hw : a.w = b.w := check_of_ok (P := a.w = b.w) (fun _ => xorBV_eq_error) h
  have hy : XorOf a b y := prop_of_ok (xorBV_xorOf ha hb hw) h
  obtain ⟨z, hxor, hz⟩ := xorBV_xorOf (complement_fits ha) hb hw
  rw [hxor]
  refine congrArg _ (bv_ext hz.fits (complement_fits hy.fits) (hz.width.trans hy.width.symm) fun q h1 h2 => ?_)
  rw [hz.width, complement_w] at h2
  rw [hz.bits q h1 h2, complement_at ha h1 h2, complement_at hy.fits h1 (hy.width.symm ▸ h2), hy.bits q h1 h2,
    Bool.not_xor]

theorem xorBV_complement_complement (ha : a.Fits) (hb : b.Fits) (h : xorBV a b = .ok y) :
    xorBV (complement a) (complement b) = .ok y := by
  have hw : a.w = b.w := check_of_ok (P := a.w = b.w) (fun _ => xorBV_eq_error) h
  have hy : XorOf a b y := prop_of_ok (xorBV_xorOf ha hb hw) h
  obtain ⟨z, hxor, hz⟩ := xorBV_xorOf (complement_fits ha) (complement_fits hb) hw
  rw [hxor]
  refine congrArg _ (bv_ext hz.fits hy.fits (hz.width.trans hy.width.symm) fun q h1 h2 => ?_)
  rw [hz.width, complement_w] at h2
  rw [hz.bits q h1 h2, complement_at ha h1 h2, complement_at hb h1 (hw ▸ h2), hy.bits q h1 h2, Bool.not_xor_not]

end Vectors

/-! ### The key schedule on the complemented key (R160) -/

section Schedule

variable {key cd cd' k : BV} {ks : List BV}

theorem ksNext_complement {i : Nat} (hf : cd.Fits) (h : ksNext cd i = .ok (cd', k)) :
    ksNext (complement cd) i = .ok (complement cd', complement k) := by
  obtain ⟨⟨c, d⟩, hsplit, h⟩ := bind_eq_ok.1 h
  obtain ⟨x, hconcat, h⟩ := bind_eq_ok.1 h
  obtain ⟨y, hperm, h⟩ := bind_eq_ok.1 h
  cases h
  obtain ⟨hc, hd⟩ := split_fits hf hsplit
  have hc' := rotl_fits hc (shift i)
  have hd' := rotl_fits hd (shift i)
  simp only [ksNext, split_complement hf hsplit, ok_bind, rotl_complement hc, rotl_complement hd,
    concat_complement hc' hd' hconcat, permute_complement (concat_fits hc' hd' hconcat) hperm]

theorem deriveFrom_complement {n i : Nat} (hf : cd.Fits) (hw : cd.w = 56) (h : deriveFrom n i cd = .ok ks) :
    deriveFrom n i (complement cd) = .ok (ks.map complement) := by
  induction n generalizing i cd ks with
  | zero => cases h; rfl
  | succ n ih =>
    obtain ⟨cd', k, rest, hnext, hrest, rfl⟩ := deriveFrom_succ_eq_ok.1 h
    obtain ⟨_, _, hnext', ⟨hf', hw'⟩, -⟩ := ksNext_ok hf hw i
    cases hnext'.symm.trans hnext
    exact deriveFrom_succ_eq_ok.2 ⟨_, _, _, ksNext_complement hf hnext, ih hf' hw' hrest, rfl⟩

/-- Every subkey is a selection of key bits, so all of them are complemented with the key. -/
theorem derive_complement {n : Nat} (hf : key.Fits) (hw : key.w = 64) (h : derive key n = .ok ks) :
    derive (complement key) n = .ok (ks.map complement) := by
  obtain ⟨cd, hload, hcd⟩ := ksLoad_permutedBy hw
  rw [derive_of_ksLoad hload] at h
  rw [derive_of_ksLoad (permute_complement hf hload)]
  exact deriveFrom_complement hcd.fits hcd.width h

theorem subkey_complement {i : Nat} (h : subkey ks i = .ok k) : subkey (ks.map complement) i = .ok (complement k) := by
  obtain ⟨hi, hget⟩ := subkey_eq_ok.1 h
  exact subkey_eq_ok.2 ⟨hi, by rw [List.getElem?_map, hget, Option.map_some]⟩

end Schedule

/-! ### The encryption on complements (R183, R200) -/

section Cipher

variable {p l r k c : BV} {lr lr' : BV × BV} {ks : List BV}

/-- The key mixing takes both complements away, before the substitution sees them (R183). -/
theorem roundF_complement (hr : r.Fits ∧ r.w = 32) (hk : k.Fits ∧ k.w = 48) :
    roundF (complement r) (complement k) = roundF r k := by
  obtain ⟨e, m, t, y, ⟨hexp, he⟩, ⟨hxor, -⟩, ⟨hsbox, -⟩, ⟨hperm, -⟩⟩ := roundF_stages hr.2 hk.1 hk.2
  rw [roundF_of_stages hexp hxor hsbox hperm]
  exact roundF_of_stages (permute_complement hr.1 hexp) (xorBV_complement_complement he.fits hk.1 hxor) hsbox hperm

theorem cInit_complement (hp : p.Fits) (h : cInit p = .ok lr) :
    cInit (complement p) = .ok (lr.map complement complement) := by
  obtain ⟨y, hperm, hsplit⟩ := bind_eq_ok.1 h
  rw [cInit, permute_complement hp hperm, ok_bind]
  exact split_complement (permute_fits hperm) hsplit

/-- The mixed value stays as it is, and its xor with the complemented left half is complemented. -/
theorem cRound_complement (hl : l.Fits) (hr : r.Fits ∧ r.w = 32) (hk : k.Fits ∧ k.w = 48)
    (h : cRound l r k = .ok lr) :
    cRound (complement l) (complement r) (complement k) = .ok (lr.map complement complement) := by
  obtain ⟨m, hround, h⟩ := bind_eq_ok.1 h
  obtain ⟨r', hxor, h⟩ := bind_eq_ok.1 h
  cases h
  obtain ⟨hm, -⟩ := (prop_of_ok (roundF_roundFunctionOf hr.2 hk.1 hk.2) hround).fits_width
  rw [cRound, roundF_complement hr hk, hround, ok_bind, xorBV_complement_left hl hm hxor, ok_bind]
  rfl

theorem roundsFrom_complement {m i : Nat} (hks : ∀ k ∈ ks, k.Fits ∧ k.w = 48) (hl : lr.1.Fits ∧ lr.1.w = 32)
    (hr : lr.2.Fits ∧ lr.2.w = 32) (h : roundsFrom ks m i lr = .ok lr') :
    roundsFrom (ks.map complement) m i (lr.map complement complement) = .ok (lr'.map complement complement) := by
  induction m generalizing i lr with
  | zero => cases h; rfl
  | succ m ih =>
    obtain ⟨k, hk, h⟩ := bind_eq_ok.1 h
    obtain ⟨mid, hround, h⟩ := bind_eq_ok.1 h
    have hkw := hks k (mem_of_subkey hk)
    obtain ⟨-, r', -, -, hround', -, hr', -⟩ := cRound_of_width hl.1 hl.2 hr.2 hkw.1 hkw.2
    cases hround'.symm.trans hround
    rw [roundsFrom, subkey_complement hk, ok_bind, Prod.map_fst, Prod.map_snd, cRound_complement hl.1 hr hkw hround,
      ok_bind]
    exact ih hr hr' h

theorem cFinal_complement (hl : l.Fits) (hr : r.Fits) (h : cFinal l r = .ok c) :
    cFinal (complement l) (complement r) = .ok (complement c) := by
  obtain ⟨x, hconcat, hperm⟩ := bind_eq_ok.1 h
  rw [cFinal, concat_complement hr hl hconcat, ok_bind, permute_complement (concat_fits hr hl hconcat) hperm]

theorem enck_complement {n : Nat} (hp : p.Fits ∧ p.w = 64) (hks : ∀ k ∈ ks, k.Fits ∧ k.w = 48) (hn : n ≤ ks.length)
    (h : enck p ks n = .ok c) : enck (complement p) (ks.map complement) n = .ok (complement c) := by
  obtain ⟨lr, lr', hinit, hrounds, hfinal⟩ := enck_eq_ok.1 h
  obtain ⟨l, r, hinit', hl, hr, -, -⟩ := cInit_of_width hp.2
  cases hinit'.symm.trans hinit
  obtain ⟨_, hrounds', hl', hr'⟩ := roundsFrom_of_halves (lr := (l, r)) (m := n) hks le_rfl (by omega) hl hr
  cases hrounds'.symm.trans hrounds
  exact enck_eq_ok.2 ⟨_, _, cInit_complement hp.1 hinit, roundsFrom_complement hks hl hr hrounds,
    cFinal_complement hl'.1 hr'.1 hfinal⟩

end Cipher

/-- Settles O55: the subkeys and the halves are complemented together, and each round keeps it so. -/
theorem complementingKeyAndPlaintextComplementsTheCiphertext :
    Obligations.ComplementingKeyAndPlaintextComplementsTheCiphertext := by
  intro p key n hp hpw hkey hkw _
  obtain ⟨ks, hderive, hlen, hks⟩ := derive_of_width hkw n
  obtain ⟨c, hc⟩ := enck_of_width hpw hks hlen.ge
  refine ⟨c, (encrypt_of_derive hderive p).trans hc, ?_⟩
  rw [encrypt_of_derive (derive_complement hkey hkw hderive)]
  exact enck_complement ⟨hp, hpw⟩ hks hlen.ge hc

end Sys2Proof.Machine
end
